-- ==== Sys2Proof/Word.lean ====
section
/-!
DEFINITION. The words of the sequencer: bytes (`u8`), 16-bit counters and 32-bit quantities
(spec/00_scope.md section 5).
-/
namespace Sys2Proof

/-- `u8`: a byte, an address operand, a mask (spec/00_scope.md section 5). -/
abbrev Byte := BitVec 8

/-- `u16`: the poll counter and its budget (R217). -/
abbrev Half := BitVec 16

/-- `u32` and `i32`: the clock speed (R22) and the bit length (R24). -/
abbrev Word := BitVec 32

end Sys2Proof
end

