-- ==== Sys2Proof/Config.lean ====
section
/-!
DEFINITION. The configuration table CFG (R7, R8, R9), the fixed bounds of the request port, and the
free values: what the spec leaves to a draw (R77, R124).
-/
namespace Sys2Proof

/-- Which test downgrades `Ok` to `NoTagError` (R149, spec/90_conflicts.md C2). -/
inductive NoTagRule where
  | literal
  | intent
  deriving DecidableEq, Repr

/-- CFG, the immutable table the sequencer is constructed with (R7); the fields of R8. -/
structure Cfg where
  regCommand    : Byte
  regComIen     : Byte
  regComIrq     : Byte
  regError      : Byte
  regFifoData   : Byte
  regFifoLevel  : Byte
  regControl    : Byte
  regBitFraming : Byte
  cmdIdle       : Byte
  cmdAuthent    : Byte
  cmdTransceive : Byte
  maxLen        : Byte
  pollBudget    : Half
  rdFlag        : Byte
  noTagRule     : NoTagRule
  deriving DecidableEq, Repr

/-- R9: a `REG_*` field is in 0..0x3F. -/
def Cfg.addrOk (a : Byte) : Bool := a.ule 0x3F#8

/-- R9: what a well-formed CFG satisfies. A machine built with any other table is refused by name
(`Refusal.illFormedConfig`). -/
def Cfg.wf (c : Cfg) : Bool :=
  Cfg.addrOk c.regCommand && Cfg.addrOk c.regComIen && Cfg.addrOk c.regComIrq &&
  Cfg.addrOk c.regError && Cfg.addrOk c.regFifoData && Cfg.addrOk c.regFifoLevel &&
  Cfg.addrOk c.regControl && Cfg.addrOk c.regBitFraming &&
  c.cmdAuthent != c.cmdTransceive && c.maxLen != 0#8 && c.pollBudget != 0#16 &&
  (c.rdFlag == 0x80#8 || c.rdFlag == 0x00#8)

/-- CFG_REF, the reference table of R8 that the spec's vectors use. PRESUMED (log 2): its addresses,
codes and `MAX_LEN` are the spec's general knowledge of MFRC522-class chips. -/
def Cfg.ref : Cfg where
  regCommand    := 0x01#8
  regComIen     := 0x02#8
  regComIrq     := 0x04#8
  regError      := 0x06#8
  regFifoData   := 0x09#8
  regFifoLevel  := 0x0A#8
  regControl    := 0x0C#8
  regBitFraming := 0x0D#8
  cmdIdle       := 0x00#8
  cmdAuthent    := 0x0E#8
  cmdTransceive := 0x0C#8
  maxLen        := 64#8
  pollBudget    := 2000#16
  rdFlag        := 0x80#8
  noTagRule     := .literal

/-- `PAYLOAD_MAX` (R10, second table). -/
def payloadMax : Nat := 255

/-- `ADDR_MAX` (R10, second table). -/
def addrMax : Nat := 251

/-- The answer of one transport call (R60): `Ok`, with the bytes received where the call is a
transfer, or `Fail`. -/
inductive Answer where
  | ok (bytes : List Byte)
  | fail
  deriving DecidableEq, Repr, Inhabited

/-- FREE VALUE (log 5): the byte of the `n`-th draw, `draw_u8()` of spec/00_scope.md section 6. It
has no body, so no proof can know one: "any value, not fixed by any rule, may differ at each use". -/
opaque Config.freeByte : Nat → Byte

/-- FREE VALUE (log 6): the answer the environment gives to a transport call, drawn at draw number
`n` (R77: "either `Fail`, or `Ok(in)` with `in` any byte sequence of any length"). No body. -/
opaque Config.freeAnswer : Nat → Answer

end Sys2Proof
end

