-- ==== Sys2Proof/Syntax.lean ====
section
/-!
DEFINITION. The instructions: one constructor per row of spec/opcode_table.json. Eleven are the host
operations of R97; three are the wire frames of R90, R91 and R92, the instructions the phase
register names one level below (R25: "`pc` names the next transfer the sequencer will issue").
-/
namespace Sys2Proof

/-- One constructor per row of the opcode table. -/
inductive Instr where
  /-- CAPTURE (R190): clock speed and bus address string. -/
  | capture (speed : Word) (address : List Byte)
  /-- RELEASE (R191). -/
  | release
  /-- SCAN (R192). -/
  | scan
  /-- FLASH (R193). -/
  | flash (data : List Byte)
  /-- WRREG (R120). -/
  | wrreg (addr value : Byte)
  /-- RDREG (R121). -/
  | rdreg (addr : Byte)
  /-- SETBITS (R122). -/
  | setbits (addr mask : Byte)
  /-- CLRBITS (R123). -/
  | clrbits (addr mask : Byte)
  /-- EXEC (R140): command code and payload. -/
  | exec (cmd : Byte) (payload : List Byte)
  /-- REQMODE (R180). -/
  | reqmode (mode : Byte)
  /-- RDANTICOLL (R183). -/
  | rdanticoll
  /-- SPI2W (R90): register write frame, address field `addr[5:0]` and data byte. -/
  | spi2w (a : BitVec 6) (d : Byte)
  /-- SPI2R (R91): register read frame, address field `addr[5:0]`. -/
  | spi2r (a : BitVec 6)
  /-- SPI1 (R92): the release frame. -/
  | spi1
  deriving DecidableEq, Repr

/-- The two places an instruction travels: the host's request port (R94) and the bus (R60). -/
inductive Port where
  | request
  | wire
  deriving DecidableEq, Repr

/-- R97's operations come in at the request port, R90 to R92's frames go out on the bus. -/
def Instr.port : Instr → Port
  | .capture _ _ => .request
  | .release => .request
  | .scan => .request
  | .flash _ => .request
  | .wrreg _ _ => .request
  | .rdreg _ => .request
  | .setbits _ _ => .request
  | .clrbits _ _ => .request
  | .exec _ _ => .request
  | .reqmode _ => .request
  | .rdanticoll => .request
  | .spi2w _ _ => .wire
  | .spi2r _ => .wire
  | .spi1 => .wire

end Sys2Proof
end

