-- ==== Sys2Proof/WellFormed.lean ====
section
/-!
DEFINITION. Which instructions the encodings can express: the bounds R97 puts on `LEN`
(spec/92_eei_decisions.md D6).
-/
namespace Sys2Proof

/-- A well-formed instruction fits its encoding: `LEN` is one byte (R94), CAPTURE spends four of its
bytes on the speed, so its address string has at most `ADDR_MAX` bytes (R190). -/
def Instr.wf : Instr → Bool
  | .capture _ address => decide (address.length ≤ addrMax)
  | .flash data => decide (data.length ≤ payloadMax)
  | .exec _ payload => decide (payload.length ≤ payloadMax)
  | .release => true
  | .scan => true
  | .wrreg _ _ => true
  | .rdreg _ => true
  | .setbits _ _ => true
  | .clrbits _ _ => true
  | .reqmode _ => true
  | .rdanticoll => true
  | .spi2w _ _ => true
  | .spi2r _ => true
  | .spi1 => true

end Sys2Proof
end

