-- ==== Sys2Proof/Decode.lean ====
section
/-!
DEFINITION. Decoding, total on any bytes and rejecting by name; then the encoder, written from the
same encodings (spec/30_encoding.md).
-/
namespace Sys2Proof

/-! ### Bytes and fields -/

/-- R93: `enc(addr) = (zext_9(addr) << 1) & 0x7E`, computed on nine bits and then masked. -/
def encAddr (addr : Byte) : Byte := (((addr.setWidth 9) <<< 1) &&& 0x7E#9).setWidth 8

/-- The address field of a wire frame's first byte: bits 6..1 (R90). -/
def wireAddr (b : Byte) : BitVec 6 := b.extractLsb' 1 6

/-- Four bytes, most significant first, as a 32-bit word (R96, R190). -/
def wordOfBytes (b3 b2 b1 b0 : Byte) : Word := b3 ++ b2 ++ b1 ++ b0

/-- A 32-bit word as four bytes, most significant first (R96, R190). -/
def bytesOfWord (w : Word) : List Byte :=
  [w.extractLsb' 24 8, w.extractLsb' 16 8, w.extractLsb' 8 8, w.extractLsb' 0 8]

/-! ### Decoding -/

/-- Why a byte sequence is no instruction. -/
inductive DecodeError where
  /-- Fewer bytes than the header or its `LEN` announces, or more (R94). -/
  | wrongLength
  /-- An `OP` that is not one of the eleven of R97 (R101). -/
  | unknownOp
  /-- A must-be-zero field is nonzero (R97, R101). -/
  | fieldNotZero
  /-- `LEN` outside the row's range (R97, R101). -/
  | lenOutOfRange
  /-- Bit 0 of a wire frame's address byte is set (R90, R91). -/
  | reservedBit
  /-- A read frame whose placeholder byte is not 0 (R91). -/
  | placeholderNotZero
  /-- A one-byte frame that is not the release frame `0x00` (R92). -/
  | unknownFrame
  deriving DecidableEq, Repr

/-- The rows of R97: what a legal header selects, once its length is known to be right. -/
def decodeHeader (op a b : Byte) (payload : List Byte) : Except DecodeError Instr :=
  match op.toNat with
  | 0x01 =>
    if a ≠ 0#8 ∨ b ≠ 0#8 then .error .fieldNotZero
    else match payload with
      | s3 :: s2 :: s1 :: s0 :: address => .ok (.capture (wordOfBytes s3 s2 s1 s0) address)
      | _ => .error .lenOutOfRange
  | 0x02 =>
    if a ≠ 0#8 ∨ b ≠ 0#8 then .error .fieldNotZero
    else if payload ≠ [] then .error .lenOutOfRange else .ok .release
  | 0x03 =>
    if a ≠ 0#8 ∨ b ≠ 0#8 then .error .fieldNotZero
    else if payload ≠ [] then .error .lenOutOfRange else .ok .scan
  | 0x04 => if a ≠ 0#8 ∨ b ≠ 0#8 then .error .fieldNotZero else .ok (.flash payload)
  | 0x10 => if payload ≠ [] then .error .lenOutOfRange else .ok (.wrreg a b)
  | 0x11 =>
    if b ≠ 0#8 then .error .fieldNotZero
    else if payload ≠ [] then .error .lenOutOfRange else .ok (.rdreg a)
  | 0x12 => if payload ≠ [] then .error .lenOutOfRange else .ok (.setbits a b)
  | 0x13 => if payload ≠ [] then .error .lenOutOfRange else .ok (.clrbits a b)
  | 0x20 => if a ≠ 0#8 then .error .fieldNotZero else .ok (.exec b payload)
  | 0x30 =>
    if a ≠ 0#8 then .error .fieldNotZero
    else if payload ≠ [] then .error .lenOutOfRange else .ok (.reqmode b)
  | 0x31 =>
    if a ≠ 0#8 ∨ b ≠ 0#8 then .error .fieldNotZero
    else if payload ≠ [] then .error .lenOutOfRange else .ok .rdanticoll
  | _ => .error .unknownOp

/-- R94: a request frame is `OP, A, B, LEN` and `LEN` payload bytes. -/
def decodeRequest : List Byte → Except DecodeError Instr
  | op :: a :: b :: len :: payload =>
    if payload.length = len.toNat then decodeHeader op a b payload else .error .wrongLength
  | _ => .error .wrongLength

/-- R90 to R92, with the read flag 0x80 as the table's rows have it (with `RD_FLAG = 0x00` a read
frame is bit for bit a write frame of 0, R78; log 8). -/
def decodeWire : List Byte → Except DecodeError Instr
  | [b] => if b = 0#8 then .ok .spi1 else .error .unknownFrame
  | [a, d] =>
    if a.getLsbD 0 then .error .reservedBit
    else if a.getLsbD 7 then
      if d = 0#8 then .ok (.spi2r (wireAddr a)) else .error .placeholderNotZero
    else .ok (.spi2w (wireAddr a) d)
  | _ => .error .wrongLength

/-- The decoder of a port. -/
def decode : Port → List Byte → Except DecodeError Instr
  | .request => decodeRequest
  | .wire => decodeWire

/-! ### Encoding -/

/-- A request frame (R94). -/
def requestFrame (op a b : Byte) (payload : List Byte) : List Byte :=
  op :: a :: b :: BitVec.ofNat 8 payload.length :: payload

/-- The bytes of a well-formed instruction, at its port, first byte first. -/
def encode : Instr → List Byte
  | .capture speed address => requestFrame 0x01#8 0#8 0#8 (bytesOfWord speed ++ address)
  | .release => requestFrame 0x02#8 0#8 0#8 []
  | .scan => requestFrame 0x03#8 0#8 0#8 []
  | .flash data => requestFrame 0x04#8 0#8 0#8 data
  | .wrreg addr value => requestFrame 0x10#8 addr value []
  | .rdreg addr => requestFrame 0x11#8 addr 0#8 []
  | .setbits addr mask => requestFrame 0x12#8 addr mask []
  | .clrbits addr mask => requestFrame 0x13#8 addr mask []
  | .exec cmd payload => requestFrame 0x20#8 0#8 cmd payload
  | .reqmode mode => requestFrame 0x30#8 0#8 mode []
  | .rdanticoll => requestFrame 0x31#8 0#8 0#8 []
  | .spi2w a d => [encAddr (a.setWidth 8), d]
  | .spi2r a => [encAddr (a.setWidth 8) ||| 0x80#8, 0#8]
  | .spi1 => [0x00#8]

/-! ### The opcode table as data -/

/-- A request row of spec/opcode_table.json: `match` and `mask` over the header word `H` (R94), and
the least `LEN` the row admits (R97). -/
structure RequestRow where
  mnemonic : String
  pattern  : Word
  mask     : Word
  minLen   : Nat
  deriving DecidableEq, Repr

/-- The eleven request rows, in the table's order. -/
def requestRows : List RequestRow :=
  [⟨"CAPTURE", 0x01000000#32, 0xFFFFFF00#32, 4⟩, ⟨"RELEASE", 0x02000000#32, 0xFFFFFFFF#32, 0⟩,
   ⟨"SCAN", 0x03000000#32, 0xFFFFFFFF#32, 0⟩, ⟨"FLASH", 0x04000000#32, 0xFFFFFF00#32, 0⟩,
   ⟨"WRREG", 0x10000000#32, 0xFF0000FF#32, 0⟩, ⟨"RDREG", 0x11000000#32, 0xFF00FFFF#32, 0⟩] ++
  [⟨"SETBITS", 0x12000000#32, 0xFF0000FF#32, 0⟩, ⟨"CLRBITS", 0x13000000#32, 0xFF0000FF#32, 0⟩,
   ⟨"EXEC", 0x20000000#32, 0xFFFF0000#32, 0⟩, ⟨"REQMODE", 0x30000000#32, 0xFFFF00FF#32, 0⟩,
   ⟨"RDANTICOLL", 0x31000000#32, 0xFFFFFFFF#32, 0⟩]

/-- A header word matches a row (R97). -/
def RequestRow.selects (r : RequestRow) (h : Word) : Bool :=
  h &&& r.mask == r.pattern && decide (r.minLen ≤ (h.extractLsb' 0 8).toNat)

/-! ### The table's words -/

/-- The bytes of a table word, first byte first: the table numbers a frame as one number whose most
significant byte is sent first (R94: `H = OP << 24 | A << 16 | B << 8 | LEN`; SPI2W: "byte 0 in bits
15:8, sent first"). A request's payload, which the table gives no bits, is `LEN` zeros. -/
def tableBytes (nbits w : Nat) : List Byte :=
  match nbits with
  | 32 => bytesOfWord (BitVec.ofNat 32 w) ++ List.replicate (w % 256) 0#8
  | 16 => [BitVec.ofNat 8 (w / 256), BitVec.ofNat 8 w]
  | 8 => [BitVec.ofNat 8 w]
  | _ => []

/-- 32-bit rows travel at the request port, 16- and 8-bit rows on the wire. -/
def tablePort (nbits : Nat) : Port := if nbits = 32 then .request else .wire

/-- The instruction the decoder reads from a word numbered as spec/opcode_table.json numbers it. -/
def decodeTableWord (nbits w : Nat) : Option Instr :=
  match decode (tablePort nbits) (tableBytes nbits w) with
  | .ok i => some i
  | .error _ => none

end Sys2Proof
end

