-- ==== Sys2Proof/Machine/State.lean ====
section
/-!
DEFINITION. The state of the sequencer (R22 to R31), of its request and response ports (R94, R96) and
of the environment that answers its transport calls (R20, R77, R78); how a step can stop; reset (R42).
-/
namespace Sys2Proof.Machine

/-- The phase register `pc`: the 29 names of R25's table, in its order. -/
inductive Phase where
  | ready
  | wr
  | rd
  | rmwRd
  | rmwWr
  | rqFrame
  | armIen
  | armIrqRd
  | armIrqWr
  | armFlushRd
  | armFlushWr
  | forceIdle
  | load
  | execute
  | startRd
  | startWr
  | poll
  | stopRd
  | stopWr
  | errRd
  | lvlRd
  | ctrlRd
  | drain
  | rqCheck
  | openBus
  | relWr
  | closeBus
  | done
  | abort
  deriving DecidableEq, Repr

/-- `x[op]`: which operation is running, 11 values (R24, R97). -/
inductive Op where
  | capture
  | release
  | scan
  | flash
  | wrreg
  | rdreg
  | setbits
  | clrbits
  | exec
  | reqmode
  | rdanticoll
  deriving DecidableEq, Repr

/-- `x[status]`: "exactly one of these three" (R28, R99). -/
inductive Status where
  | ok
  | noTagError
  | genericError
  deriving DecidableEq, Repr

/-- The result an operation ends in (R100, R200). -/
inductive Res where
  | success
  | transportError
  | notCaptured
  | notImplemented
  | badRequest
  | alreadyCaptured
  | noTagDetected
  deriving DecidableEq, Repr

/-- The wire frame a phase issues (R25, R69): a register write, a register read, or the release byte. -/
inductive Frame where
  | write (a : BitVec 6) (d : Byte)
  | read (a : BitVec 6)
  | release
  deriving DecidableEq, Repr

/-- A call of the transport interface (R60). -/
inductive Call where
  | openBus (address : List Byte) (speed : Word)
  | xfer (out : List Byte)
  | closeBus
  deriving DecidableEq, Repr

/-- The cells of the replay mock (R78), in canonical form: keys rising, no cell that holds what an
unlisted one reads as. -/
abbrev Memory := List Host.Cell

/-- The environment: the transport together with the chip behind it (R20). -/
inductive Env where
  /-- R77: the answers given, in call order; every later call is answered by a draw. -/
  | free (answers : List Answer)
  /-- R215, U7: the answers given, in call order; a later call is never answered. -/
  | stuck (answers : List Answer)
  /-- R78: the replay mock, over its array of cells. -/
  | replay (cells : Memory)
  /-- R78: the scripted mock: the k-th read gets the k-th byte, a later one a drawn byte. -/
  | scripted (reads : List Byte)
  deriving DecidableEq, Repr

/-- The working registers (R24) and the status (R28). `none` is the spec's own state "holds no value"
(R23, R26, R42), which a register leaves when a phase writes it and returns to when the result has
been handed over (log 1). `resp` lists the bytes of `x[resp]` written so far, index 0 first. The last
four are the model's own (log 3): CAPTURE's operands between acceptance and the open call, and the
result code and short-echo mark an operation has earned and not yet handed over. -/
structure Work where
  op       : Option Op
  a        : Option Byte
  v        : Option Byte
  tmp      : Option Byte
  cmd      : Option Byte
  payload  : Option (List Byte)
  plen     : Option Byte
  pidx     : Option Byte
  irqEn    : Option Byte
  waitIrq  : Option Byte
  rem      : Option Half
  irqVal   : Option Byte
  errVal   : Option Byte
  n        : Option Byte
  lastBits : Option (BitVec 3)
  nc       : Option Byte
  didx     : Option Byte
  resp     : List Byte
  rlen     : Option Byte
  bitLen   : Option Word
  val      : Option Byte
  status   : Option Status
  capAddr  : Option (List Byte)
  capSpeed : Option Word
  res      : Option Res
  short    : Option Bool
  deriving DecidableEq, Repr

/-- Every working register holds no value (R23, R42). -/
def Work.blank : Work where
  op       := none
  a        := none
  v        := none
  tmp      := none
  cmd      := none
  payload  := none
  plen     := none
  pidx     := none
  irqEn    := none
  waitIrq  := none
  rem      := none
  irqVal   := none
  errVal   := none
  n        := none
  lastBits := none
  nc       := none
  didx     := none
  resp     := []
  rlen     := none
  bitLen   := none
  val      := none
  status   := none
  capAddr  := none
  capSpeed := none
  res      := none
  short    := none

/-- The whole state. -/
structure State where
  /-- CFG: "read-only to every operation" (R31). -/
  cfg     : Cfg
  /-- The phase register (R25). -/
  pc      : Phase
  /-- `x[open]` (R22). -/
  opened  : Bool
  /-- `x[speed]` (R22). -/
  speed   : Word
  /-- `x[busaddr]` (R22). -/
  busaddr : List Byte
  /-- `x[adv]`, the advisory flag (R29). -/
  adv     : Bool
  /-- The working registers and the status. -/
  x       : Work
  /-- Request port: the bytes the host has presented and the sequencer has not yet taken (R94). -/
  reqIn   : List Byte
  /-- Response port: the frames handed to the host, oldest first (R96). -/
  rspOut  : List (List Byte)
  /-- Every transport call with its answer, oldest first; its transfers are the transfer trace
  (spec/00_scope.md section 6). -/
  calls   : List (Call × Answer)
  /-- The environment (R20). -/
  env     : Env
  /-- The model's own: how many free values have been drawn (log 5). -/
  draws   : Nat
  deriving DecidableEq, Repr

/-- Why the machine stops. Every one is raised only in states or on frames that no rule of the spec
brings about, so each is safe: it can make a true claim unprovable, never a false one provable. -/
inductive Fault where
  /-- A phase is about to read a working register that holds no value: "a model must treat a read of
  one before the operation has written it as a fault" (R23, U9). Raised by every phase. By the model's
  choice also where `P_DRAIN` would write `x[resp]` past `MAX_LEN` or leave a gap (log 14). Safe. -/
  | unwritten (p : Phase)
  /-- A host operation is run while another is in progress: "no request is accepted" (R216, R80, U4).
  Raised by every host operation. Safe. -/
  | requestWhileBusy
  /-- A wire frame is run that the present phase does not issue: "no operation of any file issues a
  transfer that is not listed in its rule" (R194). Raised by SPI2W, SPI2R, SPI1. Safe. -/
  | frameNotDue
  /-- A transfer on a closed bus: "`Xfer` is called only while `x[open] == 1`" (R61). Raised by SPI2W,
  SPI2R, SPI1. Safe. -/
  | busClosed
  deriving DecidableEq, Repr

/-- Why the machine gives an instruction no meaning. -/
inductive Refusal where
  /-- An instruction the model has not reached. Raised by no arm now. Safe. -/
  | notModelled (mnemonic : String)
  /-- "a model refuses a CFG that fails any of these" (R9). Raised by the step, whatever the
  instruction. Safe. -/
  | illFormedConfig
  deriving DecidableEq, Repr

/-- How a step of this machine ends. -/
abbrev Outcome := Host.Outcome State Fault Refusal

/-- R42, R240: mode Released with nothing in progress. `pc`, `x[open]`, `x[adv]`, the working
registers and the trace are the spec's; CFG is CFG_REF (log 2), `x[speed]` and `x[busaddr]` are 0 and
empty (DESIGN CHOICE, log 4), and the environment answers every call by a draw (log 6). -/
def State.reset : State where
  cfg     := Cfg.ref
  pc      := .ready
  opened  := false
  speed   := 0#32
  busaddr := []
  adv     := false
  x       := Work.blank
  reqIn   := []
  rspOut  := []
  calls   := []
  env     := .free []
  draws   := 0

end Sys2Proof.Machine
end

