-- ==== Sys2Proof/Machine/Env.lean ====
section
/-!
DEFINITION. The environment's answers (R60, R77, R78), over the mock's memory and the free values.
-/
namespace Sys2Proof.Machine

/-! ### The replay mock's cells -/

/-- A cell that is not listed reads as 0 (DESIGN CHOICE, log 7: R78 gives the array no initial
contents). -/
def Memory.read : Memory → Nat → Byte
  | [], _ => 0#8
  | (k, v) :: m, a => if k = a then v else Memory.read m a

/-- Store one byte, keeping the canonical form. -/
def Memory.write : Memory → Nat → Byte → Memory
  | [], a, v => if v = 0#8 then [] else [(a, v)]
  | (k, w) :: m, a, v =>
    if a < k then if v = 0#8 then (k, w) :: m else (a, v) :: (k, w) :: m
    else if a = k then if v = 0#8 then m else (a, v) :: m
    else (k, w) :: Memory.write m a v

/-- The canonical form over the 64 cells of the chip's register space (R62). -/
def Memory.wf : Memory → Bool
  | [] => true
  | (k, v) :: m =>
    decide (k < 64) && v != 0#8 && m.all (fun c => decide (k < c.1)) && Memory.wf m

/-! ### Answers -/

/-- `n` drawn bytes, from draw number `d` on. -/
def drawnBytes (d n : Nat) : List Byte := (List.range n).map fun i => Config.freeByte (d + i)

/-- What a mock does with a transfer (R78): bit 7 of the first of two bytes tells a read from a
write. -/
inductive MockAccess where
  | read (cell : Nat)
  | write (cell : Nat) (d : Byte)
  | other
  deriving DecidableEq, Repr

/-- R78: `A[6:1]` is the cell, bit 7 of `A` the direction. -/
def mockAccess : List Byte → MockAccess
  | [a, d] => if a.getLsbD 7 then .read (wireAddr a).toNat else .write (wireAddr a).toNat d
  | _ => .other

/-- One transport call put to the environment at draw number `d`: its answer, the environment after
it and the next draw number; `none` where the call is never answered (R215). A mock's echo bytes that
R78 calls arbitrary are drawn, and a mock opens and closes (spec/95_test_vectors.md section 3). -/
def Env.answer (e : Env) (d : Nat) (c : Call) : Option (Answer × Env × Nat) :=
  match e with
  | .free (ans :: rest) => some (ans, .free rest, d)
  | .free [] => some (Config.freeAnswer d, .free [], d + 1)
  | .stuck (ans :: rest) => some (ans, .stuck rest, d)
  | .stuck [] => none
  | .replay m =>
    match c with
    | .xfer out =>
      match mockAccess out with
      | .read cell => some (.ok [Config.freeByte d, m.read cell], .replay m, d + 1)
      | .write cell v => some (.ok (drawnBytes d 2), .replay (m.write cell v), d + 2)
      | .other => some (.ok (drawnBytes d out.length), .replay m, d + out.length)
    | .openBus _ _ => some (.ok [], .replay m, d)
    | .closeBus => some (.ok [], .replay m, d)
  | .scripted reads =>
    match c with
    | .xfer out =>
      match mockAccess out with
      | .read _ =>
        match reads with
        | b :: rest => some (.ok [Config.freeByte d, b], .scripted rest, d + 1)
        | [] => some (.ok (drawnBytes d 2), .scripted [], d + 2)
      | .write _ _ => some (.ok (drawnBytes d 2), .scripted reads, d + 2)
      | .other => some (.ok (drawnBytes d out.length), .scripted reads, d + out.length)
    | .openBus _ _ => some (.ok [], .scripted reads, d)
    | .closeBus => some (.ok [], .scripted reads, d)

/-- The fairness premise of R215: every transport call answers. -/
def Env.fair : Env → Bool
  | .stuck _ => false
  | _ => true

/-- The mock's cells, where the environment is the replay mock. -/
def Env.cells : Env → Memory
  | .replay m => m
  | _ => []

end Sys2Proof.Machine
end

