-- ==== Sys2Proof/Machine/Flags.lean ====
section
/-!
DEFINITION. The tests, masks, status and lengths the engine computes (R30, R98, R145, R148 to R151),
and the codes of a response frame (R96, R99, R100).
-/
namespace Sys2Proof.Machine

/-- `isAuth` (R30). -/
def isAuth (c : Cfg) (cmd : Byte) : Bool := cmd == c.cmdAuthent

/-- `isTrx` (R30). -/
def isTrx (c : Cfg) (cmd : Byte) : Bool := cmd == c.cmdTransceive

/-- `x[irqEn]` of a command's class (R98, R141). -/
def irqEnOf (c : Cfg) (cmd : Byte) : Byte :=
  if isAuth c cmd then 0x12#8 else if isTrx c cmd then 0x77#8 else 0x00#8

/-- `x[waitIrq]` of a command's class (R98, R141). -/
def waitIrqOf (c : Cfg) (cmd : Byte) : Byte :=
  if isAuth c cmd then 0x10#8 else if isTrx c cmd then 0x30#8 else 0x00#8

/-- `term`: a termination bit is set in the polled byte (R30, R145). -/
def termBit (irqVal waitIrq : Byte) : Bool :=
  irqVal &&& 0x01#8 != 0#8 || irqVal &&& waitIrq != 0#8

/-- The error register shows an error (R148): mask 0x1B. -/
def chipError (errVal : Byte) : Bool := errVal &&& 0x1B#8 != 0#8

/-- `NoTag(irqVal, irqEn)` (R149). -/
def noTag (c : Cfg) (irqVal irqEn : Byte) : Bool :=
  match c.noTagRule with
  | .literal => irqVal != 0#8
  | .intent => irqVal &&& irqEn &&& 0x01#8 == 0#8

/-- The status of a command that neither timed out nor showed an error (R149). -/
def resolvedStatus (c : Cfg) (irqVal irqEn : Byte) : Status :=
  if noTag c irqVal irqEn then .noTagError else .ok

/-- `lastBits`: the low three bits of the control register (R38, R150). -/
def lastBitsOf (control : Byte) : BitVec 3 := control.setWidth 3

/-- The bit length, in `i32` on zero-extended operands, from the unclamped count (R150, R163). -/
def bitLength (n : Byte) (lastBits : BitVec 3) : Word :=
  if lastBits = 0#3 then n.setWidth 32 * 8#32
  else (n.setWidth 32 - 1#32) * 8#32 + lastBits.setWidth 32

/-- The failure sentinel of the bit length, -1 (R154). -/
def bitLengthFailed : Word := 0xFFFFFFFF#32

/-- The drain count, `min(max(n, 1), MAX_LEN)` on unsigned values (R151). -/
def drainCount (c : Cfg) (n : Byte) : Byte :=
  let low := if n = 0#8 then 1#8 else n
  if low.ule c.maxLen then low else c.maxLen

/-- The `RES` byte (R100). -/
def Res.code : Res → Byte
  | .success => 0x00#8
  | .transportError => 0x01#8
  | .notCaptured => 0x02#8
  | .notImplemented => 0x03#8
  | .badRequest => 0x04#8
  | .alreadyCaptured => 0x05#8
  | .noTagDetected => 0x06#8

/-- The `STATUS` byte (R99); 0xFF for "no status". -/
def statusCode : Option Status → Byte
  | some .ok => 0x00#8
  | some .noTagError => 0x01#8
  | some .genericError => 0x02#8
  | none => 0xFF#8

/-- The `FLAGS` byte (R96): bit 0 the advisory, bit 1 the short echo, the others 0. -/
def flagsByte (adv short : Bool) : Byte :=
  (if adv then 0x01#8 else 0x00#8) ||| (if short then 0x02#8 else 0x00#8)

/-- A response frame (R96). -/
def rspFrame (res : Res) (flags status : Byte) (bitLen : Word) (val rlen : Byte)
    (data : List Byte) : List Byte :=
  [res.code, flags, status] ++ bytesOfWord bitLen ++ [val, rlen] ++ data

end Sys2Proof.Machine
end

