-- ==== Sys2Proof/Machine/Operands.lean ====
section
/-!
DEFINITION. The operands of a phase: which working registers it reads (R24's column "read in phase"),
and the frame it builds from them (R25's column "transfer issued in this phase", R156).
-/
namespace Sys2Proof.Machine

/-- The value of a register that holds one. A phase runs only where `Work.holds` has seen that every
register it reads holds a value (R23), so the default stands for no reading. -/
def reg {α : Type} [Inhabited α] (r : Option α) : α := r.getD default

/-- The payload byte `x[payload][x[pidx]]` (R143). -/
def Work.payloadByte (x : Work) : Byte := (reg x.payload).getD (reg x.pidx).toNat 0#8

/-- The operations whose result has the engine's triple: status, bit length and data (R140, R180). -/
def returnsTriple (op : Option Op) : Bool := op == some .exec || op == some .reqmode

/-- The operations whose result has a value in `VAL` (R96, R121, R181). -/
def returnsVal (op : Option Op) : Bool := op == some .rdreg || op == some .reqmode

/-- Every working register and buffer byte the phase reads holds a value (R24's column "read in phase",
R23, R27). A phase that read one without a value would fault. That `P_DRAIN` writes the next byte of
`x[resp]` or one already written, below `MAX_LEN`, is asked for by the model's choice (log 14). `x[op]`
is read in all phases of an operation, and `x[cmd]` in `P_RQ_FRAME` too, for the masks selected on entry
to `P_ARM_IEN` (R141). `P_ABORT`, which an illegal request comes through too (R101, R213), hands over a
frame of fillers whatever the operation. `P_DONE` reads the registers of the fields its operation fills
(R96). -/
def Work.holds (c : Cfg) (x : Work) : Phase → Bool
  | .ready => true
  | .wr => x.op.isSome && x.a.isSome && x.v.isSome
  | .rd => x.op.isSome && x.a.isSome
  | .rmwRd => x.op.isSome && x.a.isSome
  | .rmwWr => x.op.isSome && x.a.isSome && x.v.isSome && x.tmp.isSome
  | .rqFrame => x.op.isSome && x.v.isSome && x.cmd.isSome
  | .armIen => x.op.isSome && x.cmd.isSome && x.irqEn.isSome
  | .armIrqRd => x.op.isSome
  | .armIrqWr => x.op.isSome && x.tmp.isSome
  | .armFlushRd => x.op.isSome
  | .armFlushWr => x.op.isSome && x.tmp.isSome
  | .forceIdle => x.op.isSome && x.plen.isSome
  | .load =>
    x.op.isSome && x.payload.isSome && x.plen.isSome && x.pidx.isSome &&
      decide ((reg x.pidx).toNat < (reg x.payload).length)
  | .execute => x.op.isSome && x.cmd.isSome
  | .startRd => x.op.isSome
  | .startWr => x.op.isSome && x.tmp.isSome
  | .poll => x.op.isSome && x.waitIrq.isSome && x.rem.isSome
  | .stopRd => x.op.isSome
  | .stopWr => x.op.isSome && x.tmp.isSome && x.rem.isSome
  | .errRd => x.op.isSome && x.cmd.isSome && x.irqVal.isSome && x.irqEn.isSome
  | .lvlRd => x.op.isSome
  | .ctrlRd => x.op.isSome && x.n.isSome
  | .drain =>
    x.op.isSome && x.nc.isSome && x.didx.isSome &&
      decide ((reg x.didx).toNat ≤ x.resp.length) && (reg x.didx).ult c.maxLen
  | .rqCheck => x.op.isSome && x.status.isSome && x.bitLen.isSome
  | .openBus => x.op.isSome && x.capAddr.isSome && x.capSpeed.isSome
  | .relWr => x.op.isSome
  | .closeBus => x.op.isSome && x.res.isSome
  | .done =>
    x.op.isSome && x.res.isSome && (!returnsVal x.op || x.val.isSome) &&
      (!returnsTriple x.op || x.status.isSome && x.bitLen.isSome && x.rlen.isSome &&
        decide ((reg x.rlen).toNat ≤ x.resp.length))
  | .abort => x.res.isSome && x.short.isSome

/-- A register write of the byte `d` to the register address `a`, a `u8` of which only `addr[5:0]`
reaches the bus (R62, R90). -/
def writeFrame (a d : Byte) : Frame := .write (a.setWidth 6) d

/-- A register read of the register address `a` (R62, R91). -/
def readFrame (a : Byte) : Frame := .read (a.setWidth 6)

/-- The byte a SETBITS or CLRBITS writes back (R122, R123). -/
def rmwByte (op : Option Op) (old mask : Byte) : Byte :=
  if op = some .clrbits then old &&& ~~~mask else old ||| mask

/-- The transfer a phase issues (R25, R156); `none` for a phase that issues none. -/
def frameOf (c : Cfg) (x : Work) : Phase → Option Frame
  | .ready => none
  | .wr => some (writeFrame (reg x.a) (reg x.v))
  | .rd => some (readFrame (reg x.a))
  | .rmwRd => some (readFrame (reg x.a))
  | .rmwWr => some (writeFrame (reg x.a) (rmwByte x.op (reg x.tmp) (reg x.v)))
  | .rqFrame => some (writeFrame c.regBitFraming 0x07#8)
  | .armIen => some (writeFrame c.regComIen (reg x.irqEn ||| 0x80#8))
  | .armIrqRd => some (readFrame c.regComIrq)
  | .armIrqWr => some (writeFrame c.regComIrq (reg x.tmp &&& ~~~0x80#8))
  | .armFlushRd => some (readFrame c.regFifoLevel)
  | .armFlushWr => some (writeFrame c.regFifoLevel (reg x.tmp ||| 0x80#8))
  | .forceIdle => some (writeFrame c.regCommand c.cmdIdle)
  | .load => some (writeFrame c.regFifoData x.payloadByte)
  | .execute => some (writeFrame c.regCommand (reg x.cmd))
  | .startRd => some (readFrame c.regBitFraming)
  | .startWr => some (writeFrame c.regBitFraming (reg x.tmp ||| 0x80#8))
  | .poll => some (readFrame c.regComIrq)
  | .stopRd => some (readFrame c.regBitFraming)
  | .stopWr => some (writeFrame c.regBitFraming (reg x.tmp &&& ~~~0x80#8))
  | .errRd => some (readFrame c.regError)
  | .lvlRd => some (readFrame c.regFifoLevel)
  | .ctrlRd => some (readFrame c.regControl)
  | .drain => some (readFrame c.regFifoData)
  | .rqCheck => none
  | .openBus => none
  | .relWr => some .release
  | .closeBus => none
  | .done => none
  | .abort => none

/-- The frame the state's phase issues next (R25). -/
def State.frameDue (s : State) : Option Frame := frameOf s.cfg s.x s.pc

/-- The bytes of a frame, byte 0 sent first (R90, R91, R92). -/
def Frame.bytes (c : Cfg) : Frame → List Byte
  | .write a d => [encAddr (a.setWidth 8), d]
  | .read a => [encAddr (a.setWidth 8) ||| c.rdFlag, 0x00#8]
  | .release => [0x00#8]

/-- The instruction a frame is (the table's last three rows). -/
def Frame.instr : Frame → Instr
  | .write a d => .spi2w a d
  | .read a => .spi2r a
  | .release => .spi1

/-- The value a read's answer carries: echo byte 1, where the echo has at least two bytes (R65, R74). -/
def readValue : Answer → Option Byte
  | .ok (_ :: v :: _) => some v
  | _ => none

/-- The answer is an echo shorter than two bytes (R74). -/
def shortEcho : Answer → Bool
  | .ok bytes => decide (bytes.length < 2)
  | .fail => false

/-- The rows marked T in R156 and SETBITS' and CLRBITS' read (R124): a failed read is tolerated. -/
def Phase.tolerant : Phase → Bool
  | .rmwRd | .armIrqRd | .armFlushRd | .startRd | .stopRd => true
  | _ => false

end Sys2Proof.Machine
end

