-- ==== Sys2Proof/Machine/Ops.lean ====
section
/-!
DEFINITION. The operations the meanings share: a transport call, a draw, accepting an operation,
ending one, `raise E` (the block's trap entry, R213) and handing the result over (its return, R26,
R214).
-/
namespace Sys2Proof.Machine

/-! ### The environment -/

/-- One transport call (R60): its answer, and the state with the call and its answer in the trace;
`none` where it is never answered (R215). Nothing is recorded of a call before its answer: "a transfer
is either not yet issued or already answered" (R41). -/
def State.call (s : State) (c : Call) : Option (Answer × State) :=
  match s.env.answer s.draws c with
  | none => none
  | some (ans, env, draws) =>
    some (ans, { s with env := env, draws := draws, calls := s.calls ++ [(c, ans)] })

/-- One transport call and what follows its answer; a call that is not answered leaves the sequencer
waiting where it is (R75, R215, U7). -/
def State.calling (s : State) (c : Call) (k : Answer → State → State) : State :=
  match s.call c with
  | none => s
  | some (ans, t) => k ans t

/-- `draw_u8()`: a free byte (spec/00_scope.md section 6; log 5). -/
def State.drawn (s : State) : Byte := Config.freeByte s.draws

/-- The state after a draw. -/
def State.afterDraw (s : State) : State := { s with draws := s.draws + 1 }

/-! ### Registers -/

/-- Set the phase register. -/
def State.goto (s : State) (p : Phase) : State := { s with pc := p }

/-- Write working registers. -/
def State.setX (s : State) (x : Work) : State := { s with x := x }

/-- `advise()`: set the advisory flag and go on (R29, R210). -/
def State.advise (s : State) : State := { s with adv := true }

/-! ### The life of an operation -/

/-- Accepting an operation in `P_READY`: the advisory flag is cleared (R29), every working register
but `x[op]` holds no value (R23). -/
def State.beginOp (s : State) (op : Option Op) : State :=
  { s with adv := false, x := { Work.blank with op := op } }

/-- The operation has run to its end with the result `r`: what remains is to hand it over. -/
def State.finish (s : State) (r : Res) : State :=
  { s with pc := .done, x := { s.x with res := some r } }

/-- `raise E` (R213): the operation ends at once; `pc <- P_ABORT`, `x[open]` unchanged, no further
transfer. -/
def State.raise (s : State) (e : Res) (short : Bool) : State :=
  { s with pc := .abort, x := { s.x with res := some e, short := some short } }

/-- The response frame of an operation that ran to its end (R96): a field that the operation fills has
its register's value, which `Work.holds` has seen to be there; any other field has the filler. -/
def State.resultFrame (s : State) : List Byte :=
  let res := s.x.res.getD .success
  let val := if returnsVal s.x.op then reg s.x.val else 0#8
  if returnsTriple s.x.op then
    rspFrame res (flagsByte s.adv false) (statusCode s.x.status) (reg s.x.bitLen) val (reg s.x.rlen)
      (s.x.resp.take (reg s.x.rlen).toNat)
  else rspFrame res (flagsByte s.adv false) (statusCode none) 0#32 val 0#8 []

/-- The response frame of an aborted operation (R213): `STATUS = 0xFF`, bit length 0, `VAL = 0`,
`RLEN = 0`; bytes already drained are discarded (R155). -/
def State.errorFrame (s : State) : List Byte :=
  rspFrame (s.x.res.getD .success) (flagsByte s.adv (s.x.short.getD false)) (statusCode none)
    0#32 0#8 0#8 []

/-- Handing a response frame over: `pc <- P_READY`, every working register again holds no value (R26,
R213), and the advisory flag, which belongs to the operation, is cleared (R23; log 9). -/
def State.handOver (s : State) (frame : List Byte) : State :=
  { s with pc := .ready, adv := false, x := Work.blank, rspOut := s.rspOut ++ [frame] }

/-! ### Acceptance -/

/-- A host operation is accepted only in `P_READY` (R26, R80, R216). -/
def State.accepting (s : State) (op : Op) (go : State → Outcome) : Outcome :=
  if s.pc = .ready then go (s.beginOp (some op)) else .fault .requestWhileBusy

/-- The common precondition of the operations that need an open bus (R125). -/
def State.needBus (s : State) (go : State → State) : State :=
  if s.opened then go s else s.raise .notCaptured false

end Sys2Proof.Machine
end

