-- ==== Sys2Proof/Machine/Phases.lean ====
section
/-!
DEFINITION. What a phase does with its answer and which phase is next: the transition table of R156,
with the phases of the other operations (R25). The pseudocode of R140, R180, R190 and R191 gives the
same sequence.
-/
namespace Sys2Proof.Machine

/-! ### Shared pieces of the engine -/

/-- Entry to `P_ARM_IEN`: the command's class selects the two masks (R98, R141). -/
def State.enterArm (s : State) : State :=
  { s with
    pc := .armIen
    x := { s.x with irqEn := some (irqEnOf s.cfg (reg s.x.cmd)),
                    waitIrq := some (waitIrqOf s.cfg (reg s.x.cmd)) } }

/-- Entry to `P_RQ_FRAME`: REQMODE's command and its payload, the mode byte (R24, R180; log 22). -/
def State.enterRqFrame (s : State) : State :=
  { s with
    pc := .rqFrame
    x := { s.x with cmd := some s.cfg.cmdTransceive, payload := some [reg s.x.v],
                    plen := some 1#8 } }

/-- Entry to `P_POLL`: the poll counter is loaded (R24, and R140, which R156 has govern; log 12). -/
def State.enterPoll (s : State) : State :=
  { s with pc := .poll, x := { s.x with rem := some s.cfg.pollBudget } }

/-- The engine has its triple: EXEC hands it over, REQMODE checks it first (R140, R180). -/
def State.engineEnd (s : State) : State :=
  if s.x.op = some .reqmode then s.goto .rqCheck else s.finish .success

/-- `Fail()` (R154): timeout (R147) and chip error (R148). -/
def State.engineFail (s : State) : State :=
  (s.setX { s.x with status := some .genericError, rlen := some 0#8,
                     bitLen := some bitLengthFailed }).engineEnd

/-- `P_POLL` with the byte read (R145): read, test, then decrement and test. -/
def State.polled (s : State) (e : Byte) : State :=
  if termBit e (reg s.x.waitIrq) then (s.setX { s.x with irqVal := some e }).goto .stopRd
  else
    let rem := reg s.x.rem - 1#16
    (s.setX { s.x with irqVal := some e, rem := some rem }).goto
      (if rem = 0#16 then .stopRd else .poll)

/-- `P_ERR_RD` with the byte read (R148, R149, R153). -/
def State.errorRead (s : State) (e : Byte) : State :=
  let s := s.setX { s.x with errVal := some e }
  if chipError e then s.engineFail
  else
    let status := resolvedStatus s.cfg (reg s.x.irqVal) (reg s.x.irqEn)
    if isTrx s.cfg (reg s.x.cmd) then (s.setX { s.x with status := some status }).goto .lvlRd
    else
      (s.setX { s.x with status := some status, rlen := some 0#8, bitLen := some 0#32 }).engineEnd

/-- `P_CTRL_RD` with the byte read: the response framer (R150, R151). -/
def State.controlRead (s : State) (e : Byte) : State :=
  (s.setX { s.x with
    lastBits := some (lastBitsOf e)
    bitLen := some (bitLength (reg s.x.n) (lastBitsOf e))
    nc := some (drainCount s.cfg (reg s.x.n))
    didx := some 0#8
    rlen := some 0#8 }).goto .drain

/-- A byte of `x[resp]` written: the next free cell, or one already written (R64, R152). -/
def storeAt (resp : List Byte) (i : Nat) (e : Byte) : List Byte :=
  resp.take i ++ e :: resp.drop (i + 1)

/-- `P_DRAIN` with the byte read (R152). -/
def State.drained (s : State) (e : Byte) : State :=
  let didx := reg s.x.didx + 1#8
  let s := s.setX { s.x with
    resp := storeAt s.x.resp (reg s.x.didx).toNat e
    didx := some didx
    rlen := some didx }
  if didx.ult (reg s.x.nc) then s.goto .drain else s.engineEnd

/-! ### After a transfer -/

/-- A write phase whose transfer answered `Ok` (R156; R120 for WRREG, R122 and R123 for SETBITS and
CLRBITS, R180 for REQMODE's first write). -/
def State.afterWrite (s : State) : State :=
  match s.pc with
  | .wr => s.finish .success
  | .rmwWr => s.finish .success
  | .rqFrame => s.enterArm
  | .armIen => s.goto .armIrqRd
  | .armIrqWr => s.goto .armFlushRd
  | .armFlushWr => s.goto .forceIdle
  | .forceIdle =>
    (s.setX { s.x with pidx := some 0#8 }).goto (if reg s.x.plen = 0#8 then .execute else .load)
  | .load =>
    let pidx := reg s.x.pidx + 1#8
    (s.setX { s.x with pidx := some pidx }).goto
      (if pidx.ult (reg s.x.plen) then .load else .execute)
  | .execute => if isTrx s.cfg (reg s.x.cmd) then s.goto .startRd else s.enterPoll
  | .startWr => s.enterPoll
  | .stopWr => if reg s.x.rem = 0#16 then s.engineFail else s.goto .errRd
  | _ => s

/-- A read phase that has its byte `e` (R156; R121 for RDREG, R122 and R123 for SETBITS and
CLRBITS). -/
def State.afterRead (s : State) (e : Byte) : State :=
  match s.pc with
  | .rd => (s.setX { s.x with val := some e }).finish .success
  | .rmwRd => (s.setX { s.x with tmp := some e }).goto .rmwWr
  | .armIrqRd => (s.setX { s.x with tmp := some e }).goto .armIrqWr
  | .armFlushRd => (s.setX { s.x with tmp := some e }).goto .armFlushWr
  | .startRd => (s.setX { s.x with tmp := some e }).goto .startWr
  | .stopRd => (s.setX { s.x with tmp := some e }).goto .stopWr
  | .poll => s.polled e
  | .errRd => s.errorRead e
  | .lvlRd => (s.setX { s.x with n := some e }).goto .ctrlRd
  | .ctrlRd => s.controlRead e
  | .drain => s.drained e
  | _ => s

/-- The answer of a write transfer: the echo is never inspected (R72, R120). -/
def State.writeAnswered (ans : Answer) (s : State) : State :=
  match ans with
  | .ok _ => s.afterWrite
  | .fail => s.raise .transportError false

/-- The answer of a read transfer: a value; or, in a tolerant phase, the advisory and a draw (R124);
or `TransportError` (R121, R155). -/
def State.readAnswered (ans : Answer) (s : State) : State :=
  match readValue ans with
  | some e => s.afterRead e
  | none =>
    if s.pc.tolerant then s.advise.afterDraw.afterRead s.drawn
    else s.raise .transportError (shortEcho ans)

/-- The answer of the release transfer: the close follows whether or not it failed (R191). -/
def State.releaseAnswered (ans : Answer) (s : State) : State :=
  (s.setX { s.x with
    res := some (if ans = .fail then .transportError else .success) }).goto .closeBus

/-! ### The phases that issue no transfer -/

/-- `P_OPEN` with the open call's answer (R190). -/
def State.openAnswered (ans : Answer) (s : State) : State :=
  match ans with
  | .fail => s.raise .transportError false
  | .ok _ =>
    State.finish { s with opened := true, speed := reg s.x.capSpeed, busaddr := reg s.x.capAddr }
      .success

/-- `P_CLOSE` with the close call's answer: the bus is closed in every case (R191). -/
def State.closeAnswered (ans : Answer) (s : State) : State :=
  State.finish { s with opened := false }
    (if ans = .fail then .transportError else s.x.res.getD .success)

/-- `P_RQ_CHECK` (R181): status `Ok` and bit length 16, or no tag. -/
def State.requestChecked (s : State) : State :=
  if s.x.status = some .ok ∧ s.x.bitLen = some 16#32 then
    (s.setX { s.x with val := some 16#8 }).finish .success
  else (s.setX { s.x with val := some 0#8 }).finish .noTagDetected

end Sys2Proof.Machine
end

