-- ==== Sys2Proof/Machine/Wire.lean ====
section
/-!
DEFINITION. The three wire frames (R90, R91, R92) as instructions: the transfer a phase issues, and
what the phase does with its answer. The phase register is their program counter (R25).
-/
namespace Sys2Proof.Machine

/-- The transfer of a frame, where its registers hold their values and the bus is open (R23, R61). -/
def State.issue (s : State) (f : Frame) (k : Answer → State → State) : Outcome :=
  if s.x.holds s.cfg s.pc = false then .fault (.unwritten s.pc)
  else if s.opened = false then .fault .busClosed
  else .next (s.calling (.xfer (f.bytes s.cfg)) k)

/-- A frame as an instruction: it runs where the present phase issues it (R25, R194). -/
def State.issuing (s : State) (f : Frame) (k : Answer → State → State) : Outcome :=
  if s.frameDue ≠ some f then .fault .frameNotDue else s.issue f k

/-- SPI2W: `MemWrite` (R90, R120). -/
def execSpi2w (a : BitVec 6) (d : Byte) (s : State) : Outcome :=
  s.issuing (.write a d) State.writeAnswered

/-- SPI2R: `MemRead` and the tolerant read (R91, R121, R124). -/
def execSpi2r (a : BitVec 6) (s : State) : Outcome :=
  s.issuing (.read a) State.readAnswered

/-- SPI1: the release byte (R92, R191). -/
def execSpi1 (s : State) : Outcome :=
  s.issuing .release State.releaseAnswered

end Sys2Proof.Machine
end

