-- ==== Sys2Proof/Machine/Run.lean ====
section
/-!
DEFINITION. One phase of the FSM, and an operation's run to its result (R11, R26): phase after phase
until the sequencer is in `P_READY` again.
-/
namespace Sys2Proof.Machine

/-- A phase that issues no transfer runs where the registers it reads hold their values (R23). -/
def State.phase (s : State) (go : State → State) : Outcome :=
  if s.x.holds s.cfg s.pc = false then .fault (.unwritten s.pc) else .next (go s)

/-- The phases that issue no transfer (R25). -/
def State.innerPhase (s : State) : Outcome :=
  match s.pc with
  | .openBus =>
    s.phase fun s =>
      s.calling (.openBus (reg s.x.capAddr) (reg s.x.capSpeed)) State.openAnswered
  | .closeBus => s.phase fun s => s.calling .closeBus State.closeAnswered
  | .rqCheck => s.phase State.requestChecked
  | .done => s.phase fun s => s.handOver s.resultFrame
  | .abort => s.phase fun s => s.handOver s.errorFrame
  | _ => .next s

/-- One phase: the frame the phase register names, as its instruction runs it, or a phase that issues
none (R25, R26). -/
def State.tick (s : State) : Outcome :=
  match s.frameDue with
  | some (.write a d) => s.issue (.write a d) State.writeAnswered
  | some (.read a) => s.issue (.read a) State.readAnswered
  | some .release => s.issue .release State.releaseAnswered
  | none => s.innerPhase

/-- At most `n` phases, ending where the sequencer is ready or a phase stops. -/
def runFor : Nat → State → Outcome
  | 0, s => .next s
  | n + 1, s =>
    if s.pc = .ready then .next s
    else match s.tick with
      | .next t => runFor n t
      | .fault f => .fault f
      | .refused r => .refused r

/-- A bound on the phases of an operation: R157's largest transfer count with its payload and drain
bounds, REQMODE's write and check, the hand-over, and one to spare (R180, R215). -/
def phaseBound (c : Cfg) : Nat := 14 + payloadMax + c.pollBudget.toNat + c.maxLen.toNat + 4

/-- "the sequencer runs it to completion" (R11). Where a transport call is never answered the run
ends in the waiting phase (R215). -/
def State.runOp (s : State) : Outcome := runFor (phaseBound s.cfg) s

end Sys2Proof.Machine
end

