-- ==== Sys2Proof/Machine/Engine.lean ====
section
/-!
DEFINITION. The command execution engine (spec/41_command_engine.md).
-/
namespace Sys2Proof.Machine

/-- EXEC (R140): `B -> x[cmd]`, `LEN -> x[plen]`, the payload copied (R79, R95), first phase
`P_ARM_IEN`. -/
def execExec (cmd : Byte) (payload : List Byte) (s : State) : Outcome :=
  s.accepting .exec fun s =>
    (s.needBus fun s =>
      (s.setX { s.x with
        cmd := some cmd
        payload := some payload
        plen := some (BitVec.ofNat 8 payload.length) }).enterArm).runOp

end Sys2Proof.Machine
end

