-- ==== Sys2Proof/Machine/Protocol.lean ====
section
/-!
DEFINITION. The protocol operations (spec/42_protocol_ops.md).
-/
namespace Sys2Proof.Machine

/-- REQMODE (R180): `B -> x[v]` (R95, spec/90_conflicts.md C14), first phase `P_RQ_FRAME`, on whose
entry the engine's operands are loaded (R24). -/
def execReqmode (mode : Byte) (s : State) : Outcome :=
  s.accepting .reqmode fun s =>
    (s.needBus fun s => (s.setX { s.x with v := some mode }).enterRqFrame).runOp

/-- RDANTICOLL (R183): "`RES = NotImplemented` at once, in every state". -/
def execRdanticoll (s : State) : Outcome :=
  s.accepting .rdanticoll fun s => (s.raise .notImplemented false).runOp

end Sys2Proof.Machine
end

