-- ==== Sys2Proof/Machine/RegAccess.lean ====
section
/-!
DEFINITION. The register access operations (spec/40_register_access.md).
-/
namespace Sys2Proof.Machine

/-- WRREG (R120): `A -> x[a]`, `B -> x[v]` (R95), first phase `P_WR`. -/
def execWrreg (addr value : Byte) (s : State) : Outcome :=
  s.accepting .wrreg fun s =>
    (s.needBus fun s => (s.setX { s.x with a := some addr, v := some value }).goto .wr).runOp

/-- RDREG (R121): `A -> x[a]` (R95), first phase `P_RD`. -/
def execRdreg (addr : Byte) (s : State) : Outcome :=
  s.accepting .rdreg fun s =>
    (s.needBus fun s => (s.setX { s.x with a := some addr }).goto .rd).runOp

/-- SETBITS (R122): `A -> x[a]`, `B -> x[v]` (R95), first phase `P_RMW_RD`. -/
def execSetbits (addr mask : Byte) (s : State) : Outcome :=
  s.accepting .setbits fun s =>
    (s.needBus fun s => (s.setX { s.x with a := some addr, v := some mask }).goto .rmwRd).runOp

/-- CLRBITS (R123): `A -> x[a]`, `B -> x[v]` (R95), first phase `P_RMW_RD`. -/
def execClrbits (addr mask : Byte) (s : State) : Outcome :=
  s.accepting .clrbits fun s =>
    (s.needBus fun s => (s.setX { s.x with a := some addr, v := some mask }).goto .rmwRd).runOp

end Sys2Proof.Machine
end

