-- ==== Sys2Proof/Machine/Session.lean ====
section
/-!
DEFINITION. The session operations (spec/43_session_ops.md).
-/
namespace Sys2Proof.Machine

/-- CAPTURE (R190): refused where a bus is open, else first phase `P_OPEN`; its operands wait in the
model's own registers for the open call (log 3). -/
def execCapture (speed : Word) (address : List Byte) (s : State) : Outcome :=
  s.accepting .capture fun s =>
    State.runOp <|
      if s.opened then s.raise .alreadyCaptured false
      else (s.setX { s.x with capSpeed := some speed, capAddr := some address }).goto .openBus

/-- RELEASE (R191): first phase `P_REL_WR`. -/
def execRelease (s : State) : Outcome :=
  s.accepting .release fun s => (s.needBus fun s => s.goto .relWr).runOp

/-- SCAN (R192): "answers `RES = NotImplemented` in every state". -/
def execScan (s : State) : Outcome :=
  s.accepting .scan fun s => (s.raise .notImplemented false).runOp

/-- FLASH (R193): "accepts the frame, ignores the data, and answers `RES = NotImplemented`". -/
def execFlash (_data : List Byte) (s : State) : Outcome :=
  s.accepting .flash fun s => (s.raise .notImplemented false).runOp

end Sys2Proof.Machine
end

