-- ==== Sys2Proof/Machine/Dispatch.lean ====
section
/-!
DEFINITION. One arm per instruction.
-/
namespace Sys2Proof.Machine

def exec (i : Instr) (s : State) : Host.Outcome State Fault Refusal :=
  match i with
  | .capture speed address => Sys2Proof.Machine.execCapture speed address s
  | .release => Sys2Proof.Machine.execRelease s
  | .scan => Sys2Proof.Machine.execScan s
  | .flash data => Sys2Proof.Machine.execFlash data s
  | .wrreg addr value => Sys2Proof.Machine.execWrreg addr value s
  | .rdreg addr => Sys2Proof.Machine.execRdreg addr s
  | .setbits addr mask => Sys2Proof.Machine.execSetbits addr mask s
  | .clrbits addr mask => Sys2Proof.Machine.execClrbits addr mask s
  | .exec cmd payload => Sys2Proof.Machine.execExec cmd payload s
  | .reqmode mode => Sys2Proof.Machine.execReqmode mode s
  | .rdanticoll => Sys2Proof.Machine.execRdanticoll s
  | .spi2w a d => Sys2Proof.Machine.execSpi2w a d s
  | .spi2r a => Sys2Proof.Machine.execSpi2r a s
  | .spi1 => Sys2Proof.Machine.execSpi1 s

end Sys2Proof.Machine
end

