-- ==== Sys2Proof/Machine/Port.lean ====
section
/-!
DEFINITION. The host's side: taking a request frame from the request port (R94), answering an illegal
one (R101), placing a frame where the next step runs it, and a reset during a run (R240).
-/
namespace Sys2Proof.Machine

/-- The first whole request frame at the port and the bytes after it; `none` while it is not all
there. "The sequencer tells the length of a request from `LEN` alone: total length is `4 + LEN`
bytes" (R94). -/
def takeFrame : List Byte → Option (List Byte × List Byte)
  | op :: a :: b :: len :: tl =>
    if tl.length < len.toNat then none
    else some (op :: a :: b :: len :: tl.take len.toNat, tl.drop len.toNat)
  | _ => none

/-- The state with the request port's bytes after a frame has been taken. -/
def State.setPort (s : State) (rest : List Byte) : State := { s with reqIn := rest }

/-- An illegal request: "issues no transfer, changes no state, and answers `RES = BadRequest`" (R101). -/
def State.badRequest (s : State) : Outcome := ((s.beginOp none).raise .badRequest false).runOp

/-- A machine about to issue a wire frame: in the first phase of the operation whose only frame it
is, with that operation's registers loaded and the bus open (R25). -/
def State.placeFrame (s : State) (i : Instr) : State :=
  match i with
  | .spi2w a d =>
    { s with pc := .wr, opened := true,
             x := { Work.blank with op := some .wrreg, a := some (a.setWidth 8), v := some d } }
  | .spi2r a =>
    { s with pc := .rd, opened := true,
             x := { Work.blank with op := some .rdreg, a := some (a.setWidth 8) } }
  | .spi1 =>
    { s with pc := .relWr, opened := true, x := { Work.blank with op := some .release } }
  | _ => s

/-- A reset of a machine in any state (R42, R240): no result, no clean-up, no transport call. CFG keeps
its value; what the environment and the host hold is theirs (log 10). -/
def State.resetPulse (s : State) : State :=
  { State.reset with
    cfg := s.cfg, env := s.env, draws := s.draws, reqIn := s.reqIn, rspOut := s.rspOut }

end Sys2Proof.Machine
end

