-- ==== Sys2Proof/Machine/Step.lean ====
section
/-!
DEFINITION. One step: in `P_READY`, the operation at the request port, run to its result (R11, R26);
in any other phase, that one phase (R25). A request that is not all there is waited for.
-/
namespace Sys2Proof.Machine

def step (s : State) : Host.Outcome State Fault Refusal :=
  if s.cfg.wf = false then .refused .illFormedConfig
  else if s.pc = .ready then
    match takeFrame s.reqIn with
    | none => .next s
    | some (frame, rest) =>
      match decode .request frame with
      | .ok i => exec i (s.setPort rest)
      | .error _ => (s.setPort rest).badRequest
  else s.tick

/-- The state in which the next step runs the table word `w`: a request at the port of a ready
sequencer, or a wire frame due in the present phase (log 11). -/
def State.withFetchWord (s : State) (nbits w : Nat) : State :=
  match tablePort nbits with
  | .request => { s with pc := .ready, reqIn := tableBytes nbits w }
  | .wire =>
    match decodeWire (tableBytes nbits w) with
    | .ok i => s.placeFrame i
    | .error _ => s

end Sys2Proof.Machine
end

