-- ==== Sys2Proof/Machine/Pseudocode.lean ====
section
/-!
DEFINITION. The pseudocode of R120 to R124, R140 and R180, written out as straight-line programs with
local variables in place of the working registers and the phase register. No step uses it: it is the
other reading of the engine, which the FSM is stated to agree with (R156: "the table and the
pseudocode of rule R140 say the same thing").
-/
namespace Sys2Proof.Machine.Pseudocode

/-- How a program ends: with a value, or raising `TransportError`, with the short-echo mark (R201). -/
inductive End (α : Type) where
  | value (v : α)
  | transportError (short : Bool)
  deriving DecidableEq, Repr

/-- A program over the environment, the trace and the advisory flag, which it finds in the state; every
call is taken to be answered (R215). -/
abbrev Program (α : Type) := State → End α × State

/-- One program after another: an error ends the whole (R213). -/
def Program.bind {α β : Type} (p : Program α) (q : α → Program β) : Program β := fun s =>
  match p s with
  | (.value v, t) => q v t
  | (.transportError short, t) => (.transportError short, t)

/-- `return`. -/
def Program.pure {α : Type} (v : α) : Program α := fun s => (.value v, s)

/-- `Xfer(out)`. -/
def xfer (out : List Byte) : Program Answer := fun s =>
  match s.call (.xfer out) with
  | some (ans, t) => (.value ans, t)
  | none => (.value .fail, s)

/-- `MemWrite(a, 1, v)` (R120). -/
def memWrite (a v : Byte) : Program Unit :=
  (xfer [encAddr a, v]).bind fun ans s =>
    match ans with
    | .ok _ => (.value (), s)
    | .fail => (.transportError false, s)

/-- `MemRead(a, 1)` (R121). -/
def memRead (c : Cfg) (a : Byte) : Program Byte :=
  (xfer [encAddr a ||| c.rdFlag, 0x00#8]).bind fun ans s =>
    match readValue ans with
    | some e => (.value e, s)
    | none => (.transportError (shortEcho ans), s)

/-- `TolerantRead(a)` (R124). -/
def tolerantRead (c : Cfg) (a : Byte) : Program Byte :=
  (xfer [encAddr a ||| c.rdFlag, 0x00#8]).bind fun ans s =>
    match readValue ans with
    | some e => (.value e, s)
    | none => (.value s.drawn, s.advise.afterDraw)

/-- `RmwSet(a, m)` (R122). -/
def rmwSet (c : Cfg) (a m : Byte) : Program Unit :=
  (tolerantRead c a).bind fun old => memWrite a (old ||| m)

/-- `RmwClr(a, m)` (R123). -/
def rmwClr (c : Cfg) (a m : Byte) : Program Unit :=
  (tolerantRead c a).bind fun old => memWrite a (old &&& ~~~m)

/-- Step 3, load: every payload byte, in order (R143). -/
def load (c : Cfg) : List Byte → Program Unit
  | [] => Program.pure ()
  | b :: bs => (memWrite c.regFifoData b).bind fun _ => load c bs

/-- Step 5, poll, with `n` iterations remaining: the last byte read where a termination bit was seen,
`none` where the budget ran out (R145). -/
def poll (c : Cfg) (waitIrq : Byte) : Nat → Program (Option Byte)
  | 0 => Program.pure none
  | n + 1 =>
    (memRead c c.regComIrq).bind fun irqVal =>
      if termBit irqVal waitIrq then Program.pure (some irqVal) else poll c waitIrq n

/-- The drain of `n` bytes (R152). -/
def drain (c : Cfg) : Nat → Program (List Byte)
  | 0 => Program.pure []
  | n + 1 =>
    (memRead c c.regFifoData).bind fun e =>
      (drain c n).bind fun es => Program.pure (e :: es)

/-- What EXEC returns: status, bit length and response bytes (R140). -/
structure Triple where
  status : Status
  bitLen : Word
  data   : List Byte
  deriving DecidableEq, Repr

/-- `Fail()` (R154). -/
def failed : Triple := ⟨.genericError, 0xFFFFFFFF#32, []⟩

/-- Step 6, resolve, of a command that did not time out (R148 to R153). -/
def resolve (c : Cfg) (cmd irqVal : Byte) : Program Triple :=
  (memRead c c.regError).bind fun errVal =>
    if errVal &&& 0x1B#8 ≠ 0#8 then Program.pure failed
    else if cmd = c.cmdTransceive then
      (memRead c c.regFifoLevel).bind fun n =>
        (memRead c c.regControl).bind fun control =>
          (drain c (min (max n.toNat 1) c.maxLen.toNat)).bind fun data =>
            Program.pure
              ⟨resolvedStatus c irqVal (irqEnOf c cmd), bitLength n (lastBitsOf control), data⟩
    else Program.pure ⟨resolvedStatus c irqVal (irqEnOf c cmd), 0#32, []⟩

/-- EXEC's engine (R140): arm, idle, load, execute, poll, stop, resolve. -/
def engine (c : Cfg) (cmd : Byte) (payload : List Byte) : Program Triple :=
  (memWrite c.regComIen (irqEnOf c cmd ||| 0x80#8)).bind fun _ =>
  (rmwClr c c.regComIrq 0x80#8).bind fun _ =>
  (rmwSet c c.regFifoLevel 0x80#8).bind fun _ =>
  (memWrite c.regCommand c.cmdIdle).bind fun _ =>
  (load c payload).bind fun _ =>
  (memWrite c.regCommand cmd).bind fun _ =>
  (if cmd = c.cmdTransceive then rmwSet c c.regBitFraming 0x80#8 else Program.pure ()).bind fun _ =>
  (poll c (waitIrqOf c cmd) c.pollBudget.toNat).bind fun seen =>
  (rmwClr c c.regBitFraming 0x80#8).bind fun _ =>
  match seen with
  | none => Program.pure failed
  | some irqVal => resolve c cmd irqVal

/-- REQMODE up to its check (R180): the bit-framing write, then the engine with Transceive. -/
def requestMode (c : Cfg) (mode : Byte) : Program Triple :=
  (memWrite c.regBitFraming 0x07#8).bind fun _ => engine c c.cmdTransceive [mode]

/-- The response frame of an aborted operation (R213): `TransportError`, fillers. -/
def errorRsp (adv short : Bool) : List Byte :=
  [0x01#8, flagsByte adv short, 0xFF#8, 0#8, 0#8, 0#8, 0#8, 0#8, 0#8]

/-- The response frame of EXEC and REQMODE (R96): the triple with a result code and `VAL`. -/
def tripleRsp (res : Byte) (adv : Bool) (val : Byte) (t : Triple) : List Byte :=
  [res, flagsByte adv false, statusCode (some t.status)] ++ bytesOfWord t.bitLen ++
    [val, BitVec.ofNat 8 t.data.length] ++ t.data

/-- The frame EXEC answers with (R140). -/
def execRsp (e : End Triple) (adv : Bool) : List Byte :=
  match e with
  | .value t => tripleRsp 0x00#8 adv 0#8 t
  | .transportError short => errorRsp adv short

/-- The frame REQMODE answers with (R180, R181, R182). -/
def requestRsp (e : End Triple) (adv : Bool) : List Byte :=
  match e with
  | .value t =>
    if t.status = .ok ∧ t.bitLen = 16#32 then tripleRsp 0x00#8 adv 16#8 t
    else tripleRsp 0x06#8 adv 0#8 t
  | .transportError short => errorRsp adv short

end Sys2Proof.Machine.Pseudocode
end

