-- ==== Sys2Proof/Safety.lean ====
section
/-!
DEFINITION. What a state of the sequencer looks like in each phase (the invariant every step keeps),
and what a safe step is. The clauses follow R23, R24, R26, R27, R28, R145 and R164.
-/
namespace Sys2Proof.Machine

/-- A step that neither faults nor refuses. -/
def SafeStep (s : State) : Prop := ∃ t, step s = .next t

/-- A response frame without status, bit length and data (R96): `RES`, `FLAGS`, `VAL`. -/
def plainRsp (res flags val : Byte) : List Byte :=
  [res, flags, 0xFF#8, 0x00#8, 0x00#8, 0x00#8, 0x00#8, val, 0x00#8]

/-- The state in which an operation has ended with the response `frame` (R244): ready for the next
one, no working register holding a value, everything else as in `t`. -/
def State.ended (t : State) (frame : List Byte) : State :=
  { t with pc := .ready, adv := false, x := Work.blank, rspOut := t.rspOut ++ [frame] }

/-- The eight register addresses EXEC and REQMODE use (R40). -/
def engineCells (c : Cfg) : List Byte :=
  [c.regCommand, c.regComIen, c.regComIrq, c.regError] ++
  [c.regFifoData, c.regFifoLevel, c.regControl, c.regBitFraming]

/-- The answer of a transport that echoes two bytes (R61). -/
def echo (e : Byte × Byte) : Answer := .ok [e.1, e.2]

/-- The phase in which an operation's engine run ends (R140, R180). -/
def endPhase (op : Op) : Phase := if op = .reqmode then .rqCheck else .done

/-- The registers an EXEC or REQMODE holds from `P_ARM_IEN` on (R24, R98). -/
structure EngineRegs (c : Cfg) (x : Work) : Prop where
  op      : x.op = some .exec ∨ x.op = some .reqmode
  cmd     : x.cmd.isSome
  request : x.op = some .reqmode → x.cmd = some c.cmdTransceive
  payload : x.payload.isSome
  plen    : x.plen.isSome
  length  : (reg x.payload).length = (reg x.plen).toNat
  irqEn   : x.irqEn = some (irqEnOf c (reg x.cmd))
  waitIrq : x.waitIrq = some (waitIrqOf c (reg x.cmd))

/-- No part of a response has been written yet (R23, R28). -/
structure NoResponse (x : Work) : Prop where
  status : x.status = none
  bitLen : x.bitLen = none
  rlen   : x.rlen = none
  resp   : x.resp = []

/-- The status a command has that neither timed out nor showed an error (R149). -/
structure Resolved (c : Cfg) (x : Work) : Prop where
  status  : x.status.isSome
  notErr  : x.status ≠ some .genericError
  literal : c.noTagRule = .literal → x.status ≠ some .ok

/-- The engine's triple (R154, R164, and R149's consequence under `LITERAL`). -/
structure EngineTriple (c : Cfg) (x : Work) : Prop where
  status  : x.status.isSome
  bitLen  : x.bitLen.isSome
  rlen    : x.rlen.isSome
  bytes   : x.resp.length = (reg x.rlen).toNat
  failed  : x.status = some .genericError → x.rlen = some 0#8 ∧ x.bitLen = some bitLengthFailed
  empty   : x.status ≠ some .genericError → isTrx c (reg x.cmd) = false →
    x.rlen = some 0#8 ∧ x.bitLen = some 0#32
  drained : x.status ≠ some .genericError → isTrx c (reg x.cmd) = true →
    0 < (reg x.rlen).toNat ∧ (reg x.rlen).toNat ≤ c.maxLen.toNat
  literal : c.noTagRule = .literal → x.status ≠ some .ok

/-- What the registers hold in each phase. -/
def PhaseInv (c : Cfg) (opened : Bool) (x : Work) : Phase → Prop
  | .ready => x = Work.blank
  | .wr => opened = true ∧ x.op = some .wrreg ∧ x.a.isSome ∧ x.v.isSome ∧ NoResponse x
  | .rd => opened = true ∧ x.op = some .rdreg ∧ x.a.isSome ∧ NoResponse x
  | .rmwRd =>
    opened = true ∧ (x.op = some .setbits ∨ x.op = some .clrbits) ∧ x.a.isSome ∧ x.v.isSome ∧
      NoResponse x
  | .rmwWr =>
    opened = true ∧ (x.op = some .setbits ∨ x.op = some .clrbits) ∧ x.a.isSome ∧ x.v.isSome ∧
      x.tmp.isSome ∧ NoResponse x
  | .rqFrame =>
    opened = true ∧ x.op = some .reqmode ∧ x.v.isSome ∧ NoResponse x ∧
      x.cmd = some c.cmdTransceive ∧ x.payload = some [reg x.v] ∧ x.plen = some 1#8
  | .armIen => opened = true ∧ EngineRegs c x ∧ NoResponse x
  | .armIrqRd => opened = true ∧ EngineRegs c x ∧ NoResponse x
  | .armIrqWr => opened = true ∧ EngineRegs c x ∧ NoResponse x ∧ x.tmp.isSome
  | .armFlushRd => opened = true ∧ EngineRegs c x ∧ NoResponse x
  | .armFlushWr => opened = true ∧ EngineRegs c x ∧ NoResponse x ∧ x.tmp.isSome
  | .forceIdle => opened = true ∧ EngineRegs c x ∧ NoResponse x
  | .load =>
    opened = true ∧ EngineRegs c x ∧ NoResponse x ∧ x.pidx.isSome ∧
      (reg x.pidx).toNat < (reg x.plen).toNat
  | .execute => opened = true ∧ EngineRegs c x ∧ NoResponse x
  | .startRd => opened = true ∧ EngineRegs c x ∧ NoResponse x ∧ isTrx c (reg x.cmd) = true
  | .startWr =>
    opened = true ∧ EngineRegs c x ∧ NoResponse x ∧ isTrx c (reg x.cmd) = true ∧ x.tmp.isSome
  | .poll =>
    opened = true ∧ EngineRegs c x ∧ NoResponse x ∧ x.rem.isSome ∧
      0 < (reg x.rem).toNat ∧ (reg x.rem).toNat ≤ c.pollBudget.toNat
  | .stopRd =>
    opened = true ∧ EngineRegs c x ∧ NoResponse x ∧ x.rem.isSome ∧ x.irqVal.isSome ∧
      (reg x.rem = 0#16 ↔ termBit (reg x.irqVal) (reg x.waitIrq) = false)
  | .stopWr =>
    opened = true ∧ EngineRegs c x ∧ NoResponse x ∧ x.rem.isSome ∧ x.irqVal.isSome ∧
      (reg x.rem = 0#16 ↔ termBit (reg x.irqVal) (reg x.waitIrq) = false) ∧ x.tmp.isSome
  | .errRd =>
    opened = true ∧ EngineRegs c x ∧ NoResponse x ∧ x.irqVal.isSome ∧
      termBit (reg x.irqVal) (reg x.waitIrq) = true
  | .lvlRd =>
    opened = true ∧ EngineRegs c x ∧ isTrx c (reg x.cmd) = true ∧ Resolved c x ∧ x.resp = []
  | .ctrlRd =>
    opened = true ∧ EngineRegs c x ∧ isTrx c (reg x.cmd) = true ∧ Resolved c x ∧ x.resp = [] ∧
      x.n.isSome
  | .drain =>
    opened = true ∧ EngineRegs c x ∧ isTrx c (reg x.cmd) = true ∧ Resolved c x ∧
      x.bitLen.isSome ∧ x.n.isSome ∧ x.nc = some (drainCount c (reg x.n)) ∧ x.didx.isSome ∧
      x.rlen = x.didx ∧ x.resp.length = (reg x.didx).toNat ∧
      (reg x.didx).toNat < (reg x.nc).toNat
  | .rqCheck => opened = true ∧ x.op = some .reqmode ∧ EngineRegs c x ∧ EngineTriple c x
  | .openBus =>
    opened = false ∧ x.op = some .capture ∧ x.capAddr.isSome ∧ x.capSpeed.isSome ∧
      (reg x.capAddr).length ≤ addrMax ∧ NoResponse x
  | .relWr => opened = true ∧ x.op = some .release ∧ NoResponse x
  | .closeBus => opened = true ∧ x.op = some .release ∧ x.res.isSome ∧ NoResponse x
  | .done =>
    x.op.isSome ∧ x.res.isSome ∧ (returnsVal x.op = true → x.val.isSome) ∧
      (returnsTriple x.op = true → EngineRegs c x ∧ EngineTriple c x)
  | .abort => x.res.isSome ∧ x.short.isSome

/-- The invariant of the sequencer: CFG is legal (R9), the mock's memory is in canonical form, the
address string fits its register (R22), an idle sequencer has no advisory standing, and the registers
are as the phase has them. -/
structure Inv (s : State) : Prop where
  cfg     : s.cfg.wf = true
  cells   : Memory.wf s.env.cells = true
  busaddr : s.busaddr.length ≤ addrMax
  idle    : s.pc = .ready → s.adv = false
  phase   : PhaseInv s.cfg s.opened s.x s.pc

end Sys2Proof.Machine
end

