-- ==== Sys2Proof/Certificates/Slice0/Obligations.lean ====
section
/-!
DEFINITION. The statements for the provers. `State.ended`, `plainRsp`, `engineCells`, `echo` and `Inv`
are in Safety.lean. A statement about a next state names what changes by a record update of `s`, or of
the state `t` after a transport call, which differs from the state before it in `env`, `draws` and one
more entry of `calls` (`State.call`): everything else is unchanged.
-/

open Sys2Proof Sys2Proof.Machine

/-! ### Encodings -/

/-- Decode and encode agree, for every well-formed instruction at its port (R90 to R94, R97). -/
def Obligations.DecodeOfEncode : Prop :=
  ∀ i : Instr, i.wf = true → decode i.port (encode i) = .ok i

/-- The decoder accepts exactly the headers that a row of R97 selects (R97, R101). -/
def Obligations.LegalHeaderIffRowSelects : Prop :=
  ∀ (op a b : Byte) (payload : List Byte), payload.length ≤ payloadMax →
    ((∃ i, decode .request (requestFrame op a b payload) = .ok i) ↔
      ∃ r ∈ requestRows, r.selects (op ++ a ++ b ++ BitVec.ofNat 8 payload.length) = true)

/-- Words written out from R90 to R94, R97 and the vectors decode to what they stand for. -/
def Obligations.SpecWordsDecode : Prop :=
  decodeTableWord 32 0x10092600 = some (.wrreg 0x09#8 0x26#8) ∧
  decodeTableWord 32 0x120A8000 = some (.setbits 0x0A#8 0x80#8) ∧
  decodeTableWord 32 0x02000000 = some .release ∧
  decode .request [0x20#8, 0x00#8, 0x0C#8, 0x01#8, 0x26#8] = .ok (.exec 0x0C#8 [0x26#8]) ∧
  decode .request [0x01#8, 0x00#8, 0x00#8, 0x06#8, 0x00#8, 0x0F#8, 0x42#8, 0x40#8, 0x62#8, 0x30#8] =
    .ok (.capture 1000000#32 [0x62#8, 0x30#8]) ∧
  decodeTableWord 16 0x1226 = some (.spi2w 9#6 0x26#8) ∧
  decodeTableWord 16 0x9200 = some (.spi2r 9#6) ∧
  decodeTableWord 8 0x00 = some .spi1

/-- R93: the address byte keeps `addr[5:0]` in bits 6..1, clears bits 7 and 0, so addresses 0x40 apart
name one cell (R62); the worked values; and the data byte is sent as given. -/
def Obligations.AddressByteKeepsSixBits : Prop :=
  (∀ addr : Byte, (encAddr addr).toNat = 2 * (addr.toNat % 64) ∧ encAddr (addr + 0x40#8) = encAddr addr) ∧
  (encAddr 0x09#8 = 0x12#8 ∧ encAddr 0x3F#8 = 0x7E#8 ∧ encAddr 0x00#8 = 0x00#8 ∧
    encAddr 0x01#8 = 0x02#8 ∧ encAddr 0x40#8 = 0x00#8 ∧ encAddr 0x49#8 = 0x12#8 ∧
    encAddr 0x7F#8 = 0x7E#8 ∧ encAddr 0xFF#8 = 0x7E#8) ∧
  (∀ (c : Cfg) (a d : Byte), (writeFrame a d).bytes c = [encAddr a, d] ∧
    (readFrame a).bytes c = [encAddr a ||| c.rdFlag, 0x00#8])

/-- With the read flag of the table, the bytes of every wire frame decode to its instruction (R90, R91,
R92). -/
def Obligations.WireFrameBytesDecode : Prop :=
  ∀ (c : Cfg) (f : Frame), c.rdFlag = 0x80#8 → decode .wire (f.bytes c) = .ok f.instr

/-! ### The step and the instruction -/

/-- A step runs the decoded instruction: in `P_READY` the request at the port, in any other phase that
issues a transfer the frame of that phase (R25, R26). -/
def Obligations.StepRunsDecodedInstruction : Prop :=
  (∀ (s : State) (frame rest : List Byte) (i : Instr), s.cfg.wf = true → s.pc = .ready →
    takeFrame s.reqIn = some (frame, rest) → decode .request frame = .ok i →
    step s = exec i { s with reqIn := rest }) ∧
  (∀ (s : State) (f : Frame), s.cfg.wf = true → s.pc ≠ .ready → s.frameDue = some f →
    step s = exec f.instr s)

/-- The bytes of a well-formed request at the port of a ready sequencer are run as that instruction,
and the bytes after it stay at the port (R94). -/
def Obligations.EncodedRequestRuns : Prop :=
  ∀ (s : State) (i : Instr) (rest : List Byte), s.cfg.wf = true → s.pc = .ready → i.wf = true →
    i.port = .request → s.reqIn = encode i ++ rest → step s = exec i { s with reqIn := rest }

/-- `withFetchWord` places a table word where the next step runs it (the model's convention, log 11). -/
def Obligations.FetchWordRuns : Prop :=
  (∀ (s : State) (w : Nat) (i : Instr), s.cfg.wf = true → decodeTableWord 32 w = some i →
    step (s.withFetchWord 32 w) = exec i { s with pc := .ready, reqIn := [] }) ∧
  (∀ (s : State) (nbits w : Nat) (i : Instr), s.cfg.wf = true → nbits = 16 ∨ nbits = 8 →
    decodeTableWord nbits w = some i →
    step (s.withFetchWord nbits w) = exec i (s.withFetchWord nbits w))

/-- R101: a request that no row of R97 selects (an `OP` not of the eleven, a must-be-zero field nonzero,
`LEN` out of range) is answered `BadRequest`; nothing but the two ports changes. On the wire nothing is
refused: every address and data byte gives a legal frame. -/
def Obligations.IllegalRequestRefused : Prop :=
  (∀ (s : State) (op a b len : Byte) (tl : List Byte), Inv s → s.pc = .ready →
    s.reqIn = op :: a :: b :: len :: tl → len.toNat ≤ tl.length →
    (∀ r ∈ requestRows, r.selects (op ++ a ++ b ++ len) = false) →
    step s = .next
      { s with reqIn := tl.drop len.toNat, rspOut := s.rspOut ++ [plainRsp 0x04#8 0x00#8 0x00#8] }) ∧
  (∀ a d : Byte, decode .wire [encAddr a, d] = .ok (.spi2w (a.setWidth 6) d) ∧
    decode .wire [encAddr a ||| 0x80#8, 0x00#8] = .ok (.spi2r (a.setWidth 6)))

/-- With no whole request at its port a ready sequencer does nothing: between two operations the bus is
silent (R194). That a frame of which a part is there (fewer than `4 + LEN` bytes, R94) is waited for is
the model's choice (log 17). -/
def Obligations.SilentBetweenOperations : Prop :=
  ∀ s : State, s.cfg.wf = true → s.pc = .ready → takeFrame s.reqIn = none → step s = .next s

/-- R80, R156, R216: outside `P_READY` no request is accepted, no byte of the request port is taken and
none has an influence. That a host operation executed there ends in the fault `requestWhileBusy` is the
model's choice (log 19), after U4's treatment of re-entrant use. -/
def Obligations.BusyIgnoresRequestPort : Prop :=
  (∀ (s t : State) (bytes : List Byte), s.pc ≠ .ready → step s = .next t →
    t.reqIn = s.reqIn ∧ step { s with reqIn := bytes } = .next { t with reqIn := bytes }) ∧
  (∀ (s : State) (i : Instr), s.pc ≠ .ready → i.port = .request →
    exec i s = .fault .requestWhileBusy)

/-- R29, R210: the advisory flag never changes what is done: a phase that hands nothing over does the
same with either value of it, and an operation starts the same. -/
def Obligations.AdvisoryNeverSteers : Prop :=
  (∀ (s t : State) (b : Bool), s.pc ≠ .ready → s.pc ≠ .done → s.pc ≠ .abort → step s = .next t →
    ∃ b', step { s with adv := b } = .next { t with adv := b' }) ∧
  (∀ (s : State) (i : Instr) (b : Bool), i.port = .request → exec i { s with adv := b } = exec i s)

/-- R9: exactly the machines whose CFG is not well formed are refused. -/
def Obligations.IllFormedConfigRefused : Prop :=
  ∀ s : State, step s = .refused .illFormedConfig ↔
    ¬ ((∀ r ∈ engineCells s.cfg, r.toNat ≤ 0x3F) ∧ s.cfg.cmdAuthent ≠ s.cfg.cmdTransceive ∧
      1 ≤ s.cfg.maxLen.toNat ∧ s.cfg.maxLen.toNat ≤ 255 ∧ 1 ≤ s.cfg.pollBudget.toNat ∧
      (s.cfg.rdFlag = 0x80#8 ∨ s.cfg.rdFlag = 0x00#8))

/-- R23, R27, U9: a phase that reads a working register without a value faults, whatever the
environment. Per register, the phases of R24's column "read in phase" (and R28 for the status; the
test of `x[plen]` for 0 on the way out of `P_FORCE_IDLE` is R143's, the reading of `x[cmd]` on the way
from `P_RQ_FRAME` to `P_ARM_IEN` is R141's selection of the masks). `x[op]` is read in all phases;
`P_ABORT` is left out, which an illegal request, of no operation, comes through too (log 9). "Result" is
`P_DONE` of the operations whose response has the field (R96). The clauses on a payload byte `P_LOAD`
reads and on the response bytes `P_DONE` reads are bytes that hold no value. The clause on `P_DRAIN` is
no such read, since `P_DRAIN` writes `x[resp]`: that a write past `MAX_LEN`, or past the bytes written
so far, ends in this fault is the model's choice (log 14). -/
def Obligations.UnwrittenReadFaults : Prop :=
  ∀ s : State, s.cfg.wf = true →
    let Faults := step s = .fault (.unwritten s.pc)
    (s.x.op = none → s.pc ≠ .ready → s.pc ≠ .abort → Faults) ∧
    (s.x.a = none → s.pc ∈ [.wr, .rd, .rmwRd, .rmwWr] → Faults) ∧
    (s.x.v = none → s.pc ∈ [.wr, .rmwWr, .rqFrame] → Faults) ∧
    (s.x.tmp = none → s.pc ∈ [.rmwWr, .armIrqWr, .armFlushWr, .startWr, .stopWr] → Faults) ∧
    (s.x.cmd = none → s.pc ∈ [.rqFrame, .armIen, .execute, .errRd] → Faults) ∧
    (s.x.payload = none → s.pc = .load → Faults) ∧
    (s.x.plen = none → s.pc ∈ [.forceIdle, .load] → Faults) ∧
    (s.x.pidx = none → s.pc = .load → Faults) ∧
    (s.x.irqEn = none → s.pc ∈ [.armIen, .errRd] → Faults) ∧
    (s.x.waitIrq = none → s.pc = .poll → Faults) ∧
    (s.x.rem = none → s.pc ∈ [.poll, .stopWr] → Faults) ∧
    (s.x.irqVal = none → s.pc = .errRd → Faults) ∧
    (s.x.n = none → s.pc = .ctrlRd → Faults) ∧
    (s.x.nc = none → s.pc = .drain → Faults) ∧
    (s.x.didx = none → s.pc = .drain → Faults) ∧
    (s.x.status = none → s.pc = .rqCheck → Faults) ∧
    (s.x.bitLen = none → s.pc = .rqCheck → Faults) ∧
    (s.x.status = none ∨ s.x.bitLen = none ∨ s.x.rlen = none → s.pc = .done →
      s.x.op = some .exec ∨ s.x.op = some .reqmode → Faults) ∧
    (s.x.val = none → s.pc = .done → s.x.op = some .rdreg ∨ s.x.op = some .reqmode → Faults) ∧
    (∀ p i, s.x.payload = some p → s.x.pidx = some i → p.length ≤ i.toNat → s.pc = .load →
      Faults) ∧
    (∀ i, s.x.didx = some i → s.x.resp.length < i.toNat ∨ s.cfg.maxLen.toNat ≤ i.toNat →
      s.pc = .drain → Faults) ∧
    (∀ l, s.x.rlen = some l → s.x.resp.length < l.toNat → s.pc = .done →
      s.x.op = some .exec ∨ s.x.op = some .reqmode → Faults)

/-! ### Reset and the invariant -/

/-- R42, R240: what reset leaves: ready, Released, no advisory, no working register holding a value, an
empty trace, and CFG kept. That `State.reset` has the CFG of `Cfg.ref` is the model's choice (log 2), and
so is that a reset keeps the environment and the response port (log 10). The values of `x[speed]` and
`x[busaddr]` are the model's own (log 4) and not stated. -/
def Obligations.ResetLeavesReleased : Prop :=
  (State.reset.cfg = Cfg.ref ∧ State.reset.pc = .ready ∧ State.reset.opened = false ∧
    State.reset.adv = false ∧ State.reset.x = Work.blank ∧ State.reset.calls = []) ∧
  (∀ s : State, s.resetPulse.cfg = s.cfg ∧ s.resetPulse.pc = .ready ∧ s.resetPulse.opened = false ∧
    s.resetPulse.adv = false ∧ s.resetPulse.x = Work.blank ∧ s.resetPulse.calls = [] ∧
    s.resetPulse.env = s.env ∧ s.resetPulse.rspOut = s.rspOut)

/-- The invariant holds at reset, and after a reset during a run. -/
def Obligations.ResetMeetsInvariant : Prop :=
  Inv State.reset ∧ ∀ s : State, Inv s → Inv s.resetPulse

/-- Every step keeps the invariant: CFG legal, the mock's memory canonical, the registers as their
phase has them (R9, R22, R23, R27, R28, R145, R164). -/
def Obligations.StepKeepsInvariant : Prop :=
  ∀ s t : State, Inv s → step s = .next t → Inv t

/-- R27: from a state of the invariant no step faults or refuses; in particular no register without a
value is read, whatever the environment answers. -/
def Obligations.InvariantNeverStops : Prop :=
  ∀ s : State, Inv s → SafeStep s

/-! ### The life of an operation -/

/-- R215: every operation, on every sequence of answers, ends in exactly one result after a bounded
number of transport calls, ready for the next; a response is nine bytes and `RLEN` data bytes. A call
that is never answered leaves the sequencer waiting in its phase. -/
def Obligations.EveryOperationEnds : Prop :=
  (∀ (s : State) (i : Instr), Inv s → s.pc = .ready → s.env.fair = true → i.wf = true →
    i.port = .request →
    ∃ (t : State) (frame : List Byte) (l : List (Call × Answer)),
      exec i s = .next t ∧ t.pc = .ready ∧ t.adv = false ∧ t.x = Work.blank ∧
      t.env.fair = true ∧ t.rspOut = s.rspOut ++ [frame] ∧
      frame.length = 9 + (frame.getD 8 0x00#8).toNat ∧
      t.calls = s.calls ++ l ∧
      l.length ≤ 14 + payloadMax + s.cfg.pollBudget.toNat + s.cfg.maxLen.toNat) ∧
  (∀ s : State, Inv s → s.env = .stuck [] →
    s.frameDue ≠ none ∨ s.pc = .openBus ∨ s.pc = .closeBus → step s = .next s)

/-- The frame of every operation but CAPTURE and RELEASE: it changes the environment, the trace and the
response port, and leaves CFG, the handle, the request port and, once it has ended, every register as
before (R23, R26, R31, R194). -/
def Obligations.OperationFrame : Prop :=
  ∀ (s t : State) (i : Instr), Inv s → s.pc = .ready → s.env.fair = true → i.wf = true →
    i.port = .request → (∀ sp ad, i ≠ .capture sp ad) → i ≠ .release → exec i s = .next t →
    ∃ (env : Env) (draws : Nat) (l : List (Call × Answer)) (frame : List Byte),
      t = { s with env := env, draws := draws, calls := s.calls ++ l,
                   rspOut := s.rspOut ++ [frame] }

/-- R61, R69: a step only appends to the trace; a transfer is issued on an open bus and is a two-byte
register frame or the one byte of RELEASE. -/
def Obligations.TransfersOnOpenBusOnly : Prop :=
  ∀ s t : State, Inv s → step s = .next t →
    ∃ l : List (Call × Answer), t.calls = s.calls ++ l ∧
      ∀ e ∈ l, ∀ out, e.1 = .xfer out → s.opened = true ∧ (out.length = 2 ∨ out = [0x00#8])

/-- R40: no operation but the four that take an address touches a chip register other than the eight of
CFG. -/
def Obligations.OnlyConfiguredRegistersTouched : Prop :=
  ∀ (s t : State) (i : Instr), Inv s → s.pc = .ready → i.wf = true → i.port = .request →
    (∀ a v, i ≠ .wrreg a v) → (∀ a, i ≠ .rdreg a) → (∀ a m, i ≠ .setbits a m) →
    (∀ a m, i ≠ .clrbits a m) → exec i s = .next t →
    ∃ l : List (Call × Answer), t.calls = s.calls ++ l ∧
      ∀ e ∈ l, ∀ a d, e.1 = .xfer [a, d] →
        ∃ r ∈ engineCells s.cfg, a = encAddr r ∨ (a = encAddr r ||| s.cfg.rdFlag ∧ d = 0x00#8)

/-- R125: on a closed bus the operations that need it end at once in `NotCaptured`. -/
def Obligations.NotCapturedOnClosedBus : Prop :=
  ∀ (s : State) (i : Instr), Inv s → s.pc = .ready → s.opened = false →
    ((∃ a v, i = .wrreg a v) ∨ (∃ a, i = .rdreg a) ∨ (∃ a m, i = .setbits a m) ∨
      (∃ a m, i = .clrbits a m) ∨ (∃ c p, i = .exec c p) ∨ (∃ m, i = .reqmode m)) →
    exec i s = .next { s with rspOut := s.rspOut ++ [plainRsp 0x02#8 0x00#8 0x00#8] }

/-- R183, R192, R193: the three placeholders answer `NotImplemented` in every state, captured or not,
and change nothing. -/
def Obligations.PlaceholdersNotImplemented : Prop :=
  ∀ (s : State) (i : Instr), Inv s → s.pc = .ready →
    (i = .scan ∨ (∃ data, i = .flash data) ∨ i = .rdanticoll) →
    exec i s = .next { s with rspOut := s.rspOut ++ [plainRsp 0x03#8 0x00#8 0x00#8] }

/-! ### Register access -/

/-- R120: one transfer of the encoded address and the value; `Success` if and only if it is answered
`Ok`, whatever the echo; on a closed bus `NotCaptured`. -/
def Obligations.WrregWritesRegister : Prop :=
  ∀ (s : State) (addr value : Byte), s.pc = .ready →
    (s.opened = false →
      exec (.wrreg addr value) s = .next (s.ended (plainRsp 0x02#8 0x00#8 0x00#8))) ∧
    ∀ (t : State) (ans : Answer), s.opened = true →
      s.call (.xfer [encAddr addr, value]) = some (ans, t) →
      exec (.wrreg addr value) s = .next
        (t.ended (plainRsp (if ans = .fail then 0x01#8 else 0x00#8) 0x00#8 0x00#8))

/-- R121: one transfer; the value is echo byte 1; `TransportError` on `Fail`, with the short-echo flag on
an echo of less than two bytes; on a closed bus `NotCaptured`. -/
def Obligations.RdregReadsRegister : Prop :=
  ∀ (s : State) (addr : Byte), s.pc = .ready →
    (s.opened = false → exec (.rdreg addr) s = .next (s.ended (plainRsp 0x02#8 0x00#8 0x00#8))) ∧
    ∀ (t : State) (ans : Answer), s.opened = true →
      s.call (.xfer [encAddr addr ||| s.cfg.rdFlag, 0x00#8]) = some (ans, t) →
      (∀ e v rest, ans = .ok (e :: v :: rest) →
        exec (.rdreg addr) s = .next (t.ended (plainRsp 0x00#8 0x00#8 v))) ∧
      (∀ short, ans = .ok short → short.length < 2 →
        exec (.rdreg addr) s = .next (t.ended (plainRsp 0x01#8 0x02#8 0x00#8))) ∧
      (ans = .fail → exec (.rdreg addr) s = .next (t.ended (plainRsp 0x01#8 0x00#8 0x00#8)))

/-- R122 with R124: SETBITS reads the register, then writes `value | mask`; a failed write is
`TransportError`. Where the read fails, by `Fail` or a short echo, the write carries a draw combined
with the mask and the response has the advisory flag; the draw is the free value number `t.draws`, of
which nothing is known. On a closed bus `NotCaptured`. -/
def Obligations.SetbitsWritesOr : Prop :=
  ∀ (s : State) (addr mask : Byte), s.pc = .ready →
    (s.opened = false →
      exec (.setbits addr mask) s = .next (s.ended (plainRsp 0x02#8 0x00#8 0x00#8))) ∧
    ∀ (t u : State) (read ans : Answer), s.opened = true →
      s.call (.xfer [encAddr addr ||| s.cfg.rdFlag, 0x00#8]) = some (read, t) →
      (∀ e old rest, read = .ok (e :: old :: rest) →
        t.call (.xfer [encAddr addr, old ||| mask]) = some (ans, u) →
        exec (.setbits addr mask) s = .next
          (u.ended (plainRsp (if ans = .fail then 0x01#8 else 0x00#8) 0x00#8 0x00#8))) ∧
      ((read = .fail ∨ ∃ short, read = .ok short ∧ short.length < 2) →
        State.call { t with draws := t.draws + 1 }
          (.xfer [encAddr addr, Config.freeByte t.draws ||| mask]) = some (ans, u) →
        exec (.setbits addr mask) s = .next
          (u.ended (plainRsp (if ans = .fail then 0x01#8 else 0x00#8) 0x01#8 0x00#8)))

/-- R123 with R124: CLRBITS reads the register, then writes `value & ~mask`; errors, the tolerated read
and the closed bus as for SETBITS. -/
def Obligations.ClrbitsWritesAndNot : Prop :=
  ∀ (s : State) (addr mask : Byte), s.pc = .ready →
    (s.opened = false →
      exec (.clrbits addr mask) s = .next (s.ended (plainRsp 0x02#8 0x00#8 0x00#8))) ∧
    ∀ (t u : State) (read ans : Answer), s.opened = true →
      s.call (.xfer [encAddr addr ||| s.cfg.rdFlag, 0x00#8]) = some (read, t) →
      (∀ e old rest, read = .ok (e :: old :: rest) →
        t.call (.xfer [encAddr addr, old &&& ~~~mask]) = some (ans, u) →
        exec (.clrbits addr mask) s = .next
          (u.ended (plainRsp (if ans = .fail then 0x01#8 else 0x00#8) 0x00#8 0x00#8))) ∧
      ((read = .fail ∨ ∃ short, read = .ok short ∧ short.length < 2) →
        State.call { t with draws := t.draws + 1 }
          (.xfer [encAddr addr, Config.freeByte t.draws &&& ~~~mask]) = some (ans, u) →
        exec (.clrbits addr mask) s = .next
          (u.ended (plainRsp (if ans = .fail then 0x01#8 else 0x00#8) 0x01#8 0x00#8)))

/-! ### The replay mock -/

/-- R78: what the replay mock does with a two-byte transfer. A cell not yet written reads 0 (log 7). -/
def Obligations.ReplayMockAnswers : Prop :=
  ∀ (m : Memory) (d : Nat) (a v : Byte), m.wf = true →
    (a.getLsbD 7 = false → ∃ e e' m' d', (Env.replay m).answer d (.xfer [a, v]) =
        some (.ok [e, e'], .replay m', d') ∧ m'.wf = true ∧
        ∀ k, m'.read k = if k = (a.extractLsb' 1 6).toNat then v else m.read k) ∧
    (a.getLsbD 7 = true → ∃ e d', (Env.replay m).answer d (.xfer [a, v]) =
        some (.ok [e, m.read (a.extractLsb' 1 6).toNat], .replay m, d'))

/-- R126: under the replay mock a read gives back what was written, set or cleared. -/
def Obligations.ReplayMockReadsBack : Prop :=
  ∀ (s : State) (m : Memory) (a v : Byte), s.pc = .ready → s.opened = true → s.env = .replay m →
    m.wf = true → s.cfg.rdFlag = 0x80#8 →
    (∃ t u, exec (.wrreg a v) s = .next t ∧ exec (.rdreg a) t = .next u ∧
      u.rspOut = t.rspOut ++ [plainRsp 0x00#8 0x00#8 v]) ∧
    (∃ t u, exec (.setbits a v) s = .next t ∧ exec (.rdreg a) t = .next u ∧
      u.rspOut = t.rspOut ++ [plainRsp 0x00#8 0x00#8 (m.read (a.toNat % 64) ||| v)]) ∧
    (∃ t u, exec (.clrbits a v) s = .next t ∧ exec (.rdreg a) t = .next u ∧
      u.rspOut = t.rspOut ++ [plainRsp 0x00#8 0x00#8 (m.read (a.toNat % 64) &&& ~~~v)])

/-- The frame of memory under the replay mock: WRREG, SETBITS, CLRBITS and SPI2W store to the cell their
address byte names and to no other (R62, R69, R78); EXEC and REQMODE store to cells of the six CFG
registers the engine writes and to no other (R32 to R34, R36, R37, R39, R40, R166); every other
instruction of the table stores nothing. That the one-byte transfer of RELEASE and SPI1 changes no cell
is the model's choice (log 18): R78 says what the mock does with two bytes. -/
def Obligations.ReplayStoresAtItsCell : Prop :=
  ∀ (s t : State) (m : Memory) (i : Instr), Inv s → s.env = .replay m → s.cfg.rdFlag = 0x80#8 →
    exec i s = .next t →
    (∀ a v, (i = .wrreg a v ∨ i = .setbits a v ∨ i = .clrbits a v) →
      ∀ k, k ≠ (wireAddr (encAddr a)).toNat → t.env.cells.read k = m.read k) ∧
    (∀ a v, i = .spi2w a v → ∀ k, k ≠ (wireAddr (encAddr (a.setWidth 8))).toNat →
      t.env.cells.read k = m.read k) ∧
    ((∃ cmd payload, i = .exec cmd payload) ∨ (∃ mode, i = .reqmode mode) →
      ∀ k, (∀ r ∈ [s.cfg.regCommand, s.cfg.regComIen, s.cfg.regComIrq, s.cfg.regFifoData,
          s.cfg.regFifoLevel, s.cfg.regBitFraming], k ≠ (wireAddr (encAddr r)).toNat) →
        t.env.cells.read k = m.read k) ∧
    ((∃ sp ad, i = .capture sp ad) ∨ i = .release ∨ i = .scan ∨ (∃ data, i = .flash data) ∨
        (∃ a, i = .rdreg a) ∨ i = .rdanticoll ∨ (∃ a, i = .spi2r a) ∨ i = .spi1 →
      ∀ k, t.env.cells.read k = m.read k)

/-! ### The command engine -/

/-- R98: the masks of the three command classes. -/
def Obligations.CommandClassMasks : Prop :=
  ∀ (c : Cfg) (cmd : Byte),
    irqEnOf c cmd = (if cmd = c.cmdAuthent then 0x12#8
      else if cmd = c.cmdTransceive then 0x77#8 else 0x00#8) ∧
    waitIrqOf c cmd = (if cmd = c.cmdAuthent then 0x10#8
      else if cmd = c.cmdTransceive then 0x30#8 else 0x00#8)

/-- R140, R156: EXEC on the FSM is the pseudocode of R140 run as a straight-line program, transfer for
transfer, from every state and for every answer of a transport that answers. -/
def Obligations.ExecIsThePseudocode : Prop :=
  ∀ (s : State) (cmd : Byte) (payload : List Byte), s.pc = .ready →
    (s.opened = false →
      exec (.exec cmd payload) s = .next (s.ended (plainRsp 0x02#8 0x00#8 0x00#8))) ∧
    (s.opened = true → s.cfg.wf = true → s.env.fair = true → payload.length ≤ payloadMax →
      let r := Pseudocode.engine s.cfg cmd payload { s with adv := false }
      exec (.exec cmd payload) s = .next (r.2.ended (Pseudocode.execRsp r.1 r.2.adv)))

/-- R180, R181, R182: REQMODE is the bit-framing write, the engine with Transceive and the mode byte, and
the check of status and bit length. -/
def Obligations.ReqmodeIsThePseudocode : Prop :=
  ∀ (s : State) (mode : Byte), s.pc = .ready →
    (s.opened = false →
      exec (.reqmode mode) s = .next (s.ended (plainRsp 0x02#8 0x00#8 0x00#8))) ∧
    (s.opened = true → s.cfg.wf = true → s.env.fair = true →
      let r := Pseudocode.requestMode s.cfg mode { s with adv := false }
      exec (.reqmode mode) s = .next (r.2.ended (Pseudocode.requestRsp r.1 r.2.adv)))

/-- R164, R204: EXEC answers either `TransportError` with no status, or one of the three statuses with
the bit length and data its status and class call for. -/
def Obligations.ExecTripleShape : Prop :=
  ∀ (s : State) (cmd : Byte) (payload : List Byte), Inv s → s.pc = .ready → s.opened = true →
    s.env.fair = true → payload.length ≤ payloadMax →
    ∃ (t : State) (frame : List Byte), exec (.exec cmd payload) s = .next t ∧
      t.rspOut = s.rspOut ++ [frame] ∧
      ((∃ flags, frame = plainRsp 0x01#8 flags 0x00#8) ∨
        ∃ (flags status : Byte) (bitLen : Word) (data : List Byte),
          frame = [0x00#8, flags, status] ++ bytesOfWord bitLen ++
            [0x00#8, BitVec.ofNat 8 data.length] ++ data ∧
          (status = 0x00#8 ∨ status = 0x01#8 ∨ status = 0x02#8) ∧
          (status = 0x02#8 → data = [] ∧ bitLen.toInt = -1) ∧
          (status ≠ 0x02#8 → cmd ≠ s.cfg.cmdTransceive → data = [] ∧ bitLen.toInt = 0) ∧
          (status ≠ 0x02#8 → cmd = s.cfg.cmdTransceive →
            1 ≤ data.length ∧ data.length ≤ s.cfg.maxLen.toNat))

/-- R149, R184, R250: under `LITERAL` no EXEC has status `Ok` and no REQMODE succeeds. -/
def Obligations.LiteralRuleNeverOk : Prop :=
  ∀ (s t : State) (frame : List Byte), Inv s → s.pc = .ready → s.opened = true →
    s.env.fair = true → s.cfg.noTagRule = .literal → t.rspOut = s.rspOut ++ [frame] →
    (∀ cmd payload, payload.length ≤ payloadMax → exec (.exec cmd payload) s = .next t →
      frame.getD 2 0x00#8 ≠ 0x00#8) ∧
    (∀ mode, exec (.reqmode mode) s = .next t →
      (frame.getD 0 0x00#8 = 0x01#8 ∨ frame.getD 0 0x00#8 = 0x06#8) ∧
      frame.getD 7 0xFF#8 = 0x00#8)

/-- R149: the status of a command that neither timed out nor showed an error. -/
def Obligations.NoTagDowngrade : Prop :=
  ∀ (c : Cfg) (irqVal irqEn : Byte),
    (c.noTagRule = .literal →
      resolvedStatus c irqVal irqEn = if irqVal ≠ 0x00#8 then .noTagError else .ok) ∧
    (c.noTagRule = .intent →
      resolvedStatus c irqVal irqEn =
        if irqVal &&& irqEn &&& 0x01#8 = 0x00#8 then .noTagError else .ok)

/-- R150, R151, R162, R163: the framer's arithmetic, on integers, with the bound that holds where the chip
reports between 1 and `MAX_LEN` bytes. -/
def Obligations.FramerArithmetic : Prop :=
  ∀ (c : Cfg) (n : Byte) (lastBits : BitVec 3),
    (bitLength n lastBits).toInt = (if lastBits = 0#3 then 8 * (n.toNat : Int)
      else 8 * ((n.toNat : Int) - 1) + lastBits.toNat) ∧
    -7 ≤ (bitLength n lastBits).toInt ∧ (bitLength n lastBits).toInt ≤ 2040 ∧
    (drainCount c n).toNat = min (max n.toNat 1) c.maxLen.toNat ∧
    (1 ≤ n.toNat → n.toNat ≤ c.maxLen.toNat →
      (bitLength n lastBits).toInt ≤ 8 * ((drainCount c n).toNat : Int))

/-- R145: with `r` iterations left, polls that show no termination bit and then one that does take one
read each and leave `r` less the reads before it; `r` reads that show none leave 0. -/
def Obligations.PollLoopReads : Prop :=
  ∀ (s : State) (w : Byte) (r : Half) (pre : List (Byte × Byte)) (e : Byte × Byte)
    (rest : List Answer), s.pc = .poll → s.opened = true → s.x.op ≠ none → s.x.waitIrq = some w →
    s.x.rem = some r → s.env = .free ((pre ++ [e]).map echo ++ rest) →
    (∀ p ∈ pre, p.2 &&& 0x01#8 = 0x00#8 ∧ p.2 &&& w = 0x00#8) →
    let reads := (pre ++ [e]).map fun p =>
      (Call.xfer [encAddr s.cfg.regComIrq ||| s.cfg.rdFlag, 0x00#8], echo p)
    (pre.length < r.toNat → e.2 &&& 0x01#8 ≠ 0x00#8 ∨ e.2 &&& w ≠ 0x00#8 →
      runFor (pre.length + 1) s = .next { s with
        pc := .stopRd, env := .free rest, calls := s.calls ++ reads
        x := { s.x with irqVal := some e.2, rem := some (r - BitVec.ofNat 16 pre.length) } }) ∧
    (pre.length + 1 = r.toNat → e.2 &&& 0x01#8 = 0x00#8 ∧ e.2 &&& w = 0x00#8 →
      runFor (pre.length + 1) s = .next { s with
        pc := .stopRd, env := .free rest, calls := s.calls ++ reads
        x := { s.x with irqVal := some e.2, rem := some 0#16 } })

/-! ### The transition table, row by row -/

/-- R141: the five transfers of arm, on good answers. -/
def Obligations.ArmPhases : Prop :=
  ∀ (s t : State) (k m v e0 e : Byte) (bytes : List Byte), s.cfg.wf = true → s.opened = true →
    s.x.op ≠ none →
    (s.pc = .armIen → s.x.cmd = some k → s.x.irqEn = some m →
      s.call (.xfer [encAddr s.cfg.regComIen, m ||| 0x80#8]) = some (.ok bytes, t) →
      step s = .next { t with pc := .armIrqRd }) ∧
    (s.pc = .armIrqRd →
      s.call (.xfer [encAddr s.cfg.regComIrq ||| s.cfg.rdFlag, 0x00#8]) =
        some (.ok (e0 :: e :: bytes), t) →
      step s = .next { t with pc := .armIrqWr, x := { s.x with tmp := some e } }) ∧
    (s.pc = .armIrqWr → s.x.tmp = some v →
      s.call (.xfer [encAddr s.cfg.regComIrq, v &&& 0x7F#8]) = some (.ok bytes, t) →
      step s = .next { t with pc := .armFlushRd }) ∧
    (s.pc = .armFlushRd →
      s.call (.xfer [encAddr s.cfg.regFifoLevel ||| s.cfg.rdFlag, 0x00#8]) =
        some (.ok (e0 :: e :: bytes), t) →
      step s = .next { t with pc := .armFlushWr, x := { s.x with tmp := some e } }) ∧
    (s.pc = .armFlushWr → s.x.tmp = some v →
      s.call (.xfer [encAddr s.cfg.regFifoLevel, v ||| 0x80#8]) = some (.ok bytes, t) →
      step s = .next { t with pc := .forceIdle })

/-- R142, R143, R144: the idle command, the payload bytes in order, the command, and the start sequence of
Transceive, on good answers. `x[rem]` is loaded on entry to `P_POLL`, as R24 and the pseudocode of R140
have it and the table of R156 and R217 have not (log 12). -/
def Obligations.IdleLoadExecutePhases : Prop :=
  ∀ (s t : State) (i l b k v e0 e : Byte) (p bytes : List Byte), s.cfg.wf = true →
    s.opened = true → s.x.op ≠ none →
    (s.pc = .forceIdle → s.x.plen = some l →
      s.call (.xfer [encAddr s.cfg.regCommand, s.cfg.cmdIdle]) = some (.ok bytes, t) →
      step s = .next { t with pc := if l = 0x00#8 then .execute else .load,
                              x := { s.x with pidx := some 0x00#8 } }) ∧
    (s.pc = .load → s.x.payload = some p → s.x.plen = some l → s.x.pidx = some i →
      p[i.toNat]? = some b →
      s.call (.xfer [encAddr s.cfg.regFifoData, b]) = some (.ok bytes, t) →
      step s = .next { t with pc := if (i + 0x01#8).toNat < l.toNat then .load else .execute,
                              x := { s.x with pidx := some (i + 0x01#8) } }) ∧
    (s.pc = .execute → s.x.cmd = some k →
      s.call (.xfer [encAddr s.cfg.regCommand, k]) = some (.ok bytes, t) →
      step s = .next (if k = s.cfg.cmdTransceive then { t with pc := .startRd }
        else { t with pc := .poll, x := { s.x with rem := some s.cfg.pollBudget } })) ∧
    (s.pc = .startRd →
      s.call (.xfer [encAddr s.cfg.regBitFraming ||| s.cfg.rdFlag, 0x00#8]) =
        some (.ok (e0 :: e :: bytes), t) →
      step s = .next { t with pc := .startWr, x := { s.x with tmp := some e } }) ∧
    (s.pc = .startWr → s.x.tmp = some v →
      s.call (.xfer [encAddr s.cfg.regBitFraming, v ||| 0x80#8]) = some (.ok bytes, t) →
      step s = .next { t with pc := .poll, x := { s.x with rem := some s.cfg.pollBudget } })

/-- R146, R147, R148, R154: the stop sequence comes before the timeout test; timeout and chip error end the
engine with `GenericError`, no data and bit length -1. -/
def Obligations.StopAndFailPhases : Prop :=
  ∀ (s t : State) (op : Op) (v k q m e0 e : Byte) (r : Half) (bytes : List Byte),
    s.cfg.wf = true → s.opened = true → s.x.op = some op →
    let failed : Work :=
      { s.x with
        status := some .genericError, rlen := some 0x00#8, bitLen := some 0xFFFFFFFF#32
        res := if op = .reqmode then s.x.res else some .success }
    (s.pc = .stopRd →
      s.call (.xfer [encAddr s.cfg.regBitFraming ||| s.cfg.rdFlag, 0x00#8]) =
        some (.ok (e0 :: e :: bytes), t) →
      step s = .next { t with pc := .stopWr, x := { s.x with tmp := some e } }) ∧
    (s.pc = .stopWr → s.x.tmp = some v → s.x.rem = some r →
      s.call (.xfer [encAddr s.cfg.regBitFraming, v &&& 0x7F#8]) = some (.ok bytes, t) →
      step s = .next (if r = 0#16 then { t with pc := endPhase op, x := failed }
        else { t with pc := .errRd })) ∧
    (s.pc = .errRd → s.x.cmd = some k → s.x.irqVal = some q → s.x.irqEn = some m →
      s.call (.xfer [encAddr s.cfg.regError ||| s.cfg.rdFlag, 0x00#8]) =
        some (.ok (e0 :: e :: bytes), t) →
      e &&& 0x1B#8 ≠ 0x00#8 →
      step s = .next { t with pc := endPhase op, x := { failed with errVal := some e } })

/-- R149, R153: where the error register shows no error the status is set; a command that is not
Transceive ends with no data and bit length 0, Transceive goes on to the framer. -/
def Obligations.ResolvePhase : Prop :=
  ∀ (s t : State) (op : Op) (k q m e0 e : Byte) (bytes : List Byte),
    s.cfg.wf = true → s.opened = true → s.x.op = some op → s.pc = .errRd → s.x.cmd = some k →
    s.x.irqVal = some q → s.x.irqEn = some m →
    s.call (.xfer [encAddr s.cfg.regError ||| s.cfg.rdFlag, 0x00#8]) =
      some (.ok (e0 :: e :: bytes), t) →
    e &&& 0x1B#8 = 0x00#8 →
    (k = s.cfg.cmdTransceive →
      step s = .next { t with
        pc := .lvlRd
        x := { s.x with errVal := some e, status := some (resolvedStatus s.cfg q m) } }) ∧
    (k ≠ s.cfg.cmdTransceive →
      step s = .next { t with
        pc := endPhase op
        x := { s.x with
          errVal := some e, status := some (resolvedStatus s.cfg q m)
          rlen := some 0x00#8, bitLen := some 0#32
          res := if op = .reqmode then s.x.res else some .success } })

/-- R150, R151, R152: the framer reads level and control, computes length and drain count, and drains the
FIFO a byte a transfer, in order. -/
def Obligations.FramerPhases : Prop :=
  ∀ (s t : State) (op : Op) (n nc i e0 e : Byte) (bytes : List Byte), s.cfg.wf = true →
    s.opened = true → s.x.op = some op →
    (s.pc = .lvlRd →
      s.call (.xfer [encAddr s.cfg.regFifoLevel ||| s.cfg.rdFlag, 0x00#8]) =
        some (.ok (e0 :: e :: bytes), t) →
      step s = .next { t with pc := .ctrlRd, x := { s.x with n := some e } }) ∧
    (s.pc = .ctrlRd → s.x.n = some n →
      s.call (.xfer [encAddr s.cfg.regControl ||| s.cfg.rdFlag, 0x00#8]) =
        some (.ok (e0 :: e :: bytes), t) →
      step s = .next { t with
        pc := .drain
        x := { s.x with
          lastBits := some (e.setWidth 3), bitLen := some (bitLength n (e.setWidth 3))
          nc := some (drainCount s.cfg n), didx := some 0x00#8, rlen := some 0x00#8 } }) ∧
    (s.pc = .drain → s.x.nc = some nc → s.x.didx = some i → s.x.resp.length = i.toNat →
      i.toNat < nc.toNat → nc.toNat ≤ s.cfg.maxLen.toNat →
      s.call (.xfer [encAddr s.cfg.regFifoData ||| s.cfg.rdFlag, 0x00#8]) =
        some (.ok (e0 :: e :: bytes), t) →
      step s = .next { t with
        pc := if i.toNat + 1 < nc.toNat then .drain else endPhase op
        x := { s.x with
          resp := s.x.resp ++ [e], didx := some (i + 0x01#8), rlen := some (i + 0x01#8)
          res := if i.toNat + 1 < nc.toNat ∨ op = .reqmode then s.x.res else some .success } })

/-- R74, R124, R155, R156, R213: a failed write, and a failed read outside the five tolerant phases,
abort the operation. In `P_RMW_RD` of SETBITS and CLRBITS and in the four rows marked T of R156, a failed
read sets the advisory flag, draws a byte into `x[tmp]` and goes on to the write of that sequence. -/
def Obligations.BadAnswerInPhase : Prop :=
  ∀ (s t : State) (f : Frame) (ans : Answer), Inv s → s.frameDue = some f → f ≠ .release →
    s.call (.xfer (f.bytes s.cfg)) = some (ans, t) →
    (ans = .fail → s.pc ∉ [.rmwRd, .armIrqRd, .armFlushRd, .startRd, .stopRd] →
      step s = .next { t with
        pc := .abort, x := { s.x with res := some .transportError, short := some false } }) ∧
    (∀ a bytes, f = .read a → ans = .ok bytes → bytes.length < 2 →
      s.pc ∉ [.rmwRd, .armIrqRd, .armFlushRd, .startRd, .stopRd] →
      step s = .next { t with
        pc := .abort, x := { s.x with res := some .transportError, short := some true } }) ∧
    ((ans = .fail ∨ ∃ bytes, ans = .ok bytes ∧ bytes.length < 2) →
      ∀ next, (s.pc, next) ∈ [(Phase.rmwRd, Phase.rmwWr), (.armIrqRd, .armIrqWr),
          (.armFlushRd, .armFlushWr), (.startRd, .startWr), (.stopRd, .stopWr)] →
        step s = .next { t with
          pc := next, adv := true, draws := t.draws + 1
          x := { s.x with tmp := some (Config.freeByte t.draws) } })

/-- R26, R96, R213, R244: the two phases that hand over. `P_DONE` fills the fields of its operation: the
triple and `VAL` of EXEC and REQMODE, `VAL` of RDREG, `RES` and `FLAGS` of any other. After either phase
the sequencer is ready, no working register holds a value, and the advisory flag, which the frame
carries, is clear (`State.ended`; clearing it at hand-over is the model's reading, log 9); nothing else
changes. -/
def Obligations.HandOverPhases : Prop :=
  ∀ (s : State) (r : Res), s.cfg.wf = true → s.x.res = some r →
    (s.pc = .done → ∀ status bitLen rlen val, s.x.status = some status → s.x.bitLen = some bitLen →
      s.x.rlen = some rlen → s.x.resp.length = rlen.toNat →
      (s.x.op = some .exec ∧ val = 0x00#8 ∨ s.x.op = some .reqmode ∧ s.x.val = some val) →
      step s = .next (s.ended ([r.code, if s.adv then 0x01#8 else 0x00#8, statusCode (some status)] ++
        bytesOfWord bitLen ++ [val, rlen] ++ s.x.resp))) ∧
    (s.pc = .done → ∀ val, s.x.op = some .rdreg → s.x.val = some val →
      step s = .next (s.ended (plainRsp r.code (if s.adv then 0x01#8 else 0x00#8) val))) ∧
    (s.pc = .done → ∀ op, s.x.op = some op → op ≠ .exec → op ≠ .reqmode → op ≠ .rdreg →
      step s = .next (s.ended (plainRsp r.code (if s.adv then 0x01#8 else 0x00#8) 0x00#8))) ∧
    (∀ short : Bool, s.pc = .abort → s.x.short = some short →
      step s = .next (s.ended (plainRsp r.code
        ((if s.adv then 0x01#8 else 0x00#8) ||| (if short then 0x02#8 else 0x00#8)) 0x00#8)))

/-! ### The session -/

/-- R190: CAPTURE's payload is the speed, most significant byte first, then the address. It opens a
closed bus, keeps its operands in the handle and issues no transfer; a failed open leaves the bus closed;
on an open bus it is refused. -/
def Obligations.CaptureOpensBus : Prop :=
  ∀ (s t : State) (speed : Word) (address : List Byte) (ans : Answer), Inv s → s.pc = .ready →
    (encode (.capture speed address) =
      [0x01#8, 0x00#8, 0x00#8, BitVec.ofNat 8 (4 + address.length), speed.extractLsb' 24 8] ++
        [speed.extractLsb' 16 8, speed.extractLsb' 8 8, speed.extractLsb' 0 8] ++ address) ∧
    (s.opened = true → exec (.capture speed address) s =
      .next { s with rspOut := s.rspOut ++ [plainRsp 0x05#8 0x00#8 0x00#8] }) ∧
    (s.opened = false → s.call (.openBus address speed) = some (ans, t) →
      exec (.capture speed address) s = .next
        (if ans = .fail then t.ended (plainRsp 0x01#8 0x00#8 0x00#8)
          else State.ended { t with opened := true, speed := speed, busaddr := address }
            (plainRsp 0x00#8 0x00#8 0x00#8)))

/-- R191: RELEASE sends the one byte, closes whether or not that failed, and leaves the bus closed in
every case; on a closed bus it is refused. -/
def Obligations.ReleaseClosesBus : Prop :=
  ∀ (s t u : State) (r1 r2 : Answer), Inv s → s.pc = .ready →
    (s.opened = false → exec .release s =
      .next { s with rspOut := s.rspOut ++ [plainRsp 0x02#8 0x00#8 0x00#8] }) ∧
    (s.opened = true → s.call (.xfer [0x00#8]) = some (r1, t) → t.call .closeBus = some (r2, u) →
      exec .release s = .next
        (State.ended { u with opened := false }
          (plainRsp (if r1 = .fail ∨ r2 = .fail then 0x01#8 else 0x00#8) 0x00#8 0x00#8)))

/-! ### The wire frames as instructions -/

/-- R90: the write frame a phase issues is one transfer of its two bytes; the handle, CFG and the ports
are left alone. That one the phase does not issue ends in the fault `frameNotDue` is the model's choice
(log 19). -/
def Obligations.WriteFrameTransfers : Prop :=
  ∀ (s : State) (a : BitVec 6) (d : Byte),
    (Inv s → s.env.fair = true → s.frameDue = some (.write a d) →
      ∃ (ans : Answer) (t : State) (p : Phase) (x : Work),
        s.call (.xfer [encAddr (a.setWidth 8), d]) = some (ans, t) ∧
        exec (.spi2w a d) s = .next { t with pc := p, x := x } ∧
        (p = .abort ↔ ans = .fail)) ∧
    (s.frameDue ≠ some (.write a d) → exec (.spi2w a d) s = .fault .frameNotDue)

/-- R91, R121, R124: the read frame a phase issues is one transfer. Exactly where the read fails (`Fail`
or a short echo) in one of the five tolerant phases, a byte is drawn into `x[tmp]` and the advisory flag
set; where it fails in another the operation aborts. That a frame the phase does not issue ends in the
fault `frameNotDue` is the model's choice (log 19). -/
def Obligations.ReadFrameTransfers : Prop :=
  ∀ (s : State) (a : BitVec 6),
    (Inv s → s.env.fair = true → s.frameDue = some (.read a) →
      ∃ (ans : Answer) (t : State),
        s.call (.xfer [encAddr (a.setWidth 8) ||| s.cfg.rdFlag, 0x00#8]) = some (ans, t) ∧
        let failed := ans = .fail ∨ ∃ bytes, ans = .ok bytes ∧ bytes.length < 2
        let tolerant := s.pc ∈ [.rmwRd, .armIrqRd, .armFlushRd, .startRd, .stopRd]
        (failed ∧ tolerant → ∃ p, p ≠ .abort ∧
          exec (.spi2r a) s = .next { t with
            pc := p, adv := true, draws := t.draws + 1
            x := { s.x with tmp := some (Config.freeByte t.draws) } }) ∧
        (¬ (failed ∧ tolerant) → ∃ (p : Phase) (x : Work), (p = .abort ↔ failed) ∧
          exec (.spi2r a) s = .next { t with pc := p, x := x })) ∧
    (s.frameDue ≠ some (.read a) → exec (.spi2r a) s = .fault .frameNotDue)

/-- R92, R191: the release byte is one transfer, and the close follows whatever its answer. That where the
phase does not issue it, it ends in the fault `frameNotDue` is the model's choice (log 19). -/
def Obligations.ReleaseFrameTransfers : Prop :=
  ∀ s : State,
    (Inv s → s.env.fair = true → s.frameDue = some .release →
      ∃ (ans : Answer) (t : State), s.call (.xfer [0x00#8]) = some (ans, t) ∧
        exec .spi1 s = .next { t with
          pc := .closeBus
          x := { s.x with res := some (if ans = .fail then .transportError else .success) } }) ∧
    (s.frameDue ≠ some .release → exec .spi1 s = .fault .frameNotDue)

/-! ### Acceptance -/

/-- R24, R95, R98: what the registers hold when an operation is under way. Where no call is answered the
sequencer waits in the operation's first phase: the operands are loaded, for EXEC the two masks of its
command as well, and no other register holds a value. That REQMODE's command and payload are loaded by
then, as R24 has it and the pseudocode of R180 has not, is the model's choice (log 22). -/
def Obligations.FirstPhaseOperands : Prop :=
  ∀ (s : State) (a v : Byte) (payload : List Byte), s.pc = .ready → s.opened = true →
    s.env = .stuck [] →
    let waiting (p : Phase) (x : Work) : State := { s with pc := p, adv := false, x := x }
    exec (.wrreg a v) s = .next (waiting .wr
      { Work.blank with op := some .wrreg, a := some a, v := some v }) ∧
    exec (.rdreg a) s = .next (waiting .rd { Work.blank with op := some .rdreg, a := some a }) ∧
    exec (.setbits a v) s = .next (waiting .rmwRd
      { Work.blank with op := some .setbits, a := some a, v := some v }) ∧
    exec (.clrbits a v) s = .next (waiting .rmwRd
      { Work.blank with op := some .clrbits, a := some a, v := some v }) ∧
    exec (.exec v payload) s = .next (waiting .armIen
      { Work.blank with
        op := some .exec, cmd := some v, payload := some payload
        plen := some (BitVec.ofNat 8 payload.length)
        irqEn := some (irqEnOf s.cfg v), waitIrq := some (waitIrqOf s.cfg v) }) ∧
    exec (.reqmode v) s = .next (waiting .rqFrame
      { Work.blank with
        op := some .reqmode, v := some v
        cmd := some s.cfg.cmdTransceive, payload := some [v], plen := some 1#8 }) ∧
    exec .release s = .next (waiting .relWr { Work.blank with op := some .release })
end

