-- ==== Sys2Proof/Laws/State.lean ====
section
/-!
SUPPORT. One lemma per field of the state per shared update, true by definition.
-/
namespace Sys2Proof.Machine

/-! ### `afterDraw` -/

@[simp] theorem State.afterDraw_cfg (s : State) : (s.afterDraw).cfg = s.cfg := rfl
@[simp] theorem State.afterDraw_pc (s : State) : (s.afterDraw).pc = s.pc := rfl
@[simp] theorem State.afterDraw_opened (s : State) : (s.afterDraw).opened = s.opened := rfl
@[simp] theorem State.afterDraw_speed (s : State) : (s.afterDraw).speed = s.speed := rfl
@[simp] theorem State.afterDraw_busaddr (s : State) : (s.afterDraw).busaddr = s.busaddr := rfl
@[simp] theorem State.afterDraw_adv (s : State) : (s.afterDraw).adv = s.adv := rfl
@[simp] theorem State.afterDraw_x (s : State) : (s.afterDraw).x = s.x := rfl
@[simp] theorem State.afterDraw_reqIn (s : State) : (s.afterDraw).reqIn = s.reqIn := rfl
@[simp] theorem State.afterDraw_rspOut (s : State) : (s.afterDraw).rspOut = s.rspOut := rfl
@[simp] theorem State.afterDraw_calls (s : State) : (s.afterDraw).calls = s.calls := rfl
@[simp] theorem State.afterDraw_env (s : State) : (s.afterDraw).env = s.env := rfl
@[simp] theorem State.afterDraw_draws (s : State) : (s.afterDraw).draws = s.draws + 1 := rfl

/-! ### `goto` -/

@[simp] theorem State.goto_cfg (s : State) (p : Phase) : (s.goto p).cfg = s.cfg := rfl
@[simp] theorem State.goto_pc (s : State) (p : Phase) : (s.goto p).pc = p := rfl
@[simp] theorem State.goto_opened (s : State) (p : Phase) : (s.goto p).opened = s.opened := rfl
@[simp] theorem State.goto_speed (s : State) (p : Phase) : (s.goto p).speed = s.speed := rfl
@[simp] theorem State.goto_busaddr (s : State) (p : Phase) : (s.goto p).busaddr = s.busaddr := rfl
@[simp] theorem State.goto_adv (s : State) (p : Phase) : (s.goto p).adv = s.adv := rfl
@[simp] theorem State.goto_x (s : State) (p : Phase) : (s.goto p).x = s.x := rfl
@[simp] theorem State.goto_reqIn (s : State) (p : Phase) : (s.goto p).reqIn = s.reqIn := rfl
@[simp] theorem State.goto_rspOut (s : State) (p : Phase) : (s.goto p).rspOut = s.rspOut := rfl
@[simp] theorem State.goto_calls (s : State) (p : Phase) : (s.goto p).calls = s.calls := rfl
@[simp] theorem State.goto_env (s : State) (p : Phase) : (s.goto p).env = s.env := rfl
@[simp] theorem State.goto_draws (s : State) (p : Phase) : (s.goto p).draws = s.draws := rfl

/-! ### `setX` -/

@[simp] theorem State.setX_cfg (s : State) (x : Work) : (s.setX x).cfg = s.cfg := rfl
@[simp] theorem State.setX_pc (s : State) (x : Work) : (s.setX x).pc = s.pc := rfl
@[simp] theorem State.setX_opened (s : State) (x : Work) : (s.setX x).opened = s.opened := rfl
@[simp] theorem State.setX_speed (s : State) (x : Work) : (s.setX x).speed = s.speed := rfl
@[simp] theorem State.setX_busaddr (s : State) (x : Work) : (s.setX x).busaddr = s.busaddr := rfl
@[simp] theorem State.setX_adv (s : State) (x : Work) : (s.setX x).adv = s.adv := rfl
@[simp] theorem State.setX_x (s : State) (x : Work) : (s.setX x).x = x := rfl
@[simp] theorem State.setX_reqIn (s : State) (x : Work) : (s.setX x).reqIn = s.reqIn := rfl
@[simp] theorem State.setX_rspOut (s : State) (x : Work) : (s.setX x).rspOut = s.rspOut := rfl
@[simp] theorem State.setX_calls (s : State) (x : Work) : (s.setX x).calls = s.calls := rfl
@[simp] theorem State.setX_env (s : State) (x : Work) : (s.setX x).env = s.env := rfl
@[simp] theorem State.setX_draws (s : State) (x : Work) : (s.setX x).draws = s.draws := rfl

/-! ### `advise` -/

@[simp] theorem State.advise_cfg (s : State) : (s.advise).cfg = s.cfg := rfl
@[simp] theorem State.advise_pc (s : State) : (s.advise).pc = s.pc := rfl
@[simp] theorem State.advise_opened (s : State) : (s.advise).opened = s.opened := rfl
@[simp] theorem State.advise_speed (s : State) : (s.advise).speed = s.speed := rfl
@[simp] theorem State.advise_busaddr (s : State) : (s.advise).busaddr = s.busaddr := rfl
@[simp] theorem State.advise_adv (s : State) : (s.advise).adv = true := rfl
@[simp] theorem State.advise_x (s : State) : (s.advise).x = s.x := rfl
@[simp] theorem State.advise_reqIn (s : State) : (s.advise).reqIn = s.reqIn := rfl
@[simp] theorem State.advise_rspOut (s : State) : (s.advise).rspOut = s.rspOut := rfl
@[simp] theorem State.advise_calls (s : State) : (s.advise).calls = s.calls := rfl
@[simp] theorem State.advise_env (s : State) : (s.advise).env = s.env := rfl
@[simp] theorem State.advise_draws (s : State) : (s.advise).draws = s.draws := rfl

/-! ### `beginOp` -/

@[simp] theorem State.beginOp_cfg (s : State) (op : Option Op) : (s.beginOp op).cfg = s.cfg := rfl
@[simp] theorem State.beginOp_pc (s : State) (op : Option Op) : (s.beginOp op).pc = s.pc := rfl
@[simp] theorem State.beginOp_opened (s : State) (op : Option Op) : (s.beginOp op).opened =
    s.opened := rfl
@[simp] theorem State.beginOp_speed (s : State) (op : Option Op) : (s.beginOp op).speed =
    s.speed := rfl
@[simp] theorem State.beginOp_busaddr (s : State) (op : Option Op) : (s.beginOp op).busaddr =
    s.busaddr := rfl
@[simp] theorem State.beginOp_adv (s : State) (op : Option Op) : (s.beginOp op).adv = false := rfl
@[simp] theorem State.beginOp_x (s : State) (op : Option Op) : (s.beginOp op).x =
    { Work.blank with op := op } := rfl
@[simp] theorem State.beginOp_reqIn (s : State) (op : Option Op) : (s.beginOp op).reqIn =
    s.reqIn := rfl
@[simp] theorem State.beginOp_rspOut (s : State) (op : Option Op) : (s.beginOp op).rspOut =
    s.rspOut := rfl
@[simp] theorem State.beginOp_calls (s : State) (op : Option Op) : (s.beginOp op).calls =
    s.calls := rfl
@[simp] theorem State.beginOp_env (s : State) (op : Option Op) : (s.beginOp op).env = s.env := rfl
@[simp] theorem State.beginOp_draws (s : State) (op : Option Op) : (s.beginOp op).draws =
    s.draws := rfl

/-! ### `finish` -/

@[simp] theorem State.finish_cfg (s : State) (r : Res) : (s.finish r).cfg = s.cfg := rfl
@[simp] theorem State.finish_pc (s : State) (r : Res) : (s.finish r).pc = .done := rfl
@[simp] theorem State.finish_opened (s : State) (r : Res) : (s.finish r).opened = s.opened := rfl
@[simp] theorem State.finish_speed (s : State) (r : Res) : (s.finish r).speed = s.speed := rfl
@[simp] theorem State.finish_busaddr (s : State) (r : Res) : (s.finish r).busaddr = s.busaddr := rfl
@[simp] theorem State.finish_adv (s : State) (r : Res) : (s.finish r).adv = s.adv := rfl
@[simp] theorem State.finish_x (s : State) (r : Res) : (s.finish r).x =
    { s.x with res := some r } := rfl
@[simp] theorem State.finish_reqIn (s : State) (r : Res) : (s.finish r).reqIn = s.reqIn := rfl
@[simp] theorem State.finish_rspOut (s : State) (r : Res) : (s.finish r).rspOut = s.rspOut := rfl
@[simp] theorem State.finish_calls (s : State) (r : Res) : (s.finish r).calls = s.calls := rfl
@[simp] theorem State.finish_env (s : State) (r : Res) : (s.finish r).env = s.env := rfl
@[simp] theorem State.finish_draws (s : State) (r : Res) : (s.finish r).draws = s.draws := rfl

/-! ### `raise` -/

@[simp] theorem State.raise_cfg (s : State) (e : Res) (short : Bool) : (s.raise e short).cfg =
    s.cfg := rfl
@[simp] theorem State.raise_pc (s : State) (e : Res) (short : Bool) : (s.raise e short).pc =
    .abort := rfl
@[simp] theorem State.raise_opened (s : State) (e : Res) (short : Bool) : (s.raise e short).opened =
    s.opened := rfl
@[simp] theorem State.raise_speed (s : State) (e : Res) (short : Bool) : (s.raise e short).speed =
    s.speed := rfl
@[simp] theorem State.raise_busaddr (s : State) (e : Res) (short : Bool) : (s.raise e short).busaddr =
    s.busaddr := rfl
@[simp] theorem State.raise_adv (s : State) (e : Res) (short : Bool) : (s.raise e short).adv =
    s.adv := rfl
@[simp] theorem State.raise_x (s : State) (e : Res) (short : Bool) : (s.raise e short).x =
    { s.x with res := some e, short := some short } := rfl
@[simp] theorem State.raise_reqIn (s : State) (e : Res) (short : Bool) : (s.raise e short).reqIn =
    s.reqIn := rfl
@[simp] theorem State.raise_rspOut (s : State) (e : Res) (short : Bool) : (s.raise e short).rspOut =
    s.rspOut := rfl
@[simp] theorem State.raise_calls (s : State) (e : Res) (short : Bool) : (s.raise e short).calls =
    s.calls := rfl
@[simp] theorem State.raise_env (s : State) (e : Res) (short : Bool) : (s.raise e short).env =
    s.env := rfl
@[simp] theorem State.raise_draws (s : State) (e : Res) (short : Bool) : (s.raise e short).draws =
    s.draws := rfl

/-! ### `handOver` -/

@[simp] theorem State.handOver_cfg (s : State) (frame : List Byte) : (s.handOver frame).cfg =
    s.cfg := rfl
@[simp] theorem State.handOver_pc (s : State) (frame : List Byte) : (s.handOver frame).pc =
    .ready := rfl
@[simp] theorem State.handOver_opened (s : State) (frame : List Byte) : (s.handOver frame).opened =
    s.opened := rfl
@[simp] theorem State.handOver_speed (s : State) (frame : List Byte) : (s.handOver frame).speed =
    s.speed := rfl
@[simp] theorem State.handOver_busaddr (s : State) (frame : List Byte) : (s.handOver frame).busaddr =
    s.busaddr := rfl
@[simp] theorem State.handOver_adv (s : State) (frame : List Byte) : (s.handOver frame).adv =
    false := rfl
@[simp] theorem State.handOver_x (s : State) (frame : List Byte) : (s.handOver frame).x =
    Work.blank := rfl
@[simp] theorem State.handOver_reqIn (s : State) (frame : List Byte) : (s.handOver frame).reqIn =
    s.reqIn := rfl
@[simp] theorem State.handOver_rspOut (s : State) (frame : List Byte) : (s.handOver frame).rspOut =
    s.rspOut ++ [frame] := rfl
@[simp] theorem State.handOver_calls (s : State) (frame : List Byte) : (s.handOver frame).calls =
    s.calls := rfl
@[simp] theorem State.handOver_env (s : State) (frame : List Byte) : (s.handOver frame).env =
    s.env := rfl
@[simp] theorem State.handOver_draws (s : State) (frame : List Byte) : (s.handOver frame).draws =
    s.draws := rfl

/-! ### `setPort` -/

@[simp] theorem State.setPort_cfg (s : State) (rest : List Byte) : (s.setPort rest).cfg =
    s.cfg := rfl
@[simp] theorem State.setPort_pc (s : State) (rest : List Byte) : (s.setPort rest).pc = s.pc := rfl
@[simp] theorem State.setPort_opened (s : State) (rest : List Byte) : (s.setPort rest).opened =
    s.opened := rfl
@[simp] theorem State.setPort_speed (s : State) (rest : List Byte) : (s.setPort rest).speed =
    s.speed := rfl
@[simp] theorem State.setPort_busaddr (s : State) (rest : List Byte) : (s.setPort rest).busaddr =
    s.busaddr := rfl
@[simp] theorem State.setPort_adv (s : State) (rest : List Byte) : (s.setPort rest).adv =
    s.adv := rfl
@[simp] theorem State.setPort_x (s : State) (rest : List Byte) : (s.setPort rest).x = s.x := rfl
@[simp] theorem State.setPort_reqIn (s : State) (rest : List Byte) : (s.setPort rest).reqIn =
    rest := rfl
@[simp] theorem State.setPort_rspOut (s : State) (rest : List Byte) : (s.setPort rest).rspOut =
    s.rspOut := rfl
@[simp] theorem State.setPort_calls (s : State) (rest : List Byte) : (s.setPort rest).calls =
    s.calls := rfl
@[simp] theorem State.setPort_env (s : State) (rest : List Byte) : (s.setPort rest).env =
    s.env := rfl
@[simp] theorem State.setPort_draws (s : State) (rest : List Byte) : (s.setPort rest).draws =
    s.draws := rfl

/-! ### `enterArm` -/

@[simp] theorem State.enterArm_cfg (s : State) : (s.enterArm).cfg = s.cfg := rfl
@[simp] theorem State.enterArm_pc (s : State) : (s.enterArm).pc = .armIen := rfl
@[simp] theorem State.enterArm_opened (s : State) : (s.enterArm).opened = s.opened := rfl
@[simp] theorem State.enterArm_speed (s : State) : (s.enterArm).speed = s.speed := rfl
@[simp] theorem State.enterArm_busaddr (s : State) : (s.enterArm).busaddr = s.busaddr := rfl
@[simp] theorem State.enterArm_adv (s : State) : (s.enterArm).adv = s.adv := rfl
@[simp] theorem State.enterArm_x (s : State) : (s.enterArm).x =
    { s.x with irqEn := some (irqEnOf s.cfg (reg s.x.cmd)), waitIrq := some (waitIrqOf s.cfg (reg s.x.cmd)) } := rfl
@[simp] theorem State.enterArm_reqIn (s : State) : (s.enterArm).reqIn = s.reqIn := rfl
@[simp] theorem State.enterArm_rspOut (s : State) : (s.enterArm).rspOut = s.rspOut := rfl
@[simp] theorem State.enterArm_calls (s : State) : (s.enterArm).calls = s.calls := rfl
@[simp] theorem State.enterArm_env (s : State) : (s.enterArm).env = s.env := rfl
@[simp] theorem State.enterArm_draws (s : State) : (s.enterArm).draws = s.draws := rfl

/-! ### The value of a register that holds one -/

@[simp] theorem reg_some {α : Type} [Inhabited α] (v : α) : reg (some v) = v := rfl

end Sys2Proof.Machine
end

