-- ==== Sys2Proof/Laws/Ops.lean ====
section
/-!
SUPPORT. What the shared operations can do, said once: a transport call, a phase's transfer, a run.
-/
namespace Sys2Proof.Machine

/-! ### A transport call -/

/-- An answered call adds itself to the trace and otherwise touches the environment alone. -/
theorem State.call_some {s t : State} {c : Call} {ans : Answer} (h : s.call c = some (ans, t)) :
    ∃ env draws, s.env.answer s.draws c = some (ans, env, draws) ∧
      t = { s with env := env, draws := draws, calls := s.calls ++ [(c, ans)] } := by
  unfold State.call at h
  split at h
  · cases h
  · rename_i a env draws heq
    cases h
    exact ⟨env, draws, heq, rfl⟩

/-- A fair environment answers every call, and stays fair (R215). -/
theorem Env.fair_answer {e : Env} (h : e.fair = true) (d : Nat) (c : Call) :
    ∃ ans e' d', e.answer d c = some (ans, e', d') ∧ e'.fair = true := by
  unfold Env.answer
  cases e with
  | free l => cases l <;> exact ⟨_, _, _, rfl, rfl⟩
  | stuck l => simp [Env.fair] at h
  | replay m =>
    cases c with
    | openBus a sp => exact ⟨_, _, _, rfl, rfl⟩
    | closeBus => exact ⟨_, _, _, rfl, rfl⟩
    | xfer out => dsimp only; split <;> exact ⟨_, _, _, rfl, rfl⟩
  | scripted l =>
    cases c with
    | openBus a sp => exact ⟨_, _, _, rfl, rfl⟩
    | closeBus => exact ⟨_, _, _, rfl, rfl⟩
    | xfer out =>
      dsimp only
      split
      · split <;> exact ⟨_, _, _, rfl, rfl⟩
      · exact ⟨_, _, _, rfl, rfl⟩
      · exact ⟨_, _, _, rfl, rfl⟩

/-- A call in a fair environment is answered. -/
theorem State.call_fair {s : State} (h : s.env.fair = true) (c : Call) :
    ∃ ans t, s.call c = some (ans, t) ∧ t.env.fair = true := by
  obtain ⟨ans, e, d, he, hf⟩ := Env.fair_answer h s.draws c
  exact ⟨ans, { s with env := e, draws := d, calls := s.calls ++ [(c, ans)] },
    by simp [State.call, he], hf⟩

/-! ### The mock's memory -/

theorem Memory.wf_cons {k : Nat} {v : Byte} {m : Memory} :
    Memory.wf ((k, v) :: m) = true ↔
      k < 64 ∧ v ≠ 0#8 ∧ (∀ c ∈ m, k < c.1) ∧ Memory.wf m = true := by
  simp [Memory.wf, and_assoc]

/-- A key below every key of the memory stays below every key after a write above it. -/
theorem Memory.write_above {m : Memory} {k a : Nat} {v : Byte} (hm : ∀ c ∈ m, k < c.1) (ha : k < a) :
    ∀ c ∈ m.write a v, k < c.1 := by
  induction m with
  | nil =>
    intro c hc
    simp only [Memory.write] at hc
    split at hc <;> simp_all
  | cons p m ih =>
    obtain ⟨j, w⟩ := p
    simp only [List.mem_cons, forall_eq_or_imp] at hm
    intro c hc
    simp only [Memory.write] at hc
    split at hc
    · split at hc
      · rcases List.mem_cons.1 hc with rfl | h
        · exact hm.1
        · exact hm.2 c h
      · rcases List.mem_cons.1 hc with rfl | h
        · exact ha
        · rcases List.mem_cons.1 h with rfl | h
          · exact hm.1
          · exact hm.2 c h
    · split at hc
      · split at hc
        · exact hm.2 c hc
        · rcases List.mem_cons.1 hc with rfl | h
          · exact ha
          · exact hm.2 c h
      · rcases List.mem_cons.1 hc with rfl | h
        · exact hm.1
        · exact ih hm.2 c h

/-- A write keeps the canonical form. -/
theorem Memory.write_wf {m : Memory} {a : Nat} {v : Byte} (h : m.wf = true) (ha : a < 64) :
    (m.write a v).wf = true := by
  induction m with
  | nil =>
    simp only [Memory.write]
    split
    · rfl
    · rename_i hv
      simp [Memory.wf, hv, ha]
  | cons p m ih =>
    obtain ⟨k, w⟩ := p
    obtain ⟨hk, hw, hlt, hm⟩ := Memory.wf_cons.1 h
    simp only [Memory.write]
    split
    · rename_i hak
      split
      · exact h
      · rename_i hv
        refine Memory.wf_cons.2 ⟨ha, hv, ?_, h⟩
        intro c hc
        rcases List.mem_cons.1 hc with rfl | hc
        · exact hak
        · exact lt_trans hak (hlt c hc)
    · split
      · rename_i hak hk'
        subst hk'
        split
        · exact hm
        · rename_i hv
          exact Memory.wf_cons.2 ⟨hk, hv, hlt, hm⟩
      · rename_i hak hk'
        exact Memory.wf_cons.2 ⟨hk, hw,
          Memory.write_above hlt (by omega), ih hm⟩

/-- Reading after a write: the byte written, and every other cell as before. -/
theorem Memory.read_write {m : Memory} {a b : Nat} {v : Byte} (h : m.wf = true) :
    (m.write a v).read b = if b = a then v else m.read b := by
  induction m with
  | nil =>
    simp only [Memory.write, Memory.read]
    split
    · rename_i hv
      simp [Memory.read, hv]
    · simp only [Memory.read, eq_comm]
  | cons p m ih =>
    obtain ⟨k, w⟩ := p
    obtain ⟨hk, hw, hlt, hm⟩ := Memory.wf_cons.1 h
    have below : ∀ j, j ≤ k → Memory.read m j = 0#8 := by
      intro j hj
      clear ih hm h
      induction m with
      | nil => rfl
      | cons q m ihm =>
        obtain ⟨i, u⟩ := q
        have hi := hlt (i, u) (by simp)
        simp only [Memory.read]
        rw [if_neg (by simp at hi; omega)]
        exact ihm (fun c hc => hlt c (List.mem_cons_of_mem _ hc))
    simp only [Memory.write]
    split
    · rename_i hak
      split
      · rename_i hv
        split
        · rename_i hb
          subst hb hv
          simp only [Memory.read]
          rw [if_neg (by omega), below b (by omega)]
        · rfl
      · simp only [Memory.read, eq_comm]
    · split
      · rename_i hak hk'
        subst hk'
        split
        · rename_i hv
          split
          · rename_i hb
            subst hb hv
            exact below b (le_refl _)
          · rename_i hb
            simp only [Memory.read]
            rw [if_neg (fun h => hb h.symm)]
        · simp only [Memory.read, eq_comm]
          split <;> simp_all
      · rename_i hak hk'
        simp only [Memory.read, ih hm]
        split
        · rename_i hkb
          rw [if_neg (by omega)]
        · rfl

/-- Answering keeps the mock's memory in canonical form. -/
theorem Env.answer_cells {e e' : Env} {d d' : Nat} {c : Call} {ans : Answer}
    (h : e.answer d c = some (ans, e', d')) (hw : Memory.wf e.cells = true) :
    Memory.wf e'.cells = true := by
  unfold Env.answer at h
  cases e with
  | free l => cases l <;> (simp at h; obtain ⟨-, rfl, -⟩ := h; rfl)
  | stuck l => cases l <;> simp at h; obtain ⟨-, rfl, -⟩ := h; rfl
  | replay m =>
    cases c with
    | openBus a sp => simp at h; obtain ⟨-, rfl, -⟩ := h; exact hw
    | closeBus => simp at h; obtain ⟨-, rfl, -⟩ := h; exact hw
    | xfer out =>
      simp only at h
      split at h
      · simp at h; obtain ⟨-, rfl, -⟩ := h; exact hw
      · rename_i cell v heq
        simp at h; obtain ⟨-, rfl, -⟩ := h
        refine Memory.write_wf hw ?_
        unfold mockAccess at heq
        split at heq
        · split at heq
          · cases heq
          · injection heq with h1 h2
            subst h1
            exact (wireAddr _).isLt
        · cases heq
      · simp at h; obtain ⟨-, rfl, -⟩ := h; exact hw
  | scripted l =>
    cases c with
    | openBus a sp => simp at h; obtain ⟨-, rfl, -⟩ := h; exact hw
    | closeBus => simp at h; obtain ⟨-, rfl, -⟩ := h; exact hw
    | xfer out =>
      simp only at h
      split at h
      · split at h <;> (simp at h; obtain ⟨-, rfl, -⟩ := h; exact hw)
      · simp at h; obtain ⟨-, rfl, -⟩ := h; exact hw
      · simp at h; obtain ⟨-, rfl, -⟩ := h; exact hw

end Sys2Proof.Machine
end

