-- ==== Sys2Proof/Laws/Invariant.lean ====
section
/-!
SUPPORT. One phase keeps the invariant and never reads a register without a value (R26, R27): the
lemmas about `tick` and about a run.
-/
namespace Sys2Proof.Machine

/-- A state's phase invariant. -/
abbrev State.PhaseOk (s : State) : Prop := PhaseInv s.cfg s.opened s.x s.pc

theorem drainCount_pos {c : Cfg} (h : c.wf = true) (n : Byte) : 0 < (drainCount c n).toNat := by
  have hm : c.maxLen ≠ 0#8 := by
    simp [Cfg.wf] at h; exact h.1.1.2
  have hm' : 0 < c.maxLen.toNat := by
    have : c.maxLen.toNat ≠ 0 := fun h0 => hm (BitVec.eq_of_toNat_eq (by simpa using h0))
    omega
  unfold drainCount
  by_cases hn : n = 0#8
  · simp only [hn, if_true]
    split
    · decide
    · exact hm'
  · have : n.toNat ≠ 0 := fun h0 => hn (BitVec.eq_of_toNat_eq (by simpa using h0))
    simp only [hn, if_false]
    split <;> omega

theorem drainCount_le (c : Cfg) (n : Byte) : (drainCount c n).toNat ≤ c.maxLen.toNat := by
  unfold drainCount
  generalize (if n = 0#8 then 1#8 else n) = low
  dsimp only
  split
  · rename_i h
    simpa [BitVec.ule] using h
  · exact le_refl _

/-- The drain count is `min(max(n, 1), MAX_LEN)` (R151). -/
theorem drainCount_toNat (c : Cfg) (n : Byte) (h : c.wf = true) :
    (drainCount c n).toNat = min (max n.toNat 1) c.maxLen.toNat := by
  have hm : c.maxLen ≠ 0#8 := by
    simp [Cfg.wf] at h; exact h.1.1.2
  have hm' : c.maxLen.toNat ≠ 0 := fun h0 => hm (BitVec.eq_of_toNat_eq (by simpa using h0))
  unfold drainCount
  by_cases hn : n = 0#8
  · simp [hn, BitVec.ule]
    split <;> simp <;> omega
  · have : n.toNat ≠ 0 := fun h0 => hn (BitVec.eq_of_toNat_eq (by simpa using h0))
    simp only [hn, if_false, BitVec.ule, decide_eq_true_eq]
    split <;> omega

theorem pollBudget_pos {c : Cfg} (h : c.wf = true) : 0 < c.pollBudget.toNat := by
  have hm : c.pollBudget ≠ 0#16 := by
    simp [Cfg.wf] at h; exact h.1.2
  have : c.pollBudget.toNat ≠ 0 := fun h0 => hm (BitVec.eq_of_toNat_eq (by simpa using h0))
  omega

theorem resolvedStatus_ne (c : Cfg) (v e : Byte) : resolvedStatus c v e ≠ .genericError := by
  unfold resolvedStatus; split <;> simp

/-- Where a termination bit was seen, the literal rule never leaves `Ok` (R149). -/
theorem resolvedStatus_literal {c : Cfg} {v w e : Byte} (hl : c.noTagRule = .literal)
    (ht : termBit v w = true) : resolvedStatus c v e ≠ .ok := by
  have hv : v ≠ 0#8 := by
    rintro rfl
    simp [termBit] at ht
  simp [resolvedStatus, noTag, hl, hv]

theorem storeAt_end {l : List Byte} {i : Nat} (h : l.length = i) (e : Byte) :
    storeAt l i e = l ++ [e] := by
  subst h; simp [storeAt]

/-- The engine runs for an operation. -/
theorem EngineRegs.op_isSome {c : Cfg} {x : Work} (h : EngineRegs c x) : x.op.isSome := by
  rcases h.op with h | h <;> simp [h]

/-- The triple of an engine that has ended has its bytes in the buffer. -/
theorem EngineTriple.rlen_le {c : Cfg} {x : Work} (h : EngineTriple c x) :
    (reg x.rlen).toNat ≤ x.resp.length := by rw [h.bytes]

/-- The engine's end, from registers that hold a triple. -/
theorem State.engineEnd_phase {s : State} (ho : s.opened = true) (he : EngineRegs s.cfg s.x)
    (ht : EngineTriple s.cfg s.x) : s.engineEnd.PhaseOk := by
  unfold State.engineEnd
  split
  · rename_i h
    exact ⟨ho, h, he, ht⟩
  · rename_i h
    have hop : s.x.op = some .exec := he.op.resolve_right h
    exact ⟨he.op_isSome, rfl, by simp [hop, returnsVal],
      fun _ => ⟨⟨he.1, he.2, he.3, he.4, he.5, he.6, he.7, he.8⟩,
        ⟨ht.1, ht.2, ht.3, ht.4, ht.5, ht.6, ht.7, ht.8⟩⟩⟩

theorem State.engineFail_phase {s : State} (ho : s.opened = true) (he : EngineRegs s.cfg s.x)
    (hr : s.x.resp = []) : s.engineFail.PhaseOk := by
  refine State.engineEnd_phase ho ⟨he.1, he.2, he.3, he.4, he.5, he.6, he.7, he.8⟩
    ⟨rfl, rfl, rfl, by simp [hr], fun _ => ⟨rfl, rfl⟩, ?_, ?_, ?_⟩ <;> simp

theorem State.polled_phase {s : State} (hp : s.pc = .poll) (h : s.PhaseOk) (e : Byte) :
    (s.polled e).PhaseOk := by
  simp only [State.PhaseOk, hp, PhaseInv] at h
  obtain ⟨ho, he, hn, hr, h0, hb⟩ := h
  obtain ⟨r, hr'⟩ := Option.isSome_iff_exists.1 hr
  simp only [hr', reg_some] at h0 hb
  unfold State.polled
  split
  · rename_i ht
    refine ⟨ho, ⟨he.1, he.2, he.3, he.4, he.5, he.6, he.7, he.8⟩, ⟨hn.1, hn.2, hn.3, hn.4⟩, hr, rfl, ?_⟩
    simp only [State.goto_x, State.setX_x, hr', reg_some, ht]
    constructor
    · rintro rfl; simp at h0
    · simp
  · rename_i ht
    have hsub : (r - 1#16).toNat = r.toNat - 1 := by
      have := r.isLt
      rw [BitVec.toNat_sub]; simp; omega
    simp only [hr', reg_some]
    split
    · rename_i hz
      refine ⟨ho, ⟨he.1, he.2, he.3, he.4, he.5, he.6, he.7, he.8⟩, ⟨hn.1, hn.2, hn.3, hn.4⟩, rfl, rfl, ?_⟩
      simp only [State.goto_x, State.setX_x, reg_some, hz]
      simpa using ht
    · rename_i hz
      refine ⟨ho, ⟨he.1, he.2, he.3, he.4, he.5, he.6, he.7, he.8⟩, ⟨hn.1, hn.2, hn.3, hn.4⟩, rfl, ?_, ?_⟩
      · have : (r - 1#16).toNat ≠ 0 := fun h0 => hz (BitVec.eq_of_toNat_eq (by simpa using h0))
        simp only [State.goto_x, State.setX_x, reg_some]; omega
      · simp only [State.goto_x, State.setX_x, State.goto_cfg, State.setX_cfg, reg_some]; omega

theorem State.errorRead_phase {s : State} (hp : s.pc = .errRd) (h : s.PhaseOk) (e : Byte) :
    (s.errorRead e).PhaseOk := by
  simp only [State.PhaseOk, hp, PhaseInv] at h
  obtain ⟨ho, he, hn, hi, ht⟩ := h
  unfold State.errorRead
  dsimp only
  split
  · exact State.engineFail_phase ho ⟨he.1, he.2, he.3, he.4, he.5, he.6, he.7, he.8⟩ hn.resp
  · split
    · rename_i htrx
      exact ⟨ho, ⟨he.1, he.2, he.3, he.4, he.5, he.6, he.7, he.8⟩, htrx,
        ⟨rfl, fun h => resolvedStatus_ne _ _ _ (Option.some.inj h),
          fun hl h => resolvedStatus_literal hl ht (Option.some.inj h)⟩, hn.resp⟩
    · rename_i htrx
      refine State.engineEnd_phase ho ⟨he.1, he.2, he.3, he.4, he.5, he.6, he.7, he.8⟩
        ⟨rfl, rfl, rfl, by simp [hn.resp], fun h => absurd (Option.some.inj h) (resolvedStatus_ne _ _ _),
          fun _ _ => ⟨rfl, rfl⟩, fun _ h => absurd h htrx,
          fun hl h => resolvedStatus_literal hl ht (Option.some.inj h)⟩

theorem State.controlRead_phase {s : State} (hc : s.cfg.wf = true) (hp : s.pc = .ctrlRd)
    (h : s.PhaseOk) (e : Byte) : (s.controlRead e).PhaseOk := by
  simp only [State.PhaseOk, hp, PhaseInv] at h
  obtain ⟨ho, he, htrx, hs, hr, hn⟩ := h
  refine ⟨ho, ⟨he.1, he.2, he.3, he.4, he.5, he.6, he.7, he.8⟩, htrx, ⟨hs.1, hs.2, hs.3⟩, rfl, hn, rfl, rfl, rfl, ?_, ?_⟩
  · simpa [State.controlRead] using hr
  · simpa [State.controlRead] using drainCount_pos hc (reg s.x.n)

theorem State.drained_phase {s : State} (hp : s.pc = .drain) (h : s.PhaseOk) (e : Byte) :
    (s.drained e).PhaseOk := by
  simp only [State.PhaseOk, hp, PhaseInv] at h
  obtain ⟨ho, he, htrx, hs, hb, hn, hnc, hd, hrl, hlen, hlt⟩ := h
  obtain ⟨d, hd'⟩ := Option.isSome_iff_exists.1 hd
  have hle := drainCount_le s.cfg (reg s.x.n)
  simp only [hd', hnc, reg_some] at hlen hlt
  have hlt' := (drainCount s.cfg (reg s.x.n)).isLt
  have hadd : (d + 1#8).toNat = d.toNat + 1 := by
    rw [BitVec.toNat_add]; simp; omega
  unfold State.drained
  simp only [hd', reg_some, hnc, storeAt_end hlen]
  split
  · rename_i hu
    refine ⟨ho, ⟨he.1, he.2, he.3, he.4, he.5, he.6, he.7, he.8⟩, htrx, ⟨hs.1, hs.2, hs.3⟩, hb, hn, rfl, rfl, rfl, ?_, ?_⟩
    · simp [hlen, hadd]
    · simpa [BitVec.ult] using hu
  · rename_i hu
    have hu' : (drainCount s.cfg (reg s.x.n)).toNat = d.toNat + 1 := by
      simp [BitVec.ult] at hu; omega
    refine State.engineEnd_phase ho ⟨he.1, he.2, he.3, he.4, he.5, he.6, he.7, he.8⟩
      ⟨hs.1, hb, rfl, ?_, fun h => absurd h hs.2, fun _ hx => absurd hx (by simp [htrx]), ?_, hs.3⟩
    · simp [hlen, hadd]
    · intro _ _
      simp only [State.setX_x, reg_some, hadd, State.setX_cfg]
      omega

/-- A write phase's good answer leads to a phase whose registers are as it has them (R156). -/
theorem State.afterWrite_phase {s : State} {a : BitVec 6} {d : Byte} (hc : s.cfg.wf = true)
    (h : s.PhaseOk) (hf : s.frameDue = some (.write a d)) : s.afterWrite.PhaseOk := by
  have hb := pollBudget_pos hc
  unfold State.frameDue at hf
  unfold State.afterWrite
  cases hp : s.pc <;> simp only [hp, frameOf, reduceCtorEq, Option.some.injEq, readFrame] at hf <;>
    simp only [State.PhaseOk, hp, PhaseInv] at h
  case wr =>
    obtain ⟨_, hop, _, _, hn⟩ := h
    exact ⟨by simp [hop], rfl, by simp [hop, returnsVal], by simp [hop, returnsTriple]⟩
  case rmwWr =>
    obtain ⟨_, hop, _, _, _, hn⟩ := h
    refine ⟨?_, rfl, ?_, ?_⟩ <;> rcases hop with hop | hop <;> simp [hop, returnsVal, returnsTriple]
  case rqFrame =>
    obtain ⟨ho, hop, _, hn, hk, hb, hl⟩ := h
    refine ⟨ho, ⟨.inr hop, ?_, fun _ => hk, ?_, ?_, ?_, rfl, rfl⟩, ⟨hn.1, hn.2, hn.3, hn.4⟩⟩ <;>
      simp [State.enterArm, hk, hb, hl]
  case armIen => obtain ⟨ho, he, hn⟩ := h; exact ⟨ho, he, hn⟩
  case armIrqWr => obtain ⟨ho, he, hn, _⟩ := h; exact ⟨ho, he, hn⟩
  case armFlushWr => obtain ⟨ho, he, hn, _⟩ := h; exact ⟨ho, he, hn⟩
  case forceIdle =>
    obtain ⟨ho, he, hn⟩ := h
    dsimp only
    split
    · exact ⟨ho, ⟨he.1, he.2, he.3, he.4, he.5, he.6, he.7, he.8⟩, ⟨hn.1, hn.2, hn.3, hn.4⟩⟩
    · rename_i hl
      refine ⟨ho, ⟨he.1, he.2, he.3, he.4, he.5, he.6, he.7, he.8⟩, ⟨hn.1, hn.2, hn.3, hn.4⟩, rfl, ?_⟩
      have : (reg s.x.plen).toNat ≠ 0 := fun h0 => hl (BitVec.eq_of_toNat_eq (by simpa using h0))
      simp only [State.goto_x, State.setX_x, reg_some, BitVec.toNat_ofNat]
      omega
  case load =>
    obtain ⟨ho, he, hn, hi, hl⟩ := h
    obtain ⟨i, hi'⟩ := Option.isSome_iff_exists.1 hi
    dsimp only
    split
    · rename_i hu
      refine ⟨ho, ⟨he.1, he.2, he.3, he.4, he.5, he.6, he.7, he.8⟩, ⟨hn.1, hn.2, hn.3, hn.4⟩, rfl, ?_⟩
      simpa [BitVec.ult] using hu
    · exact ⟨ho, ⟨he.1, he.2, he.3, he.4, he.5, he.6, he.7, he.8⟩, ⟨hn.1, hn.2, hn.3, hn.4⟩⟩
  case execute =>
    obtain ⟨ho, he, hn⟩ := h
    dsimp only
    split
    · rename_i htrx
      exact ⟨ho, he, hn, htrx⟩
    · exact ⟨ho, ⟨he.1, he.2, he.3, he.4, he.5, he.6, he.7, he.8⟩, ⟨hn.1, hn.2, hn.3, hn.4⟩, rfl, hb, le_refl _⟩
  case startWr =>
    obtain ⟨ho, he, hn, _⟩ := h
    exact ⟨ho, ⟨he.1, he.2, he.3, he.4, he.5, he.6, he.7, he.8⟩, ⟨hn.1, hn.2, hn.3, hn.4⟩, rfl, hb, le_refl _⟩
  case stopWr =>
    obtain ⟨ho, he, hn, hr, hi, hiff, _⟩ := h
    dsimp only
    split
    · exact State.engineFail_phase ho he hn.resp
    · rename_i hz
      refine ⟨ho, he, hn, hi, ?_⟩
      simpa using fun h => hz (hiff.2 h)

/-- A read phase's byte leads to a phase whose registers are as it has them (R156). -/
theorem State.afterRead_phase {s : State} {a : BitVec 6} (hc : s.cfg.wf = true)
    (h : s.PhaseOk) (hf : s.frameDue = some (.read a)) (e : Byte) : (s.afterRead e).PhaseOk := by
  unfold State.frameDue at hf
  unfold State.afterRead
  cases hp : s.pc <;> simp only [hp, frameOf, reduceCtorEq, Option.some.injEq, writeFrame] at hf
  case poll => exact State.polled_phase hp h e
  case errRd => exact State.errorRead_phase hp h e
  case ctrlRd => exact State.controlRead_phase hc hp h e
  case drain => exact State.drained_phase hp h e
  all_goals simp only [State.PhaseOk, hp, PhaseInv] at h
  case rd =>
    obtain ⟨_, hop, _, hn⟩ := h
    exact ⟨by simp [hop], rfl, fun _ => rfl, by simp [hop, returnsTriple]⟩
  case rmwRd =>
    obtain ⟨ho, hop, ha, hv, hn⟩ := h
    exact ⟨ho, hop, ha, hv, rfl, ⟨hn.1, hn.2, hn.3, hn.4⟩⟩
  case lvlRd =>
    obtain ⟨ho, he, ht, hs, hr⟩ := h
    exact ⟨ho, ⟨he.1, he.2, he.3, he.4, he.5, he.6, he.7, he.8⟩, ht, ⟨hs.1, hs.2, hs.3⟩, hr, rfl⟩
  case armIrqRd =>
    obtain ⟨ho, he, hn⟩ := h
    exact ⟨ho, ⟨he.1, he.2, he.3, he.4, he.5, he.6, he.7, he.8⟩, ⟨hn.1, hn.2, hn.3, hn.4⟩, rfl⟩
  case armFlushRd =>
    obtain ⟨ho, he, hn⟩ := h
    exact ⟨ho, ⟨he.1, he.2, he.3, he.4, he.5, he.6, he.7, he.8⟩, ⟨hn.1, hn.2, hn.3, hn.4⟩, rfl⟩
  case startRd =>
    obtain ⟨ho, he, hn, ht⟩ := h
    exact ⟨ho, ⟨he.1, he.2, he.3, he.4, he.5, he.6, he.7, he.8⟩, ⟨hn.1, hn.2, hn.3, hn.4⟩, ht, rfl⟩
  case stopRd =>
    obtain ⟨ho, he, hn, hr, hi, hiff⟩ := h
    exact ⟨ho, ⟨he.1, he.2, he.3, he.4, he.5, he.6, he.7, he.8⟩, ⟨hn.1, hn.2, hn.3, hn.4⟩, hr, hi, hiff, rfl⟩

theorem State.raise_phase (s : State) (e : Res) (short : Bool) : (s.raise e short).PhaseOk :=
  ⟨rfl, rfl⟩

/-- In every phase the registers it reads hold values (R27). -/
theorem State.holds_of_phase {s : State} (h : s.PhaseOk) : s.x.holds s.cfg s.pc = true := by
  unfold Work.holds
  cases hp : s.pc <;> simp only [State.PhaseOk, hp, PhaseInv] at h
  case ready => rfl
  case rmwRd => rcases h with ⟨_, hop | hop, h⟩ <;> simp [hop, h]
  case rmwWr => rcases h with ⟨_, hop | hop, h⟩ <;> simp [hop, h]
  case armIen => simp [h.2.1.op_isSome, h.2.1.cmd, h.2.1.irqEn]
  case armIrqRd => exact h.2.1.op_isSome
  case armIrqWr => simp [h, h.2.1.op_isSome]
  case armFlushRd => exact h.2.1.op_isSome
  case armFlushWr => simp [h, h.2.1.op_isSome]
  case forceIdle => simp [h.2.1.op_isSome, h.2.1.plen]
  case load => simp [h, h.2.1.op_isSome, h.2.1.plen, h.2.1.payload, h.2.1.length]
  case execute => simp [h.2.1.op_isSome, h.2.1.cmd]
  case startRd => exact h.2.1.op_isSome
  case startWr => simp [h, h.2.1.op_isSome]
  case poll => simp [h, h.2.1.op_isSome, h.2.1.waitIrq]
  case stopRd => exact h.2.1.op_isSome
  case stopWr => simp [h, h.2.1.op_isSome]
  case errRd => simp [h, h.2.1.op_isSome, h.2.1.cmd, h.2.1.irqEn]
  case lvlRd => exact h.2.1.op_isSome
  case ctrlRd => simp [h, h.2.1.op_isSome]
  case drain =>
    obtain ⟨ho, he, htrx, hs, hb, hn, hnc, hd, hrl, hlen, hlt⟩ := h
    have hle := drainCount_le s.cfg (reg s.x.n)
    simp only [hnc, reg_some] at hlt
    simp [he.op_isSome, hnc, hd, hlen, BitVec.ult]
    omega
  case rqCheck => simp [h.2.1, h.2.2.2.status, h.2.2.2.bitLen]
  case done =>
    obtain ⟨hop, hr, hv, ht⟩ := h
    have hv' : (!returnsVal s.x.op || s.x.val.isSome) = true := by
      cases hb : returnsVal s.x.op <;> simp [hv, hb]
    cases hb : returnsTriple s.x.op
    · simp [hop, hr, hv']
    · have ht := (ht hb).2
      simp [hop, hr, hv', ht.status, ht.bitLen, ht.rlen, ht.rlen_le]
  all_goals simp [h]

theorem State.opened_of_frame {s : State} {f : Frame} (h : s.PhaseOk) (hf : s.frameDue = some f) :
    s.opened = true := by
  unfold State.frameDue at hf
  cases hp : s.pc <;> simp only [hp, frameOf, reduceCtorEq] at hf <;>
    simp only [State.PhaseOk, hp, PhaseInv] at h <;> exact h.1

/-! ### A phase -/

/-- The fields a transport call leaves alone. -/
theorem State.call_keeps {s t : State} {c : Call} {ans : Answer} (h : s.call c = some (ans, t)) :
    t.cfg = s.cfg ∧ t.pc = s.pc ∧ t.opened = s.opened ∧ t.speed = s.speed ∧
      t.busaddr = s.busaddr ∧ t.adv = s.adv ∧ t.x = s.x ∧ t.reqIn = s.reqIn ∧
      t.rspOut = s.rspOut ∧ t.calls = s.calls ++ [(c, ans)] := by
  obtain ⟨env, draws, -, rfl⟩ := State.call_some h
  exact ⟨rfl, rfl, rfl, rfl, rfl, rfl, rfl, rfl, rfl, rfl⟩

/-- A call keeps the invariant. -/
theorem State.call_inv {s t : State} {c : Call} {ans : Answer} (h : s.call c = some (ans, t))
    (hi : Inv s) : Inv t := by
  obtain ⟨env, draws, he, rfl⟩ := State.call_some h
  exact ⟨hi.cfg, Env.answer_cells he hi.cells, hi.busaddr, hi.idle, hi.phase⟩

/-- What a phase that calls the transport does keeps the invariant if every continuation does. -/
theorem State.calling_inv {s : State} {c : Call} {k : Answer → State → State} (hi : Inv s)
    (hk : ∀ ans t, s.call c = some (ans, t) → Inv t → Inv (k ans t)) : Inv (s.calling c k) := by
  unfold State.calling
  cases hc : s.call c with
  | none => exact hi
  | some p => exact hk _ _ hc (State.call_inv hc hi)

/-- Changing registers and phase keeps the rest of the invariant. -/
theorem Inv.of_phase {s t : State} (hi : Inv s) (hc : t.cfg = s.cfg) (he : t.env = s.env)
    (hb : t.busaddr.length ≤ addrMax) (hid : t.pc ≠ .ready) (hp : t.PhaseOk) : Inv t :=
  ⟨hc ▸ hi.cfg, he ▸ hi.cells, hb, fun h => absurd h hid, hp⟩

end Sys2Proof.Machine
end

