-- ==== Sys2Proof/Laws/Tick.lean ====
section
/-!
SUPPORT. What one phase can do, said once, and that it keeps the invariant (R26, R27).
-/
namespace Sys2Proof.Machine

/-- Only the phase register and the working registers differ, and the phase is not `P_READY`. -/
def RegsOnly (s t : State) : Prop := ∃ p x, t = { s with pc := p, x := x } ∧ p ≠ .ready

theorem State.engineEnd_regsOnly (s : State) : RegsOnly s s.engineEnd := by
  unfold State.engineEnd; split <;> exact ⟨_, _, rfl, by simp⟩

theorem RegsOnly.setX {s t : State} {x : Work} (h : RegsOnly (s.setX x) t) : RegsOnly s t := by
  obtain ⟨p, x, rfl, hp⟩ := h; exact ⟨p, x, rfl, hp⟩

theorem State.engineFail_regsOnly (s : State) : RegsOnly s s.engineFail :=
  (State.engineEnd_regsOnly _).setX

theorem State.afterWrite_regsOnly {s : State} (h : s.pc ≠ .ready) : RegsOnly s s.afterWrite := by
  unfold State.afterWrite
  cases hp : s.pc <;> dsimp only
  case ready => exact absurd hp h
  case stopWr =>
    split
    · exact State.engineFail_regsOnly s
    · exact ⟨_, _, rfl, by simp⟩
  case forceIdle => exact ⟨_, _, rfl, by split <;> simp⟩
  case load => exact ⟨_, _, rfl, by split <;> simp⟩
  case execute => split <;> exact ⟨_, _, rfl, by simp⟩
  all_goals first
    | exact ⟨s.pc, s.x, rfl, h⟩
    | exact ⟨_, _, rfl, by simp⟩

theorem State.afterRead_regsOnly {s : State} (h : s.pc ≠ .ready) (e : Byte) :
    RegsOnly s (s.afterRead e) := by
  unfold State.afterRead
  cases hp : s.pc <;> dsimp only
  case ready => exact absurd hp h
  case poll =>
    unfold State.polled
    split
    · exact ⟨_, _, rfl, by simp⟩
    · exact ⟨_, _, rfl, by split <;> simp⟩
  case errRd =>
    unfold State.errorRead
    dsimp only
    split
    · exact (State.engineFail_regsOnly _).setX
    · split
      · exact ⟨_, _, rfl, by simp⟩
      · exact (State.engineEnd_regsOnly _).setX.setX
  case drain =>
    unfold State.drained
    dsimp only
    split
    · exact ⟨_, _, rfl, by simp⟩
    · exact (State.engineEnd_regsOnly _).setX
  all_goals first
    | exact ⟨s.pc, s.x, rfl, h⟩
    | exact ⟨_, _, rfl, by simp⟩

theorem State.raise_regsOnly (s : State) (e : Res) (short : Bool) : RegsOnly s (s.raise e short) :=
  ⟨_, _, rfl, by simp⟩

theorem State.writeAnswered_regsOnly {s : State} (h : s.pc ≠ .ready) (ans : Answer) :
    RegsOnly s (State.writeAnswered ans s) := by
  cases ans with
  | ok bytes => exact State.afterWrite_regsOnly h
  | fail => exact State.raise_regsOnly _ _ _

/-- A read's answer changes registers and phase; where a tolerant read failed, the advisory flag is set
and one byte drawn as well (R124). -/
theorem State.readAnswered_cases {s : State} (h : s.pc ≠ .ready) (ans : Answer) :
    RegsOnly s (State.readAnswered ans s) ∨
      (readValue ans = none ∧ s.pc.tolerant = true ∧
        RegsOnly s.advise.afterDraw (State.readAnswered ans s)) := by
  unfold State.readAnswered
  split
  · exact .inl (State.afterRead_regsOnly h _)
  · rename_i hv
    split
    · rename_i ht
      exact .inr ⟨hv, ht, State.afterRead_regsOnly (s := s.advise.afterDraw) h _⟩
    · exact .inl (State.raise_regsOnly _ _ _)

theorem Inv.of_regsOnly {s t : State} (hi : Inv s) (h : RegsOnly s t) (hp : t.PhaseOk) : Inv t := by
  obtain ⟨p, x, rfl, hne⟩ := h
  exact ⟨hi.cfg, hi.cells, hi.busaddr, fun h => absurd h hne, hp⟩

theorem Inv.advise {s : State} (hi : Inv s) (h : s.pc ≠ .ready) : Inv s.advise.afterDraw :=
  ⟨hi.cfg, hi.cells, hi.busaddr, fun hr => absurd hr h, hi.phase⟩

theorem State.writeAnswered_inv {s : State} {a : BitVec 6} {d : Byte} (hi : Inv s)
    (hr : s.pc ≠ .ready) (hf : s.frameDue = some (.write a d)) (ans : Answer) :
    Inv (State.writeAnswered ans s) := by
  refine hi.of_regsOnly (State.writeAnswered_regsOnly hr ans) ?_
  cases ans with
  | ok bytes => exact State.afterWrite_phase hi.cfg hi.phase hf
  | fail => exact State.raise_phase _ _ _

theorem State.readAnswered_inv {s : State} {a : BitVec 6} (hi : Inv s)
    (hr : s.pc ≠ .ready) (hf : s.frameDue = some (.read a)) (ans : Answer) :
    Inv (State.readAnswered ans s) := by
  unfold State.readAnswered
  split
  · exact hi.of_regsOnly (State.afterRead_regsOnly hr _) (State.afterRead_phase hi.cfg hi.phase hf _)
  · split
    · exact (hi.advise hr).of_regsOnly (State.afterRead_regsOnly (s := s.advise.afterDraw) hr _)
        (State.afterRead_phase (s := s.advise.afterDraw) hi.cfg hi.phase hf _)
    · exact hi.of_regsOnly (State.raise_regsOnly _ _ _) (State.raise_phase _ _ _)

theorem State.frameDue_release {s : State} (hf : s.frameDue = some .release) : s.pc = .relWr := by
  unfold State.frameDue at hf
  cases hp : s.pc <;> simp [hp, frameOf, writeFrame, readFrame] at hf
  rfl

theorem State.releaseAnswered_inv {s : State} (hi : Inv s) (hf : s.frameDue = some .release)
    (ans : Answer) : Inv (State.releaseAnswered ans s) := by
  have hp := State.frameDue_release hf
  have h := hi.phase
  simp only [hp, PhaseInv] at h
  exact ⟨hi.cfg, hi.cells, hi.busaddr, fun h => by simp [State.releaseAnswered] at h,
    h.1, h.2.1, rfl, ⟨h.2.2.1, h.2.2.2, h.2.2.3, h.2.2.4⟩⟩

/-- A frame that is due runs, from every state that meets the invariant. -/
theorem State.issue_eq {s : State} {f : Frame} (hi : Inv s) (hf : s.frameDue = some f)
    (k : Answer → State → State) :
    s.issue f k = .next (s.calling (.xfer (f.bytes s.cfg)) k) := by
  have h1 := State.holds_of_phase hi.phase
  have h2 := State.opened_of_frame hi.phase hf
  simp [State.issue, h1, h2]

theorem State.issue_inv {s : State} {f : Frame} (hi : Inv s) (hf : s.frameDue = some f)
    (k : Answer → State → State)
    (hk : ∀ ans t, t.frameDue = some f → t.pc = s.pc → Inv t → Inv (k ans t)) :
    ∃ t, s.issue f k = .next t ∧ Inv t := by
  refine ⟨_, State.issue_eq hi hf k, State.calling_inv hi fun ans t hc ht => ?_⟩
  obtain ⟨env, draws, -, rfl⟩ := State.call_some hc
  exact hk ans _ hf rfl ht

theorem State.handOver_inv {s : State} (hi : Inv s) (frame : List Byte) : Inv (s.handOver frame) :=
  ⟨hi.cfg, hi.cells, hi.busaddr, fun _ => rfl, rfl⟩

theorem State.frameDue_ne_ready {s : State} {f : Frame} (hf : s.frameDue = some f) :
    s.pc ≠ .ready := by
  intro h
  simp [State.frameDue, h, frameOf] at hf

/-- A phase without a transfer runs and keeps the invariant. -/
theorem State.innerPhase_inv {s : State} (hi : Inv s) (hf : s.frameDue = none) :
    ∃ t, s.innerPhase = .next t ∧ Inv t := by
  have hh := State.holds_of_phase hi.phase
  have h := hi.phase
  unfold State.innerPhase State.phase
  unfold State.frameDue at hf
  cases hp : s.pc <;> simp only [hp, frameOf, reduceCtorEq] at hf <;> rw [hp] at hh <;>
    simp only [hp, PhaseInv] at h
  case ready => exact ⟨s, rfl, hi⟩
  case rqCheck =>
    simp only [hh, Bool.true_eq_false, if_false]
    refine ⟨_, rfl, ?_⟩
    obtain ⟨ho, hop, he, ht⟩ := h
    unfold State.requestChecked
    split <;>
      exact ⟨hi.cfg, hi.cells, hi.busaddr, fun h => by simp at h, he.op_isSome, rfl, fun _ => rfl, fun _ =>
        ⟨⟨he.1, he.2, he.3, he.4, he.5, he.6, he.7, he.8⟩,
          ⟨ht.1, ht.2, ht.3, ht.4, ht.5, ht.6, ht.7, ht.8⟩⟩⟩
  case openBus =>
    simp only [hh, Bool.true_eq_false, if_false]
    refine ⟨_, rfl, State.calling_inv hi fun ans t hc ht => ?_⟩
    obtain ⟨env, draws, -, rfl⟩ := State.call_some hc
    cases ans with
    | fail => exact ht.of_regsOnly (State.raise_regsOnly _ _ _) (State.raise_phase _ _ _)
    | ok bytes =>
      exact ⟨ht.cfg, ht.cells, h.2.2.2.2.1, fun h => by simp [State.openAnswered] at h,
        by simp [State.openAnswered, h.2.1], rfl, by simp [State.openAnswered, h.2.1, returnsVal],
        by simp [State.openAnswered, h.2.1, returnsTriple]⟩
  case closeBus =>
    simp only [hh, Bool.true_eq_false, if_false]
    refine ⟨_, rfl, State.calling_inv hi fun ans t hc ht => ?_⟩
    obtain ⟨env, draws, -, rfl⟩ := State.call_some hc
    exact ⟨ht.cfg, ht.cells, ht.busaddr, fun h => by simp [State.closeAnswered] at h,
      by simp [State.closeAnswered, h.2.1], rfl, by simp [State.closeAnswered, h.2.1, returnsVal],
      by simp [State.closeAnswered, h.2.1, returnsTriple]⟩
  case done =>
    simp only [hh, Bool.true_eq_false, if_false]
    exact ⟨_, rfl, State.handOver_inv hi _⟩
  case abort =>
    simp only [hh, Bool.true_eq_false, if_false]
    exact ⟨_, rfl, State.handOver_inv hi _⟩

/-- One phase, from every state that meets the invariant, goes on and keeps it (R27). -/
theorem State.tick_inv {s : State} (hi : Inv s) : ∃ t, s.tick = .next t ∧ Inv t := by
  unfold State.tick
  cases hf : s.frameDue with
  | none => exact State.innerPhase_inv hi hf
  | some f =>
    have hr := State.frameDue_ne_ready hf
    cases f with
    | write a d =>
      exact State.issue_inv hi hf _ fun ans t hf' hp ht =>
        State.writeAnswered_inv ht (hp ▸ hr) hf' ans
    | read a =>
      exact State.issue_inv hi hf _ fun ans t hf' hp ht =>
        State.readAnswered_inv ht (hp ▸ hr) hf' ans
    | release =>
      exact State.issue_inv hi hf _ fun ans t hf' hp ht =>
        State.releaseAnswered_inv ht hf' ans

/-- A phase that waits for its answer waits for any number of phases (R215). -/
theorem runFor_waiting (n : Nat) {s : State} (h : s.tick = .next s) : runFor n s = .next s := by
  induction n with
  | zero => rfl
  | succ n ih =>
    unfold runFor
    split
    · rfl
    · rw [h]; exact ih

/-- A run of phases goes on and keeps the invariant. -/
theorem runFor_inv (n : Nat) {s : State} (hi : Inv s) : ∃ t, runFor n s = .next t ∧ Inv t := by
  induction n generalizing s with
  | zero => exact ⟨s, rfl, hi⟩
  | succ n ih =>
    simp only [runFor]
    split
    · exact ⟨s, rfl, hi⟩
    · obtain ⟨t, ht, hti⟩ := State.tick_inv hi
      rw [ht]
      exact ih hti

/-- An operation's run, from every state that meets the invariant, goes on and keeps it. -/
theorem State.runOp_inv {s : State} (hi : Inv s) : ∃ t, s.runOp = .next t ∧ Inv t :=
  runFor_inv _ hi

end Sys2Proof.Machine
end

