-- ==== Sys2Proof/Laws/Program.lean ====
section
/-!
SUPPORT. Runs counted phase by phase, and the pseudocode's pieces against single phases.
-/
namespace Sys2Proof.Machine

/-! ### Counted runs -/

/-- `n` phases lead from `s` to `t`, none of them started in `P_READY`. -/
inductive Phases : Nat → State → State → Prop
  | refl (s : State) : Phases 0 s s
  | step {n : Nat} {s t u : State} (hr : s.pc ≠ .ready) (ht : s.tick = .next t)
      (h : Phases n t u) : Phases (n + 1) s u

theorem Phases.one {s t : State} (hr : s.pc ≠ .ready) (ht : s.tick = .next t) : Phases 1 s t :=
  .step hr ht (.refl t)

theorem Phases.trans {m n : Nat} {s t u : State} (h : Phases m s t) (h' : Phases n t u) :
    Phases (m + n) s u := by
  induction h with
  | refl s => simpa using h'
  | @step k s t _ hr ht _ ih =>
    have := Phases.step hr ht (ih h')
    rwa [show k + n + 1 = k + 1 + n by omega] at this

/-- A run long enough for the phases that lead to `P_READY` ends there. -/
theorem Phases.runFor {n N : Nat} {s t : State} (h : Phases n s t) (ht : t.pc = .ready)
    (hN : n ≤ N) : runFor N s = .next t := by
  induction h generalizing N with
  | refl s => cases N <;> simp [Machine.runFor, ht]
  | @step k s t u hr hs _ ih =>
    obtain ⟨N, rfl⟩ : ∃ M, N = M + 1 := ⟨N - 1, by omega⟩
    simp only [Machine.runFor, if_neg hr, hs]
    exact ih ht (by omega)

/-! ### The wire's address byte -/

/-- The six bits a frame carries give the address byte of the operand (R62, R93). -/
theorem encAddr_frame (a : Byte) : encAddr ((a.setWidth 6).setWidth 8) = encAddr a := by
  unfold encAddr
  ext i hi
  have : i = 0 ∨ i = 1 ∨ i = 2 ∨ i = 3 ∨ i = 4 ∨ i = 5 ∨ i = 6 ∨ i = 7 := by omega
  rcases this with rfl | rfl | rfl | rfl | rfl | rfl | rfl | rfl <;> simp

/-! ### A program leaves registers and phase alone -/

/-- The state with another phase and other working registers. -/
def State.regs (s : State) (p : Phase) (x : Work) : State := { s with pc := p, x := x }

namespace Pseudocode

/-- A program neither reads nor changes the phase register and the working registers. -/
def Uniform {α : Type} (p : Program α) : Prop :=
  ∀ (s : State) (q : Phase) (y : Work), p (s.regs q y) = ((p s).1, (p s).2.regs q y)

theorem Uniform.pure {α : Type} (v : α) : Uniform (Program.pure v) := fun _ _ _ => rfl

theorem Uniform.bind {α β : Type} {p : Program α} {f : α → Program β} (hp : Uniform p)
    (hf : ∀ v, Uniform (f v)) : Uniform (p.bind f) := by
  intro s q y
  simp only [Program.bind, hp s q y]
  rcases p s with ⟨v | e, t⟩
  · exact hf v t q y
  · rfl

theorem uniform_xfer (out : List Byte) : Uniform (xfer out) := by
  intro s q y
  simp only [xfer, State.call, State.regs]
  cases s.env.answer s.draws (.xfer out) <;> rfl

theorem uniform_memWrite (a v : Byte) : Uniform (memWrite a v) :=
  (uniform_xfer _).bind fun ans => by intro s q y; cases ans <;> rfl

theorem uniform_memRead (c : Cfg) (a : Byte) : Uniform (memRead c a) :=
  (uniform_xfer _).bind fun ans => by intro s q y; dsimp only; cases readValue ans <;> rfl

theorem uniform_tolerantRead (c : Cfg) (a : Byte) : Uniform (tolerantRead c a) :=
  (uniform_xfer _).bind fun ans => by intro s q y; dsimp only; cases readValue ans <;> rfl

theorem uniform_rmwSet (c : Cfg) (a m : Byte) : Uniform (rmwSet c a m) :=
  (uniform_tolerantRead c a).bind fun _ => uniform_memWrite _ _

theorem uniform_rmwClr (c : Cfg) (a m : Byte) : Uniform (rmwClr c a m) :=
  (uniform_tolerantRead c a).bind fun _ => uniform_memWrite _ _

theorem uniform_load (c : Cfg) (l : List Byte) : Uniform (load c l) := by
  induction l with
  | nil => exact Uniform.pure _
  | cons b l ih => exact (uniform_memWrite _ _).bind fun _ => ih

theorem uniform_poll (c : Cfg) (w : Byte) (n : Nat) : Uniform (poll c w n) := by
  induction n with
  | zero => exact Uniform.pure _
  | succ n ih =>
    refine (uniform_memRead _ _).bind fun v => ?_
    split
    · exact Uniform.pure _
    · exact ih

theorem uniform_drain (c : Cfg) (n : Nat) : Uniform (drain c n) := by
  induction n with
  | zero => exact Uniform.pure _
  | succ n ih =>
    exact (uniform_memRead _ _).bind fun _ => ih.bind fun _ => Uniform.pure _

/-- A program touches the environment, the trace, the draws and the advisory flag alone, and leaves a
fair environment fair. -/
structure Light (s t : State) : Prop where
  eq   : ∃ env draws calls adv, t = { s with env := env, draws := draws, calls := calls, adv := adv }
  fair : s.env.fair = true → t.env.fair = true

theorem Light.refl (s : State) : Light s s := ⟨⟨_, _, _, _, rfl⟩, id⟩

theorem Light.trans {s t u : State} (h : Light s t) (h' : Light t u) : Light s u := by
  obtain ⟨⟨e, d, c, a, rfl⟩, hf⟩ := h
  obtain ⟨⟨e', d', c', a', rfl⟩, hf'⟩ := h'
  exact ⟨⟨e', d', c', a', rfl⟩, fun h => hf' (hf h)⟩

theorem Light.call {s t : State} {c : Call} {ans : Answer} (h : s.call c = some (ans, t)) :
    Light s t := by
  refine ⟨?_, fun hf => ?_⟩
  · obtain ⟨e, d, -, rfl⟩ := State.call_some h
    exact ⟨e, d, _, _, rfl⟩
  · obtain ⟨ans', t', h', hf'⟩ := State.call_fair hf c
    rw [h] at h'
    cases h'
    exact hf'

/-- Every end of the program is light. -/
def Lightly {α : Type} (p : Program α) : Prop := ∀ s, Light s (p s).2

theorem Lightly.pure {α : Type} (v : α) : Lightly (Program.pure v) := fun s => Light.refl s

theorem Lightly.bind {α β : Type} {p : Program α} {f : α → Program β} (hp : Lightly p)
    (hf : ∀ v, Lightly (f v)) : Lightly (p.bind f) := by
  intro s
  have h := hp s
  simp only [Program.bind]
  rcases hps : p s with ⟨v | e, t⟩ <;> rw [hps] at h
  · exact h.trans (hf v t)
  · exact h

theorem lightly_xfer (out : List Byte) : Lightly (xfer out) := by
  intro s
  unfold xfer
  split
  · rename_i ans t h
    exact Light.call h
  · exact Light.refl s

theorem lightly_memWrite (a v : Byte) : Lightly (memWrite a v) :=
  (lightly_xfer _).bind fun ans => by intro s; cases ans <;> exact Light.refl s

theorem lightly_memRead (c : Cfg) (a : Byte) : Lightly (memRead c a) :=
  (lightly_xfer _).bind fun ans => by
    intro s; dsimp only; cases readValue ans <;> exact Light.refl s

theorem lightly_tolerantRead (c : Cfg) (a : Byte) : Lightly (tolerantRead c a) :=
  (lightly_xfer _).bind fun ans => by
    intro s; dsimp only
    cases readValue ans
    · exact ⟨⟨_, _, _, _, rfl⟩, id⟩
    · exact Light.refl s

theorem lightly_rmwSet (c : Cfg) (a m : Byte) : Lightly (rmwSet c a m) :=
  (lightly_tolerantRead c a).bind fun _ => lightly_memWrite _ _

theorem lightly_rmwClr (c : Cfg) (a m : Byte) : Lightly (rmwClr c a m) :=
  (lightly_tolerantRead c a).bind fun _ => lightly_memWrite _ _

theorem lightly_load (c : Cfg) (l : List Byte) : Lightly (load c l) := by
  induction l with
  | nil => exact Lightly.pure _
  | cons b l ih => exact (lightly_memWrite _ _).bind fun _ => ih

theorem lightly_poll (c : Cfg) (w : Byte) (n : Nat) : Lightly (poll c w n) := by
  induction n with
  | zero => exact Lightly.pure _
  | succ n ih =>
    refine (lightly_memRead _ _).bind fun v => ?_
    split
    · exact Lightly.pure _
    · exact ih

theorem lightly_drain (c : Cfg) (n : Nat) : Lightly (drain c n) := by
  induction n with
  | zero => exact Lightly.pure _
  | succ n ih =>
    exact (lightly_memRead _ _).bind fun _ => ih.bind fun _ => Lightly.pure _

end Pseudocode

/-! ### One phase against one primitive -/

open Pseudocode

/-- A frame with its registers and an open bus, in a fair environment: the transfer is answered. -/
theorem State.issue_fair {s : State} {f : Frame}
    (hh : s.x.holds s.cfg s.pc = true) (ho : s.opened = true) (hfair : s.env.fair = true)
    (k : Answer → State → State) :
    ∃ ans t, s.call (.xfer (f.bytes s.cfg)) = some (ans, t) ∧ s.issue f k = .next (k ans t) := by
  obtain ⟨ans, t, hc, -⟩ := State.call_fair hfair (.xfer (f.bytes s.cfg))
  exact ⟨ans, t, hc, by simp [State.issue, hh, ho, State.calling, hc]⟩

/-- `MemWrite` is one write phase (R120, R156). -/
theorem tick_memWrite {s : State} {a d : Byte} (hf : s.frameDue = some (writeFrame a d))
    (hh : s.x.holds s.cfg s.pc = true) (ho : s.opened = true) (hfair : s.env.fair = true) :
    s.tick = .next (match memWrite a d s with
      | (.value _, t) => t.afterWrite
      | (.transportError b, t) => t.raise .transportError b) := by
  obtain ⟨ans, t, hc, hi⟩ := State.issue_fair hh ho hfair State.writeAnswered
  have hx : s.tick = s.issue (writeFrame a d) State.writeAnswered := by
    simp only [State.tick, hf, writeFrame]
  rw [hx, hi]
  simp only [Frame.bytes, writeFrame, encAddr_frame] at hc
  simp only [memWrite, Program.bind, xfer, hc]
  cases ans <;> rfl

/-- `MemRead` is one read phase that is not tolerant (R121, R156). -/
theorem tick_memRead {s : State} {a : Byte} (hf : s.frameDue = some (readFrame a))
    (hh : s.x.holds s.cfg s.pc = true) (ho : s.opened = true) (hfair : s.env.fair = true)
    (ht : s.pc.tolerant = false) :
    s.tick = .next (match memRead s.cfg a s with
      | (.value e, t) => t.afterRead e
      | (.transportError b, t) => t.raise .transportError b) := by
  obtain ⟨ans, t, hc, hi⟩ := State.issue_fair hh ho hfair State.readAnswered
  have hx : s.tick = s.issue (readFrame a) State.readAnswered := by
    simp only [State.tick, hf, readFrame]
  have hpc : t.pc = s.pc := (State.call_keeps hc).2.1
  rw [hx, hi]
  simp only [Frame.bytes, readFrame, encAddr_frame] at hc
  simp only [memRead, Program.bind, xfer, hc, State.readAnswered, hpc, ht]
  cases readValue ans <;> simp

/-- The tolerant read is one tolerant read phase (R124, R156). -/
theorem tick_tolerantRead {s : State} {a : Byte} (hf : s.frameDue = some (readFrame a))
    (hh : s.x.holds s.cfg s.pc = true) (ho : s.opened = true) (hfair : s.env.fair = true)
    (ht : s.pc.tolerant = true) :
    ∃ e t, tolerantRead s.cfg a s = (.value e, t) ∧ s.tick = .next (t.afterRead e) := by
  obtain ⟨ans, t, hc, hi⟩ := State.issue_fair hh ho hfair State.readAnswered
  have hx : s.tick = s.issue (readFrame a) State.readAnswered := by
    simp only [State.tick, hf, readFrame]
  have hpc : t.pc = s.pc := (State.call_keeps hc).2.1
  rw [hx, hi]
  simp only [Frame.bytes, readFrame, encAddr_frame] at hc
  simp only [tolerantRead, Program.bind, xfer, hc, State.readAnswered, hpc, ht]
  cases readValue ans
  · exact ⟨_, _, rfl, by simp [State.drawn]⟩
  · exact ⟨_, _, rfl, rfl⟩

end Sys2Proof.Machine
end

