-- ==== Sys2Proof/Laws/Engine.lean ====
section
/-!
SUPPORT. The engine's phases against the pseudocode, piece by piece (R140 to R156): each program leads
the FSM from the phase where it starts to the phase where it ends.
-/
namespace Sys2Proof.Machine

open Pseudocode

/-! ### A program leads the FSM -/

/-- Where the FSM stands when a program has ended: at the phase and registers the value calls for, or
at `P_ABORT` with `TransportError` (R213). -/
def Ends {α : Type} (r : End α × State) (u : State) (Q : α → Phase → Work → Prop) : Prop :=
  match r with
  | (.value v, t) => ∃ q y, u = t.regs q y ∧ Q v q y
  | (.transportError b, t) =>
    ∃ y, u = t.regs .abort y ∧ y.res = some .transportError ∧ y.short = some b

/-- At most `n` phases take `s` to where the program's end has the FSM. -/
def Leads {α : Type} (n : Nat) (p : Program α) (s : State) (Q : α → Phase → Work → Prop) : Prop :=
  ∃ k u, k ≤ n ∧ Phases k s u ∧ Ends (p s) u Q

theorem Leads.mono {α : Type} {n m : Nat} {p : Program α} {s : State}
    {Q R : α → Phase → Work → Prop} (h : Leads n p s Q) (hn : n ≤ m)
    (hQ : ∀ v q y, Q v q y → R v q y) : Leads m p s R := by
  obtain ⟨k, u, hk, hp, he⟩ := h
  refine ⟨k, u, by omega, hp, ?_⟩
  rcases hps : p s with ⟨v | e, t⟩ <;> rw [hps] at he
  · obtain ⟨q, y, hu, hq⟩ := he
    exact ⟨q, y, hu, hQ _ _ _ hq⟩
  · exact he

theorem Leads.pure {α : Type} {v : α} {s : State} {Q : α → Phase → Work → Prop}
    (h : Q v s.pc s.x) : Leads 0 (Program.pure v) s Q :=
  ⟨0, s, le_refl _, .refl s, s.pc, s.x, rfl, h⟩

theorem Leads.bind {α β : Type} {m n : Nat} {p : Program α} {f : α → Program β} {s : State}
    {Q : α → Phase → Work → Prop} {R : β → Phase → Work → Prop} (hp : Leads m p s Q)
    (hl : Lightly p) (hu : ∀ v, Uniform (f v))
    (hf : ∀ v t q y, Light s t → Q v q y → Leads n (f v) (t.regs q y) R) :
    Leads (m + n) (p.bind f) s R := by
  obtain ⟨k, u, hk, hph, he⟩ := hp
  have hlight := hl s
  simp only [Leads, Program.bind]
  rcases hps : p s with ⟨v | e, t⟩ <;> rw [hps] at he hlight
  · obtain ⟨q, y, rfl, hq⟩ := he
    obtain ⟨k', u', hk', hph', he'⟩ := hf v t q y hlight hq
    refine ⟨k + k', u', by omega, hph.trans hph', ?_⟩
    rw [hu v t q y] at he'
    rcases hfv : f v t with ⟨w | e', t'⟩ <;> rw [hfv] at he' <;> dsimp only <;> rw [hfv]
    · obtain ⟨q', y', rfl, hq'⟩ := he'
      exact ⟨q', y', rfl, hq'⟩
    · obtain ⟨y', rfl, hr⟩ := he'
      exact ⟨y', rfl, hr⟩
  · exact ⟨k, u, by omega, hph, he⟩

/-- The continuation of a write reads CFG, phase and registers alone. -/
theorem afterWrite_light {s t : State} (h : Light s t) :
    t.afterWrite = t.regs s.afterWrite.pc s.afterWrite.x := by
  obtain ⟨⟨e, d, c, a, rfl⟩, -⟩ := h
  unfold State.afterWrite
  cases hp : s.pc <;>
    simp only [State.engineFail, State.engineEnd, State.enterArm, State.enterPoll, State.setX, State.goto,
      State.finish, State.regs, hp]
  all_goals try split_ifs
  all_goals first
    | rfl
    | (by_cases hop : s.x.op = some .reqmode <;> simp_all)

/-- The continuation of a read reads CFG, phase and registers alone. -/
theorem afterRead_light {s t : State} (h : Light s t) (e : Byte) :
    t.afterRead e = t.regs (s.afterRead e).pc (s.afterRead e).x := by
  obtain ⟨⟨ev, d, c, a, rfl⟩, -⟩ := h
  unfold State.afterRead
  cases hp : s.pc <;>
    simp only [State.polled, State.errorRead, State.controlRead, State.drained, State.engineFail,
      State.engineEnd, State.setX, State.goto, State.finish, State.regs, hp]
  all_goals try split_ifs
  all_goals first
    | rfl
    | (by_cases hop : s.x.op = some .reqmode <;> simp_all)

theorem leads_memWrite {s : State} {a d : Byte} (hf : s.frameDue = some (writeFrame a d))
    (hh : s.x.holds s.cfg s.pc = true) (ho : s.opened = true) (hfair : s.env.fair = true) :
    Leads 1 (memWrite a d) s fun _ q y => q = s.afterWrite.pc ∧ y = s.afterWrite.x := by
  have ht := tick_memWrite hf hh ho hfair
  have hl := lightly_memWrite a d s
  refine ⟨1, _, le_refl _, .one (State.frameDue_ne_ready hf) ht, ?_⟩
  rcases hps : memWrite a d s with ⟨v | e, t⟩ <;> rw [hps] at hl
  · exact ⟨_, _, afterWrite_light hl, rfl, rfl⟩
  · exact ⟨_, rfl, rfl, rfl⟩

theorem leads_memRead {s : State} {a : Byte} (hf : s.frameDue = some (readFrame a))
    (hh : s.x.holds s.cfg s.pc = true) (ho : s.opened = true) (hfair : s.env.fair = true)
    (ht : s.pc.tolerant = false) :
    Leads 1 (memRead s.cfg a) s fun e q y => q = (s.afterRead e).pc ∧ y = (s.afterRead e).x := by
  have ht := tick_memRead hf hh ho hfair ht
  have hl := lightly_memRead s.cfg a s
  refine ⟨1, _, le_refl _, .one (State.frameDue_ne_ready hf) ht, ?_⟩
  rcases hps : memRead s.cfg a s with ⟨v | e, t⟩ <;> rw [hps] at hl
  · exact ⟨_, _, afterRead_light hl v, rfl, rfl⟩
  · exact ⟨_, rfl, rfl, rfl⟩

theorem leads_tolerantRead {s : State} {a : Byte} (hf : s.frameDue = some (readFrame a))
    (hh : s.x.holds s.cfg s.pc = true) (ho : s.opened = true) (hfair : s.env.fair = true)
    (ht : s.pc.tolerant = true) :
    Leads 1 (tolerantRead s.cfg a) s
      fun e q y => q = (s.afterRead e).pc ∧ y = (s.afterRead e).x := by
  obtain ⟨e, t, hr, ht⟩ := tick_tolerantRead hf hh ho hfair ht
  have hl := lightly_tolerantRead s.cfg a s
  rw [hr] at hl
  refine ⟨1, _, le_refl _, .one (State.frameDue_ne_ready hf) ht, ?_⟩
  rw [hr]
  exact ⟨_, _, afterRead_light hl e, rfl, rfl⟩

/-! ### The registers of a running engine -/

/-- The registers of an engine run before it has a response: the operands and the masks. -/
structure Running (c : Cfg) (o : Op) (k : Byte) (bytes : List Byte) (y : Work) : Prop where
  op      : y.op = some o
  cmd     : y.cmd = some k
  payload : y.payload = some bytes
  plen    : y.plen = some (BitVec.ofNat 8 bytes.length)
  irqEn   : y.irqEn = some (irqEnOf c k)
  waitIrq : y.waitIrq = some (waitIrqOf c k)
  resp    : y.resp = []
  val     : y.val = none

/-- Registers and phase where an engine run has its triple (R140, R154). -/
structure HasTriple (op : Op) (tr : Triple) (q : Phase) (y : Work) : Prop where
  phase  : q = if op = .reqmode then .rqCheck else .done
  runs   : y.op = some op
  res    : op ≠ .reqmode → y.res = some .success
  status : y.status = some tr.status
  bitLen : y.bitLen = some tr.bitLen
  rlen   : y.rlen = some (BitVec.ofNat 8 tr.data.length)
  resp   : y.resp = tr.data
  val    : y.val = none
  short  : tr.data.length ≤ 255

theorem Running.engineEnd {op : Op} {tr : Triple} {s : State} (ho : s.x.op = some op)
    (h1 : s.x.status = some tr.status) (h2 : s.x.bitLen = some tr.bitLen)
    (h3 : s.x.rlen = some (BitVec.ofNat 8 tr.data.length)) (h4 : s.x.resp = tr.data)
    (h5 : s.x.val = none) (h6 : tr.data.length ≤ 255) :
    HasTriple op tr s.engineEnd.pc s.engineEnd.x := by
  unfold State.engineEnd
  by_cases h : op = .reqmode
  · subst h
    rw [if_pos ho]
    exact ⟨by simp, ho, by simp, h1, h2, h3, h4, h5, h6⟩
  · have : s.x.op ≠ some .reqmode := by rw [ho]; simpa using h
    rw [if_neg this]
    exact ⟨by simp [h], ho, by simp, h1, h2, h3, h4, h5, h6⟩

/-! ### The pieces -/

variable {c : Cfg} {op : Op} {cmd : Byte} {payload : List Byte}

/-- A set-bits or clear-bits of the engine: a tolerant read phase and the write phase after it. -/
theorem leads_rmw {s : State} {a : Byte} {g : Byte → Byte} {R : Unit → Phase → Work → Prop}
    (hc : s.cfg = c)
    (hf : s.frameDue = some (readFrame a)) (hh : s.x.holds s.cfg s.pc = true)
    (ho : s.opened = true) (hfair : s.env.fair = true) (ht : s.pc.tolerant = true)
    (hw : ∀ t e, Light s t → (t.regs (s.afterRead e).pc (s.afterRead e).x).frameDue =
        some (writeFrame a (g e)) ∧
      (s.afterRead e).x.holds c (s.afterRead e).pc = true ∧
      R () (t.regs (s.afterRead e).pc (s.afterRead e).x).afterWrite.pc
        (t.regs (s.afterRead e).pc (s.afterRead e).x).afterWrite.x) :
    Leads 2 ((tolerantRead c a).bind fun old => memWrite a (g old)) s R := by
  subst hc
  refine Leads.bind (leads_tolerantRead hf hh ho hfair ht) (lightly_tolerantRead _ _)
    (fun _ => uniform_memWrite _ _) (n := 1) ?_
  rintro e t q y hl ⟨rfl, rfl⟩
  obtain ⟨h1, h2, h3⟩ := hw t e hl
  have hkeep : t.cfg = s.cfg ∧ t.opened = s.opened := by
    obtain ⟨⟨ev, d, cc, ad, rfl⟩, -⟩ := hl; exact ⟨rfl, rfl⟩
  refine (leads_memWrite h1 ?_ ?_ (hl.fair hfair)).mono (le_refl _) ?_
  · show Work.holds t.cfg _ _ = true
    rw [hkeep.1]; exact h2
  · show t.opened = true
    rw [hkeep.2]; exact ho
  · rintro ⟨⟩ q y ⟨rfl, rfl⟩
    exact h3

/-- What a light program leaves the FSM with. -/
theorem light_keeps {s t : State} (h : Light s t) : t.cfg = s.cfg ∧ t.opened = s.opened := by
  obtain ⟨⟨ev, d, cc, ad, rfl⟩, -⟩ := h; exact ⟨rfl, rfl⟩

/-- Load: from payload index `i`, the bytes that remain (R143). -/
theorem leads_load {s : State} (hc : s.cfg = c) (ho : s.opened = true) (hfair : s.env.fair = true)
    (hlen : payload.length ≤ 255) {i : Nat} (hi : i < payload.length) (hpc : s.pc = .load)
    (hr : Running c op cmd payload s.x) (hx : s.x.pidx = some (BitVec.ofNat 8 i)) :
    Leads (payload.length - i) (load c (payload.drop i)) s
      fun _ q y => q = .execute ∧ Running c op cmd payload y := by
  subst hc
  obtain ⟨k, hk⟩ : ∃ k, payload.length - i = k + 1 := ⟨payload.length - i - 1, by omega⟩
  induction k generalizing s i with
  | zero =>
    have hd : payload.drop i = [payload[i]] := by
      rw [List.drop_eq_getElem_cons hi, List.drop_eq_nil_of_le (by omega)]
    rw [hd, hk]
    refine Leads.bind (m := 1) (n := 0) (leads_memWrite ?_ ?_ ho hfair) (lightly_memWrite _ _)
      (fun _ => uniform_load _ _) ?_
    · simp only [State.frameDue, hpc, frameOf, Work.payloadByte, hr.payload, hx, reg_some,
        BitVec.toNat_ofNat]
      rw [Nat.mod_eq_of_lt (by omega)]
      simp [hi]
    · simp only [Work.holds, hpc, hr.op, hr.payload, hr.plen, hx, reg_some, BitVec.toNat_ofNat]
      rw [Nat.mod_eq_of_lt (by omega)]
      simpa using hi
    · rintro ⟨⟩ t q y hl ⟨rfl, rfl⟩
      refine Leads.pure ?_
      simp only [State.regs, State.afterWrite, hpc, hr.plen, hx, reg_some]
      refine ⟨?_, ⟨hr.1, hr.2, hr.3, rfl, hr.5, hr.6, hr.7, hr.8⟩⟩
      simp only [State.goto_pc]
      rw [if_neg]
      simp only [BitVec.ult, BitVec.toNat_add, BitVec.toNat_ofNat]
      simp
      omega
  | succ k ih =>
    have hd : payload.drop i = payload[i] :: payload.drop (i + 1) := List.drop_eq_getElem_cons hi
    rw [hd, show payload.length - i = 1 + (payload.length - (i + 1)) by omega]
    refine Leads.bind (leads_memWrite ?_ ?_ ho hfair) (lightly_memWrite _ _)
      (fun _ => uniform_load _ _) ?_
    · simp only [State.frameDue, hpc, frameOf, Work.payloadByte, hr.payload, hx, reg_some,
        BitVec.toNat_ofNat]
      rw [Nat.mod_eq_of_lt (by omega)]
      simp [hi]
    · simp only [Work.holds, hpc, hr.op, hr.payload, hr.plen, hx, reg_some, BitVec.toNat_ofNat]
      rw [Nat.mod_eq_of_lt (by omega)]
      simpa using hi
    · rintro ⟨⟩ t q y hl ⟨rfl, rfl⟩
      have hk' := light_keeps hl
      have hpc' : s.afterWrite.pc = .load := by
        simp only [State.afterWrite, hpc, hr.plen, hx, reg_some, State.goto_pc]
        rw [if_pos]
        simp only [BitVec.ult, BitVec.toNat_add, BitVec.toNat_ofNat]
        simp
        omega
      have hx' : s.afterWrite.x = { s.x with pidx := some (BitVec.ofNat 8 (i + 1)) } := by
        simp only [State.afterWrite, hpc, hx, reg_some, State.goto_x, State.setX_x]
        congr 2
        simp [BitVec.ofNat_add]
      have hr' : Running t.cfg op cmd payload s.afterWrite.x := by
        rw [hk'.1, hx']
        exact ⟨hr.1, hr.2, hr.3, hr.4, hr.5, hr.6, hr.7, hr.8⟩
      have := ih (s := t.regs s.afterWrite.pc s.afterWrite.x) (i := i + 1)
        (ho := hk'.2.trans ho) (hfair := hl.fair hfair) (hi := by omega) (hpc := hpc') (hr := hr')
        (hx := by show s.afterWrite.x.pidx = _; rw [hx']) (hk := by omega)
      simpa [State.regs, hk'.1] using this

/-- Poll: with `k` iterations remaining (R145). -/
theorem leads_poll {s : State} (hc : s.cfg = c) (ho : s.opened = true) (hfair : s.env.fair = true)
    {k : Nat} (hk : 0 < k) (hk16 : k < 2 ^ 16) (hpc : s.pc = .poll)
    (hr : Running c op cmd payload s.x) (hx : s.x.rem = some (BitVec.ofNat 16 k)) :
    Leads k (poll c (waitIrqOf c cmd) k) s
      fun seen q y => q = .stopRd ∧ Running c op cmd payload y ∧ y.rem.isSome ∧
        (seen = none → y.rem = some 0#16) ∧
        (∀ v, seen = some v → y.rem ≠ some 0#16 ∧ y.irqVal = some v ∧
          termBit v (waitIrqOf c cmd) = true) := by
  subst hc
  induction k generalizing s with
  | zero => omega
  | succ k ih =>
    rw [Nat.add_comm k 1]
    have h0 : BitVec.ofNat 16 (k + 1) ≠ 0#16 := by
      intro h
      have := congrArg BitVec.toNat h
      simp at this
      omega
    have hsub : BitVec.ofNat 16 (k + 1) - 1#16 = BitVec.ofNat 16 k := by
      apply BitVec.eq_of_toNat_eq
      simp [BitVec.toNat_sub]
      omega
    have hpoll : poll s.cfg (waitIrqOf s.cfg cmd) (1 + k) =
        (memRead s.cfg s.cfg.regComIrq).bind fun irqVal =>
          if termBit irqVal (waitIrqOf s.cfg cmd) then Program.pure (some irqVal)
          else poll s.cfg (waitIrqOf s.cfg cmd) k := by
      rw [Nat.add_comm 1 k]; rfl
    rw [hpoll]
    refine Leads.bind (leads_memRead ?_ ?_ ho hfair (by simp [hpc, Phase.tolerant]))
      (lightly_memRead _ _) (fun v => ?_) ?_
    · simp [State.frameDue, hpc, frameOf]
    · simp [Work.holds, hpc, hr.op, hr.waitIrq, hx]
    · split
      · exact Uniform.pure _
      · exact uniform_poll _ _ _
    · rintro e t q y hl ⟨rfl, rfl⟩
      have hk' := light_keeps hl
      by_cases hterm : termBit e (waitIrqOf s.cfg cmd) = true
      · rw [if_pos hterm]
        refine Leads.mono (Leads.pure (Q := fun seen q y => q = (s.afterRead e).pc ∧
          y = (s.afterRead e).x ∧ seen = some e) ⟨rfl, rfl, rfl⟩) (Nat.zero_le _) ?_
        rintro seen q y ⟨rfl, rfl, rfl⟩
        simp only [State.afterRead, hpc, State.polled, hr.waitIrq, reg_some, hterm, if_true,
          State.goto_pc, State.goto_x, State.setX_x, hx]
        refine ⟨trivial, ⟨hr.1, hr.2, hr.3, hr.4, hr.5, rfl, hr.7, hr.8⟩, rfl, by simp, ?_⟩
        rintro v hv
        cases hv
        exact ⟨by simpa using h0, rfl, hterm⟩
      · rw [if_neg hterm]
        have hpcx : (s.afterRead e).pc = (if BitVec.ofNat 16 k = 0#16 then .stopRd else .poll) ∧
            (s.afterRead e).x = { s.x with irqVal := some e, rem := some (BitVec.ofNat 16 k) } := by
          simp only [State.afterRead, hpc, State.polled, hr.waitIrq, reg_some, hterm, hx, hsub]
          exact ⟨rfl, rfl⟩
        rw [hpcx.1, hpcx.2]
        rcases Nat.eq_zero_or_pos k with rfl | hpos
        · refine Leads.mono (Leads.pure (Q := fun seen q y => q = .stopRd ∧
            y = { s.x with irqVal := some e, rem := some 0#16 } ∧ seen = none) ⟨?_, rfl, rfl⟩)
            (le_refl _) ?_
          · simp [State.regs]
          · rintro seen q y ⟨rfl, rfl, rfl⟩
            exact ⟨rfl, ⟨hr.1, hr.2, hr.3, hr.4, hr.5, hr.6, hr.7, hr.8⟩, rfl, fun _ => rfl, by simp⟩
        · have hne : BitVec.ofNat 16 k ≠ 0#16 := by
            intro h
            have := congrArg BitVec.toNat h
            simp at this
            omega
          rw [if_neg hne]
          have hr' : Running t.cfg op cmd payload
              { s.x with irqVal := some e, rem := some (BitVec.ofNat 16 k) } := by
            rw [hk'.1]
            exact ⟨hr.1, hr.2, hr.3, hr.4, hr.5, hr.6, hr.7, hr.8⟩
          have := ih (s := t.regs .poll { s.x with irqVal := some e, rem := some (BitVec.ofNat 16 k) })
            (ho := hk'.2.trans ho) (hfair := hl.fair hfair) (hk := hpos) (hk16 := by omega)
            (hpc := rfl) (hr := hr') (hx := rfl)
          simpa [State.regs, hk'.1] using this

/-- Drain: with `i` of `nc` bytes in the buffer (R152). -/
theorem leads_drain {s : State} (hc : s.cfg = c) (ho : s.opened = true)
    (hfair : s.env.fair = true)
    {nc i : Nat} {status : Status} {bitLen : Word} (hi : i < nc) (hnc : nc ≤ c.maxLen.toNat)
    (hpc : s.pc = .drain) (hop : s.x.op = some op) (hval : s.x.val = none)
    (hst : s.x.status = some status) (hbl : s.x.bitLen = some bitLen)
    (hxn : s.x.nc = some (BitVec.ofNat 8 nc)) (hxd : s.x.didx = some (BitVec.ofNat 8 i))
    (hlen : s.x.resp.length = i) :
    Leads (nc - i) (drain c (nc - i)) s
      fun data q y => HasTriple op ⟨status, bitLen, s.x.resp ++ data⟩ q y := by
  subst hc
  have hm := s.cfg.maxLen.isLt
  obtain ⟨k, hk⟩ : ∃ k, nc - i = k + 1 := ⟨nc - i - 1, by omega⟩
  have hpos : 0 < s.cfg.maxLen.toNat := by omega
  induction k generalizing s i with
  | zero =>
    rw [hk]
    refine Leads.bind (m := 1) (n := 0) (leads_memRead ?_ ?_ ho hfair (by simp [hpc, Phase.tolerant]))
      (lightly_memRead _ _) (fun v => Uniform.bind (Uniform.pure _) fun _ => Uniform.pure _) ?_
    · simp [State.frameDue, hpc, frameOf]
    · simp only [Work.holds, hpc, hop, hxn, hxd, reg_some, BitVec.ult, BitVec.toNat_ofNat, hlen]
      rw [Nat.mod_eq_of_lt (by omega)]
      simp
      omega
    · rintro e t q y hl ⟨rfl, rfl⟩
      refine Leads.mono (Leads.pure (v := [e]) (Q := fun data q y => q = (s.afterRead e).pc ∧
          y = (s.afterRead e).x ∧ data = [e]) ⟨rfl, rfl, rfl⟩) (le_refl _) ?_
      rintro data q y ⟨rfl, rfl, rfl⟩
      have hmod : (BitVec.ofNat 8 i).toNat = i := by simp; omega
      simp only [State.afterRead, hpc, State.drained, hxd, hxn, reg_some, hmod,
        storeAt_end hlen]
      rw [if_neg]
      · refine Running.engineEnd (by simpa using hop) (by simpa using hst) (by simpa using hbl) ?_
          (by simp) (by simpa using hval) ?_
        · simp [hlen, BitVec.ofNat_add]
        · simp [hlen]; omega
      · simp only [BitVec.ult, BitVec.toNat_add, BitVec.toNat_ofNat]
        simp
        omega
  | succ k ih =>
    rw [show nc - i = (nc - (i + 1)) + 1 by omega]
    rw [show nc - (i + 1) + 1 = 1 + (nc - (i + 1)) by omega]
    have hdr : drain s.cfg (1 + (nc - (i + 1))) =
        (memRead s.cfg s.cfg.regFifoData).bind fun e =>
          (drain s.cfg (nc - (i + 1))).bind fun es => Program.pure (e :: es) := by
      rw [Nat.add_comm 1]; rfl
    rw [hdr]
    refine Leads.bind (leads_memRead ?_ ?_ ho hfair (by simp [hpc, Phase.tolerant]))
      (lightly_memRead _ _) (fun v => (uniform_drain _ _).bind fun _ => Uniform.pure _) ?_
    · simp [State.frameDue, hpc, frameOf]
    · simp only [Work.holds, hpc, hop, hxn, hxd, reg_some, BitVec.ult, BitVec.toNat_ofNat, hlen]
      rw [Nat.mod_eq_of_lt (by omega)]
      simp
      omega
    · rintro e t q y hl ⟨rfl, rfl⟩
      have hk' := light_keeps hl
      have hmod : (BitVec.ofNat 8 i).toNat = i := by simp; omega
      have hpcx : (s.afterRead e).pc = .drain ∧ (s.afterRead e).x =
          { s.x with resp := s.x.resp ++ [e], didx := some (BitVec.ofNat 8 (i + 1)),
                     rlen := some (BitVec.ofNat 8 (i + 1)) } := by
        have hadd : BitVec.ofNat 8 i + 1#8 = BitVec.ofNat 8 (i + 1) := by simp [BitVec.ofNat_add]
        simp only [State.afterRead, hpc, State.drained, hxd, hxn, reg_some, hmod, storeAt_end hlen,
          hadd]
        rw [if_pos]
        · exact ⟨rfl, rfl⟩
        · simp only [BitVec.ult, BitVec.toNat_ofNat]
          simp
          omega
      rw [hpcx.1, hpcx.2]
      have hih := ih (s := t.regs .drain { s.x with
          resp := s.x.resp ++ [e], didx := some (BitVec.ofNat 8 (i + 1)),
          rlen := some (BitVec.ofNat 8 (i + 1)) }) (i := i + 1)
        (ho := hk'.2.trans ho) (hfair := hl.fair hfair) (hi := by omega)
        (hnc := by show nc ≤ t.cfg.maxLen.toNat; rw [hk'.1]; exact hnc) (hpc := rfl) (hop := hop)
        (hval := hval) (hst := hst) (hbl := hbl) (hxn := hxn) (hxd := rfl)
        (hlen := by simp [State.regs, hlen])
        (hm := by show t.cfg.maxLen.toNat < _; rw [hk'.1]; exact hm) (hk := by omega)
        (hpos := by show 0 < t.cfg.maxLen.toNat; rw [hk'.1]; exact hpos)
      have hcfg : (t.regs .drain { s.x with
          resp := s.x.resp ++ [e], didx := some (BitVec.ofNat 8 (i + 1)),
          rlen := some (BitVec.ofNat 8 (i + 1)) }).cfg = s.cfg := hk'.1
      rw [hcfg] at hih
      rw [show nc - (i + 1) = nc - (i + 1) + 0 by omega]
      refine Leads.bind (n := 0) hih (lightly_drain _ _) (fun _ => Uniform.pure _) ?_
      rintro es t' q y hl' hq
      refine Leads.pure ?_
      simpa [State.regs] using hq

end Sys2Proof.Machine
end

