-- ==== Sys2Proof/Laws/PerInstr.lean ====
section
/-!
SUPPORT. Per-instruction families: `FrameTaken`, that the request port takes exactly the bytes of an
instruction's encoding, told by `LEN` alone, and leaves the bytes after them (R94).
-/
namespace Sys2Proof.Laws.FrameTaken
open Sys2Proof.Machine

/-- The request port takes the encoding of `i` whole and no byte after it. -/
def Statement (i : Instr) : Prop :=
  i.wf = true → i.port = .request →
    ∀ rest : List Byte, takeFrame (encode i ++ rest) = some (encode i, rest)

/-- A request frame whose payload fits one byte of `LEN` is taken whole. -/
theorem takeFrame_requestFrame (op a b : Byte) (payload rest : List Byte)
    (h : payload.length < 256) :
    takeFrame (requestFrame op a b payload ++ rest) = some (requestFrame op a b payload, rest) := by
  simp [requestFrame, takeFrame, Nat.mod_eq_of_lt h]

theorem capture (speed : Word) (address : List Byte) : Statement (.capture speed address) := by
  intro h _ rest
  have h := of_decide_eq_true h
  simp only [addrMax] at h
  exact takeFrame_requestFrame _ _ _ _ _ (by simp [bytesOfWord]; omega)

theorem release : Statement .release := fun _ _ _ => rfl

theorem scan : Statement .scan := fun _ _ _ => rfl

theorem flash (data : List Byte) : Statement (.flash data) := by
  intro h _ rest
  have h := of_decide_eq_true h
  simp only [payloadMax] at h
  exact takeFrame_requestFrame _ _ _ _ _ (by omega)

theorem wrreg (addr value : Byte) : Statement (.wrreg addr value) := fun _ _ _ => rfl

theorem rdreg (addr : Byte) : Statement (.rdreg addr) := fun _ _ _ => rfl

theorem setbits (addr mask : Byte) : Statement (.setbits addr mask) := fun _ _ _ => rfl

theorem clrbits (addr mask : Byte) : Statement (.clrbits addr mask) := fun _ _ _ => rfl

theorem exec (cmd : Byte) (payload : List Byte) : Statement (.exec cmd payload) := by
  intro h _ rest
  have h := of_decide_eq_true h
  simp only [payloadMax] at h
  exact takeFrame_requestFrame _ _ _ _ _ (by omega)

theorem reqmode (mode : Byte) : Statement (.reqmode mode) := fun _ _ _ => rfl

theorem rdanticoll : Statement .rdanticoll := fun _ _ _ => rfl

theorem spi2w (a : BitVec 6) (d : Byte) : Statement (.spi2w a d) := fun _ hp => by cases hp

theorem spi2r (a : BitVec 6) : Statement (.spi2r a) := fun _ hp => by cases hp

theorem spi1 : Statement .spi1 := fun _ hp => by cases hp

end Sys2Proof.Laws.FrameTaken
end

