-- ==== Sys2Proof/Laws/Refinement.lean ====
section
/-!
SUPPORT. The engine from its first phase to the hand-over, against the pseudocode as a whole (R140,
R156, R180, R181).
-/
namespace Sys2Proof.Machine
open Pseudocode

variable {c : Cfg} {op : Op} {cmd : Byte} {payload : List Byte}

theorem uniform_resolve (c : Cfg) (cmd v : Byte) : Uniform (resolve c cmd v) := by
  refine (uniform_memRead _ _).bind fun e => ?_
  split
  · exact Uniform.pure _
  · split
    · exact (uniform_memRead _ _).bind fun _ => (uniform_memRead _ _).bind fun _ =>
        (uniform_drain _ _).bind fun _ => Uniform.pure _
    · exact Uniform.pure _

theorem bitLengthFailed_eq : bitLengthFailed = 0xFFFFFFFF#32 := rfl

theorem HasTriple.fail {s : State} (ho : s.x.op = some op) (hr : s.x.resp = [])
    (hv : s.x.val = none) : HasTriple op failed s.engineFail.pc s.engineFail.x := by
  refine Running.engineEnd (s := s.setX _) (by simpa using ho) rfl rfl rfl (by simpa [failed] using hr)
    (by simpa using hv) (by simp [failed])

theorem isTrx_iff (c : Cfg) (cmd : Byte) : isTrx c cmd = true ↔ cmd = c.cmdTransceive := by
  simp [isTrx]

theorem leads_resolve {s : State} (hc : s.cfg = c) (hwf : c.wf = true) (ho : s.opened = true)
    (hfair : s.env.fair = true) {v : Byte} (hpc : s.pc = .errRd)
    (hr : Running c op cmd payload s.x) (hv : s.x.irqVal = some v) :
    Leads (3 + c.maxLen.toNat) (resolve c cmd v) s (HasTriple op) := by
  subst hc
  rw [show 3 + s.cfg.maxLen.toNat = 1 + (2 + s.cfg.maxLen.toNat) by omega]
  refine Leads.bind (leads_memRead ?_ ?_ ho hfair (by simp [hpc, Phase.tolerant]))
    (lightly_memRead _ _) (fun e => ?_) ?_
  · simp [State.frameDue, hpc, frameOf]
  · simp [Work.holds, hpc, hr.op, hr.cmd, hv, hr.irqEn]
  · split
    · exact Uniform.pure _
    · split
      · exact (uniform_memRead _ _).bind fun _ => (uniform_memRead _ _).bind fun _ =>
          (uniform_drain _ _).bind fun _ => Uniform.pure _
      · exact Uniform.pure _
  · rintro e t q y hl ⟨rfl, rfl⟩
    have hk := light_keeps hl
    have hafter : s.afterRead e = s.errorRead e := by simp [State.afterRead, hpc]
    rw [hafter]
    by_cases herr : e &&& 0x1B#8 ≠ 0#8
    · rw [if_pos herr]
      refine (Leads.pure ?_).mono (Nat.zero_le _) (fun _ _ _ h => h)
      have : chipError e = true := by simpa [chipError] using herr
      simp only [State.regs, State.errorRead, this, if_true]
      exact HasTriple.fail (by simpa using hr.op) (by simpa using hr.resp) (by simpa using hr.val)
    · rw [if_neg herr]
      have hne : chipError e = false := by simpa [chipError] using herr
      by_cases htrx : cmd = s.cfg.cmdTransceive
      · rw [if_pos htrx]
        have htrx' : isTrx s.cfg cmd = true := (isTrx_iff _ _).2 htrx
        set x1 : Work := { s.x with errVal := some e, status := some (resolvedStatus s.cfg v (irqEnOf s.cfg cmd)) } with hx1
        have hE : (s.errorRead e).pc = .lvlRd ∧ (s.errorRead e).x = x1 := by
          simp only [State.errorRead, hne, State.setX_x, State.setX_cfg, hr.cmd, reg_some, htrx', hv, hr.irqEn, if_true, Bool.false_eq_true, if_false]
          exact ⟨rfl, by simp [hx1, hr.cmd, hr.irqEn, hv]⟩
        rw [hE.1, hE.2]
        have hcfg : (t.regs .lvlRd x1).cfg = s.cfg := hk.1
        rw [show 2 + s.cfg.maxLen.toNat = 1 + (1 + s.cfg.maxLen.toNat) by omega]
        refine Leads.bind (Q := fun n q y => q = .ctrlRd ∧ y = { x1 with n := some n }) ?_ (lightly_memRead _ _)
          (fun _ => (uniform_memRead _ _).bind fun _ => (uniform_drain _ _).bind fun _ => Uniform.pure _) ?_
        · have := leads_memRead (s := t.regs .lvlRd x1) (a := s.cfg.regFifoLevel)
            (by simp [State.frameDue, State.regs, frameOf, hk.1])
            (by simp [State.regs, Work.holds, hx1, hr.op]) (hk.2.trans ho) (hl.fair hfair) rfl
          rw [hcfg] at this
          exact this.mono (le_refl _) (by rintro n q y ⟨rfl, rfl⟩; exact ⟨rfl, rfl⟩)
        · rintro n t2 q y hl2 ⟨rfl, rfl⟩
          have hk2 := light_keeps hl2
          have hfair2 := hl2.fair (hl.fair hfair)
          have hcfg2 : t2.cfg = s.cfg := hk2.1.trans hk.1
          have ho2 : t2.opened = true := hk2.2.trans (hk.2.trans ho)
          set nc : Nat := (drainCount s.cfg n).toNat with hnc
          have hnc' : min (max n.toNat 1) s.cfg.maxLen.toNat = nc := (drainCount_toNat _ _ hwf).symm
          have hpos : 0 < nc := drainCount_pos hwf n
          have hle : nc ≤ s.cfg.maxLen.toNat := drainCount_le _ _
          refine Leads.bind (Q := fun control q y => q = .drain ∧ y = { x1 with
              n := some n, lastBits := some (lastBitsOf control)
              bitLen := some (bitLength n (lastBitsOf control))
              nc := some (drainCount s.cfg n), didx := some 0#8, rlen := some 0#8 }) ?_ (lightly_memRead _ _)
            (fun _ => (uniform_drain _ _).bind fun _ => Uniform.pure _) ?_
          · have := leads_memRead (s := t2.regs .ctrlRd { x1 with n := some n }) (a := s.cfg.regControl)
              (by simp [State.frameDue, State.regs, frameOf, hcfg2])
              (by simp [State.regs, Work.holds, hx1, hr.op]) ho2 hfair2 rfl
            rw [show (t2.regs .ctrlRd { x1 with n := some n }).cfg = s.cfg from hcfg2] at this
            refine this.mono (le_refl _) ?_
            rintro ctl q y ⟨rfl, rfl⟩
            refine ⟨rfl, ?_⟩
            simp [State.afterRead, State.regs, State.controlRead, hcfg2]
          · rintro ctl t3 q y hl3 ⟨rfl, rfl⟩
            have hk3 := light_keeps hl3
            have hcfg3 : t3.cfg = s.cfg := hk3.1.trans hcfg2
            rw [hnc']
            refine (Leads.bind (m := nc) (n := 0) (Q := fun data q y => HasTriple op ⟨resolvedStatus s.cfg v (irqEnOf s.cfg cmd), bitLength n (lastBitsOf ctl), data⟩ q y) ?_ (lightly_drain _ _)
              (fun _ => Uniform.pure _) ?_).mono (by omega) (fun _ _ _ h => h)
            · have := leads_drain (c := s.cfg) (op := op) (nc := nc) (i := 0)
                (status := resolvedStatus s.cfg v (irqEnOf s.cfg cmd)) (bitLen := bitLength n (lastBitsOf ctl))
                (s := t3.regs .drain { x1 with
                  n := some n, lastBits := some (lastBitsOf ctl)
                  bitLen := some (bitLength n (lastBitsOf ctl))
                  nc := some (drainCount s.cfg n), didx := some 0#8, rlen := some 0#8 })
                hcfg3 (hk3.2.trans ho2) (hl3.fair hfair2) hpos hle rfl hr.op hr.val rfl rfl
                (by simp [State.regs, hnc]) rfl (by simp [State.regs, hx1, hr.resp])
              simpa [State.regs, hx1, hr.resp] using this
            · rintro data t4 q y hl4 hq
              exact Leads.pure hq
      · rw [if_neg htrx]
        refine (Leads.pure ?_).mono (Nat.zero_le _) (fun _ _ _ h => h)
        have htrx' : isTrx s.cfg cmd = false := by
          rw [Bool.eq_false_iff]; exact fun h => htrx ((isTrx_iff _ _).1 h)
        simp only [State.regs, State.errorRead, hne, State.setX_x, State.setX_cfg, hr.cmd, reg_some, htrx', hv, hr.irqEn, Bool.false_eq_true, if_false]
        exact Running.engineEnd (by simpa using hr.op) (by simp) (by simp) (by simp)
          (by simpa using hr.resp) (by simpa using hr.val) (by simp)

theorem lightly_resolve (c : Cfg) (cmd v : Byte) : Lightly (resolve c cmd v) := by
  refine (lightly_memRead _ _).bind fun e => ?_
  split
  · exact Lightly.pure _
  · split
    · exact (lightly_memRead _ _).bind fun _ => (lightly_memRead _ _).bind fun _ =>
        (lightly_drain _ _).bind fun _ => Lightly.pure _
    · exact Lightly.pure _

/-- The engine, from `P_ARM_IEN` to its triple (R140, R156). -/
theorem leads_engine {s : State} (hc : s.cfg = c) (hwf : c.wf = true) (ho : s.opened = true)
    (hfair : s.env.fair = true) (hlen : payload.length ≤ 255) (hpc : s.pc = .armIen)
    (hr : Running c op cmd payload s.x) :
    Leads (14 + payload.length + c.pollBudget.toNat + c.maxLen.toNat) (engine c cmd payload) s
      (HasTriple op) := by
  subst hc
  set c := s.cfg with hcdef
  -- running registers preserved by tmp updates
  have rmwU : ∀ a (g : Byte → Byte), Uniform ((tolerantRead c a).bind fun old => memWrite a (g old)) :=
    fun a g => (uniform_tolerantRead _ _).bind fun _ => uniform_memWrite _ _
  have u7 : ∀ seen, Uniform (match seen with | none => Program.pure failed | some irqVal => resolve c cmd irqVal : Program Triple) := by
    intro seen; cases seen; exact Uniform.pure _; exact uniform_resolve _ _ _
  have u6 : ∀ seen : Option Byte, Uniform ((rmwClr c c.regBitFraming 0x80#8).bind fun _ =>
      match seen with | none => Program.pure failed | some irqVal => resolve c cmd irqVal) :=
    fun seen => (uniform_rmwClr _ _ _).bind fun _ => u7 seen
  have u5 : Uniform ((poll c (waitIrqOf c cmd) c.pollBudget.toNat).bind fun seen => (rmwClr c c.regBitFraming 0x80#8).bind fun _ =>
      match seen with | none => Program.pure failed | some irqVal => resolve c cmd irqVal) :=
    (uniform_poll _ _ _).bind u6
  have u4 : Uniform ((if cmd = c.cmdTransceive then rmwSet c c.regBitFraming 0x80#8 else Program.pure ()).bind fun _ => (poll c (waitIrqOf c cmd) c.pollBudget.toNat).bind fun seen => (rmwClr c c.regBitFraming 0x80#8).bind fun _ =>
      match seen with | none => Program.pure failed | some irqVal => resolve c cmd irqVal) := by
    refine Uniform.bind ?_ fun _ => u5
    split
    · exact uniform_rmwSet _ _ _
    · exact Uniform.pure _
  have u3 := fun _ : Unit => (uniform_memWrite c.regCommand cmd).bind fun _ => u4
  have u2 := fun _ : Unit => (uniform_load c payload).bind u3
  have u1 := fun _ : Unit => (uniform_memWrite c.regCommand c.cmdIdle).bind u2
  have u0 := fun _ : Unit => (uniform_rmwSet c c.regFifoLevel 0x80#8).bind u1
  have ua := fun _ : Unit => (uniform_rmwClr c c.regComIrq 0x80#8).bind u0

  rw [show 14 + payload.length + c.pollBudget.toNat + c.maxLen.toNat = 1 + (2 + (2 + (1 + (payload.length + (1 + (2 + (c.pollBudget.toNat + (2 + (3 + c.maxLen.toNat))))))))) by omega]
  unfold engine
  -- arm: IRQ enable
  refine Leads.bind (Q := fun _ q y => q = .armIrqRd ∧ Running c op cmd payload y) ?_ (lightly_memWrite _ _) ua ?_
  · refine (leads_memWrite ?_ ?_ ho hfair).mono (le_refl _) ?_
    · simp [State.frameDue, hpc, frameOf, hr.irqEn, hcdef]
    · simp [Work.holds, hpc, hr.op, hr.cmd, hr.irqEn]
    · rintro ⟨⟩ q y ⟨rfl, rfl⟩
      simp only [State.afterWrite, hpc]
      exact ⟨rfl, hr⟩
  rintro ⟨⟩ t1 q y hl1 ⟨rfl, hr1⟩
  have hk1 := light_keeps hl1
  -- arm: clear pending
  refine Leads.bind (Q := fun _ q y => q = .armFlushRd ∧ Running c op cmd payload y) ?_ (lightly_rmwClr _ _ _) u0 ?_
  · refine leads_rmw (g := fun old => old &&& ~~~0x80#8) hk1.1 ?_ (by simp [State.regs, Work.holds, hr1.op]) (hk1.2.trans ho) (hl1.fair hfair) rfl ?_
    · show frameOf t1.cfg _ _ = _
      rw [hk1.1]; rfl
    · intro t e hl
      have := (light_keeps hl).1.trans hk1.1
      refine ⟨?_, by simp [State.afterRead, State.regs, Work.holds, hr1.op], rfl, ⟨hr1.1, hr1.2, hr1.3, hr1.4, hr1.5, hr1.6, hr1.7, hr1.8⟩⟩
      show frameOf t.cfg _ _ = _
      rw [this]; rfl
  rintro ⟨⟩ t2 q y2 hl2 ⟨rfl, hr2⟩
  have hk2 := light_keeps hl2
  have hc2 : t2.cfg = c := hk2.1.trans hk1.1
  have ho2 : t2.opened = true := hk2.2.trans (hk1.2.trans ho)
  have hf2 := hl2.fair (hl1.fair hfair)
  refine Leads.bind (Q := fun _ q y => q = .forceIdle ∧ Running c op cmd payload y) ?_ (lightly_rmwSet _ _ _) u1 ?_
  · refine leads_rmw (g := fun old => old ||| 0x80#8) hc2 ?_ (by simp [State.regs, Work.holds, hr2.op]) ho2 hf2 rfl ?_
    · show frameOf t2.cfg _ _ = _
      rw [hc2]; rfl
    · intro t e hl
      have := (light_keeps hl).1.trans hc2
      refine ⟨?_, by simp [State.afterRead, State.regs, Work.holds, hr2.op], rfl, ⟨hr2.1, hr2.2, hr2.3, hr2.4, hr2.5, hr2.6, hr2.7, hr2.8⟩⟩
      show frameOf t.cfg _ _ = _
      rw [this]; rfl
  rintro ⟨⟩ t3 q y3 hl3 ⟨rfl, hr3⟩
  have hk3 := light_keeps hl3
  have hc3 : t3.cfg = c := hk3.1.trans hc2
  have ho3 : t3.opened = true := hk3.2.trans ho2
  have hf3 := hl3.fair hf2
  -- idle
  refine Leads.bind (Q := fun _ q y => Running c op cmd payload y ∧ y.pidx = some 0#8 ∧
      q = if payload.length = 0 then .execute else .load) ?_ (lightly_memWrite _ _) u2 ?_
  · refine (leads_memWrite (s := t3.regs .forceIdle y3) ?_ ?_ ho3 hf3).mono (le_refl _) ?_
    · show frameOf t3.cfg _ _ = _
      rw [hc3]; rfl
    · simp [State.regs, Work.holds, hr3.op, hr3.plen]
    · rintro ⟨⟩ q y ⟨rfl, rfl⟩
      refine ⟨⟨hr3.1, hr3.2, hr3.3, hr3.4, hr3.5, hr3.6, hr3.7, hr3.8⟩, rfl, ?_⟩
      simp only [State.afterWrite, State.regs, hr3.plen, reg_some, State.goto_pc]
      by_cases h0 : payload.length = 0
      · simp [h0]
      · rw [if_neg h0, if_neg]
        intro h
        have := congrArg BitVec.toNat h
        simp at this
        omega
  rintro ⟨⟩ t4 q y4 hl4 ⟨hr4, hx4, rfl⟩
  have hk4 := light_keeps hl4
  have hc4 : t4.cfg = c := hk4.1.trans hc3
  have ho4 : t4.opened = true := hk4.2.trans ho3
  have hf4 := hl4.fair hf3
  -- load
  refine Leads.bind (Q := fun _ q y => q = .execute ∧ Running c op cmd payload y) ?_ (lightly_load _ _) u3 ?_
  · by_cases h0 : payload.length = 0
    · obtain rfl : payload = [] := List.eq_nil_of_length_eq_zero h0
      refine (Leads.pure ?_).mono (Nat.zero_le _) (fun _ _ _ h => h)
      exact ⟨by simp [State.regs], hr4⟩
    · have := leads_load (c := c) (op := op) (cmd := cmd) (payload := payload) (i := 0)
        (s := t4.regs (if payload.length = 0 then .execute else .load) y4) hc4 ho4 hf4 hlen (by omega)
        (by simp [State.regs, h0]) hr4 hx4
      simpa using this
  rintro ⟨⟩ t5 q y5 hl5 ⟨rfl, hr5⟩
  have hk5 := light_keeps hl5
  have hc5 : t5.cfg = c := hk5.1.trans hc4
  have ho5 : t5.opened = true := hk5.2.trans ho4
  have hf5 := hl5.fair hf4
  -- execute
  refine Leads.bind (Q := fun _ q y => Running c op cmd payload y ∧
      (cmd ≠ c.cmdTransceive → y.rem = some c.pollBudget) ∧
      q = if cmd = c.cmdTransceive then .startRd else .poll) ?_ (lightly_memWrite _ _) (fun _ => u4) ?_
  · refine (leads_memWrite (s := t5.regs .execute y5) ?_ ?_ ho5 hf5).mono (le_refl _) ?_
    · show frameOf t5.cfg _ _ = _
      rw [hc5]; simp [State.regs, frameOf, hr5.cmd]
    · simp [State.regs, Work.holds, hr5.op, hr5.cmd]
    · rintro ⟨⟩ q y ⟨rfl, rfl⟩
      simp only [State.afterWrite, State.regs, hr5.cmd, reg_some, hc5]
      by_cases h : cmd = c.cmdTransceive
      · rw [if_pos h, if_pos ((isTrx_iff _ _).2 h)]
        exact ⟨hr5, fun h' => absurd h h', rfl⟩
      · rw [if_neg h, if_neg (fun h' => h ((isTrx_iff _ _).1 h'))]
        exact ⟨⟨hr5.1, hr5.2, hr5.3, hr5.4, hr5.5, hr5.6, hr5.7, hr5.8⟩, fun _ => rfl, rfl⟩
  rintro ⟨⟩ t6 q y6 hl6 ⟨hr6, hx6, rfl⟩
  have hk6 := light_keeps hl6
  have hc6 : t6.cfg = c := hk6.1.trans hc5
  have ho6 : t6.opened = true := hk6.2.trans ho5
  have hf6 := hl6.fair hf5
  -- start
  refine Leads.bind (Q := fun _ q y => q = .poll ∧ Running c op cmd payload y ∧ y.rem = some c.pollBudget) ?_ ?_ (fun _ => u5) ?_
  · by_cases h : cmd = c.cmdTransceive
    · simp only [if_pos h]
      refine leads_rmw (g := fun old => old ||| 0x80#8) hc6 ?_ (by simp [State.regs, Work.holds, hr6.op]) ho6 hf6 rfl ?_
      · show frameOf t6.cfg _ _ = _
        rw [hc6]; rfl
      · intro t e hl
        have := (light_keeps hl).1.trans hc6
        refine ⟨?_, by simp [State.afterRead, State.regs, Work.holds, hr6.op], rfl, ⟨hr6.1, hr6.2, hr6.3, hr6.4, hr6.5, hr6.6, hr6.7, hr6.8⟩, ?_⟩
        · show frameOf t.cfg _ _ = _
          rw [this]; rfl
        · show some t.cfg.pollBudget = _
          rw [this]
    · simp only [if_neg h]
      exact (Leads.pure (Q := fun _ q y => q = .poll ∧ Running c op cmd payload y ∧ y.rem = some c.pollBudget) ⟨rfl, hr6, hx6 h⟩).mono (Nat.zero_le _) (fun _ _ _ h => h)
  · split
    · exact lightly_rmwSet _ _ _
    · exact Lightly.pure _
  rintro ⟨⟩ t7 q y7 hl7 ⟨rfl, hr7, hx7⟩
  have hk7 := light_keeps hl7
  have hc7 : t7.cfg = c := hk7.1.trans hc6
  have ho7 : t7.opened = true := hk7.2.trans ho6
  have hf7 := hl7.fair hf6
  -- poll
  refine Leads.bind (leads_poll (c := c) (op := op) (cmd := cmd) (payload := payload) (k := c.pollBudget.toNat)
    (s := t7.regs .poll y7) hc7 ho7 hf7 (pollBudget_pos hwf) c.pollBudget.isLt rfl hr7 (by simpa [State.regs] using hx7))
    (lightly_poll _ _ _) u6 ?_
  rintro seen t8 q y8 hl8 ⟨rfl, hr8, hrem, hnone, hsome⟩
  have hk8 := light_keeps hl8
  have hc8 : t8.cfg = c := hk8.1.trans hc7
  have ho8 : t8.opened = true := hk8.2.trans ho7
  have hf8 := hl8.fair hf7
  obtain ⟨r, hrem⟩ := Option.isSome_iff_exists.1 hrem
  -- stop
  refine Leads.bind (Q := fun _ q y => (∀ v, seen = some v → q = .errRd ∧ Running c op cmd payload y ∧ y.irqVal = some v) ∧
     (seen = none → HasTriple op failed q y)) ?_ (lightly_rmwClr _ _ _) (fun _ => u7 seen) ?_
  · refine leads_rmw (g := fun old => old &&& ~~~0x80#8) hc8 ?_ (by simp [State.regs, Work.holds, hr8.op]) ho8 hf8 rfl ?_
    · show frameOf t8.cfg _ _ = _
      rw [hc8]; rfl
    · intro t e hl
      have := (light_keeps hl).1.trans hc8
      refine ⟨?_, ?_, ?_, ?_⟩
      · show frameOf t.cfg _ _ = _
        rw [this]; rfl
      · simp [State.afterRead, State.regs, Work.holds, hr8.op, hrem]
      · intro v hv
        obtain ⟨h1, h2, h3⟩ := hsome v hv
        have hne : r ≠ 0#16 := by rw [hrem] at h1; simpa using h1
        simp only [State.afterRead, State.regs, State.afterWrite, State.goto_pc, State.goto_x, State.setX_x, hrem, reg_some, if_neg hne]
        exact ⟨trivial, ⟨hr8.1, hr8.2, hr8.3, hr8.4, hr8.5, hr8.6, hr8.7, hr8.8⟩, h2⟩
      · intro hs
        have h1 := hnone hs
        have he : r = 0#16 := by rw [hrem] at h1; simpa using h1
        simp only [State.afterRead, State.regs, State.afterWrite, State.goto_pc, State.goto_x, State.setX_x, hrem, reg_some, if_pos he]
        exact HasTriple.fail hr8.op hr8.resp hr8.val
  rintro ⟨⟩ t9 q y9 hl9 ⟨hv9, hn9⟩
  have hk9 := light_keeps hl9
  cases seen with
  | none =>
    exact (Leads.pure (hn9 rfl)).mono (Nat.zero_le _) (fun _ _ _ h => h)
  | some v =>
    obtain ⟨rfl, hr9, hx9⟩ := hv9 v rfl
    exact leads_resolve (s := t9.regs .errRd y9) (hk9.1.trans hc8) hwf (hk9.2.trans ho8) (hl9.fair hf8) rfl hr9 hx9

theorem phases_done {s : State} (hpc : s.pc = .done) (hh : s.x.holds s.cfg .done = true) :
    Phases 1 s (s.handOver s.resultFrame) := by
  refine .one (by simp [hpc]) ?_
  simp [State.tick, State.frameDue, hpc, frameOf, State.innerPhase, State.phase, hh]

theorem phases_abort {s : State} {r : Res} {b : Bool} (hpc : s.pc = .abort) (hr : s.x.res = some r)
    (hb : s.x.short = some b) : Phases 1 s (s.handOver s.errorFrame) := by
  refine .one (by simp [hpc]) ?_
  simp [State.tick, State.frameDue, hpc, frameOf, State.innerPhase, State.phase, Work.holds, hr, hb]

theorem handOver_regs (s : State) (q : Phase) (y : Work) (f : List Byte) :
    (s.regs q y).handOver f = s.handOver f := rfl

theorem errorFrame_eq {s : State} {b : Bool} (hr : s.x.res = some .transportError) (hb : s.x.short = some b) :
    s.errorFrame = errorRsp s.adv b := by
  simp only [State.errorFrame, hr, hb, Option.getD_some]
  rfl

/-- A triple in `P_DONE` is handed over, with the result and, for REQMODE, the value (R96). -/
theorem phases_triple {t : State} {x : Work} {op : Op} {r : Res} {v : Byte} {tr : Triple}
    (ho : x.op = some op) (hv : op = .exec ∧ v = 0#8 ∨ op = .reqmode ∧ x.val = some v)
    (hr : x.res = some r) (hs : x.status = some tr.status) (hb : x.bitLen = some tr.bitLen)
    (hl : x.rlen = some (BitVec.ofNat 8 tr.data.length)) (hd : x.resp = tr.data)
    (hlen : tr.data.length ≤ 255) :
    Phases 1 (t.regs .done x) (t.handOver (tripleRsp r.code t.adv v tr)) := by
  have hmod : tr.data.length % 256 = tr.data.length := Nat.mod_eq_of_lt (by omega)
  have hh : x.holds t.cfg .done = true := by
    rcases hv with ⟨rfl, -⟩ | ⟨rfl, hv⟩ <;>
      simp [Work.holds, returnsVal, returnsTriple, *]
  have hf : (t.regs .done x).resultFrame = tripleRsp r.code t.adv v tr := by
    rcases hv with ⟨rfl, rfl⟩ | ⟨rfl, hv⟩ <;>
      simp [State.resultFrame, State.regs, returnsVal, returnsTriple, tripleRsp, rspFrame, *]
  have := phases_done (s := t.regs .done x) rfl hh
  rwa [handOver_regs, hf] at this

/-- EXEC's triple handed over. -/
theorem exec_end {u : State} {r : End Triple × State} (he : Ends r u (HasTriple .exec)) :
    Phases 1 u (r.2.handOver (execRsp r.1 r.2.adv)) := by
  obtain ⟨tr | b, t⟩ := r
  · obtain ⟨q, y, rfl, h⟩ := he
    obtain rfl : q = .done := by simpa using h.phase
    exact phases_triple h.runs (.inl ⟨rfl, rfl⟩) (h.res (by simp)) h.status h.bitLen h.rlen h.resp
      h.short
  · obtain ⟨y, rfl, h1, h2⟩ := he
    have := phases_abort (s := t.regs .abort y) rfl h1 h2
    rwa [handOver_regs, errorFrame_eq h1 h2] at this

/-- REQMODE's check and hand-over. -/
theorem request_end {u : State} {r : End Triple × State} (he : Ends r u (HasTriple .reqmode)) :
    ∃ k ≤ 2, Phases k u (r.2.handOver (requestRsp r.1 r.2.adv)) := by
  obtain ⟨tr | b, t⟩ := r
  · obtain ⟨q, y, rfl, h⟩ := he
    obtain rfl : q = .rqCheck := by simpa using h.phase
    have h1 : Phases 1 (t.regs .rqCheck y) (t.regs .rqCheck y).requestChecked := by
      refine .one (by simp [State.regs]) ?_
      simp [State.tick, State.frameDue, State.regs, frameOf, State.innerPhase, State.phase,
        Work.holds, h.runs, h.status, h.bitLen]
    refine ⟨2, le_refl _, h1.trans (n := 1) ?_⟩
    by_cases hc : tr.status = .ok ∧ tr.bitLen = 16#32
    · have hcheck : (t.regs .rqCheck y).requestChecked =
          t.regs .done { y with val := some 16#8, res := some .success } := by
        simp [State.requestChecked, State.regs, h.status, h.bitLen, hc, State.setX, State.finish]
      rw [hcheck, requestRsp, if_pos hc]
      exact phases_triple (r := .success) h.runs (.inr ⟨rfl, rfl⟩) rfl h.status h.bitLen h.rlen
        h.resp h.short
    · have hcheck : (t.regs .rqCheck y).requestChecked =
          t.regs .done { y with val := some 0#8, res := some .noTagDetected } := by
        simp [State.requestChecked, State.regs, h.status, h.bitLen, hc, State.setX, State.finish]
      rw [hcheck, requestRsp, if_neg hc]
      exact phases_triple (r := .noTagDetected) h.runs (.inr ⟨rfl, rfl⟩) rfl h.status h.bitLen
        h.rlen h.resp h.short
  · obtain ⟨y, rfl, h1, h2⟩ := he
    have := phases_abort (s := t.regs .abort y) rfl h1 h2
    rw [handOver_regs, errorFrame_eq h1 h2] at this
    exact ⟨1, by omega, this⟩

theorem uniform_engine (c : Cfg) (cmd : Byte) (payload : List Byte) : Uniform (engine c cmd payload) := by
  refine (uniform_memWrite _ _).bind fun _ => (uniform_rmwClr _ _ _).bind fun _ =>
    (uniform_rmwSet _ _ _).bind fun _ => (uniform_memWrite _ _).bind fun _ =>
    (uniform_load _ _).bind fun _ => (uniform_memWrite _ _).bind fun _ =>
    Uniform.bind ?_ fun _ => (uniform_poll _ _ _).bind fun seen =>
    (uniform_rmwClr _ _ _).bind fun _ => ?_
  · split
    · exact uniform_rmwSet _ _ _
    · exact Uniform.pure _
  · cases seen
    · exact Uniform.pure _
    · exact uniform_resolve _ _ _

theorem uniform_requestMode (c : Cfg) (m : Byte) : Uniform (requestMode c m) :=
  (uniform_memWrite _ _).bind fun _ => uniform_engine _ _ _

end Sys2Proof.Machine
end

