-- ==== Sys2Proof/Tests/Slice0.lean ====
section
/-!
SUPPORT. Tests. Expected values are those of spec/95_test_vectors.md (named V and P), of the worked
examples of the rules, or hand calculations from the rules' formulas; then one witness for the
hypotheses of each statement of Certificates/Slice0/Obligations.lean.
-/
namespace Sys2Proof.Tests

open Sys2Proof.Machine

/-! ### Well-formedness (R97, R190): what the checks refuse -/

theorem test_wf_capture_address_too_long :
    Instr.wf (.capture 0#32 (List.replicate 252 0x41#8)) = false := by decide +kernel
theorem test_wf_capture_address_longest :
    Instr.wf (.capture 0#32 (List.replicate 251 0x41#8)) = true := by decide +kernel
theorem test_wf_flash_too_long : Instr.wf (.flash (List.replicate 256 0#8)) = false := by decide +kernel
theorem test_wf_exec_payload_too_long :
    Instr.wf (.exec 0x0C#8 (List.replicate 256 0#8)) = false := by decide +kernel
theorem test_wf_exec_payload_longest :
    Instr.wf (.exec 0x0C#8 (List.replicate 255 0#8)) = true := by decide +kernel
/-- R9: an address above 0x3F, equal command codes, `MAX_LEN = 0`, a read flag of 0x40. -/
theorem test_wf_config :
    Cfg.ref.wf = true ∧ { Cfg.ref with regError := 0x40#8 }.wf = false ∧
    { Cfg.ref with cmdAuthent := 0x0C#8 }.wf = false ∧ { Cfg.ref with maxLen := 0#8 }.wf = false ∧
    { Cfg.ref with pollBudget := 0#16 }.wf = false ∧ { Cfg.ref with rdFlag := 0x40#8 }.wf = false := by
  decide

/-! ### Decoding: one word for every constructor, written out from R90 to R97 -/

theorem test_decode_capture :
    decode .request [0x01#8, 0#8, 0#8, 0x08#8, 0x00#8, 0x0F#8, 0x42#8, 0x40#8,
      0x62#8, 0x75#8, 0x73#8, 0x30#8] =
    .ok (.capture 1000000#32 [0x62#8, 0x75#8, 0x73#8, 0x30#8]) := by decide
theorem test_decode_release : decodeTableWord 32 0x02000000 = some .release := by decide
theorem test_decode_scan : decodeTableWord 32 0x03000000 = some .scan := by decide
theorem test_decode_flash :
    decode .request [0x04#8, 0#8, 0#8, 0x02#8, 0x01#8, 0x02#8] = .ok (.flash [0x01#8, 0x02#8]) := by
  decide
/-- V10. -/
theorem test_decode_wrreg : decodeTableWord 32 0x10092600 = some (.wrreg 0x09#8 0x26#8) := by decide
/-- V13. -/
theorem test_decode_rdreg : decodeTableWord 32 0x11090000 = some (.rdreg 0x09#8) := by decide
/-- V18. -/
theorem test_decode_setbits : decodeTableWord 32 0x120A8000 = some (.setbits 0x0A#8 0x80#8) := by
  decide
/-- V21. -/
theorem test_decode_clrbits : decodeTableWord 32 0x13048000 = some (.clrbits 0x04#8 0x80#8) := by
  decide
/-- V65. -/
theorem test_decode_exec :
    decode .request [0x20#8, 0x00#8, 0x0C#8, 0x01#8, 0x26#8] = .ok (.exec 0x0C#8 [0x26#8]) := by
  decide
theorem test_decode_reqmode : decodeTableWord 32 0x30002600 = some (.reqmode 0x26#8) := by decide
theorem test_decode_rdanticoll : decodeTableWord 32 0x31000000 = some .rdanticoll := by decide
/-- V3: write byte 0x12; V5: 0x7E. -/
theorem test_decode_spi2w :
    decodeTableWord 16 0x1226 = some (.spi2w 0x09#6 0x26#8) ∧
    decodeTableWord 16 0x7EFF = some (.spi2w 0x3F#6 0xFF#8) := by decide
/-- V3: read byte 0x92; V5: 0xFE. -/
theorem test_decode_spi2r :
    decodeTableWord 16 0x9200 = some (.spi2r 0x09#6) ∧
    decodeTableWord 16 0xFE00 = some (.spi2r 0x3F#6) := by decide
theorem test_decode_spi1 : decodeTableWord 8 0x00 = some .spi1 := by decide

/-- R101: unknown `OP`, must-be-zero fields, `LEN` out of range, a frame cut short. -/
theorem test_decode_rejects :
    decode .request [0x05#8, 0#8, 0#8, 0#8] = .error .unknownOp ∧
    decode .request [0x02#8, 0x01#8, 0#8, 0#8] = .error .fieldNotZero ∧
    decode .request [0x11#8, 0x09#8, 0x01#8, 0#8] = .error .fieldNotZero ∧
    decode .request [0x10#8, 0x09#8, 0x26#8, 0x01#8, 0xAA#8] = .error .lenOutOfRange ∧
    decode .request [0x01#8, 0#8, 0#8, 0x03#8, 1#8, 2#8, 3#8] = .error .lenOutOfRange ∧
    decode .request [0x20#8, 0#8, 0x0C#8, 0x02#8, 0x93#8] = .error .wrongLength := by decide
/-- R90 to R92: bit 0 of the address byte, the placeholder, a one-byte frame that is not 0. -/
theorem test_decode_wire_rejects :
    decode .wire [0x13#8, 0x26#8] = .error .reservedBit ∧
    decode .wire [0x92#8, 0x01#8] = .error .placeholderNotZero ∧
    decode .wire [0x01#8] = .error .unknownFrame ∧ decode .wire [] = .error .wrongLength := by decide

/-! ### Steps -/

/-- A captured sequencer whose transport will give these answers. -/
def captured (answers : List Answer) : State :=
  { State.reset with opened := true, env := .free answers }

/-- An answer that carries a register's value. -/
def val (v : Byte) : Answer := .ok [0x00#8, v]

/-- The response handed over last. -/
def response : Outcome → Option (List Byte)
  | .next t => t.rspOut.getLast?
  | _ => none

/-- The transfers issued. -/
def sent : Outcome → List (List Byte)
  | .next t => t.calls.filterMap fun c => match c.1 with
    | .xfer out => some out
    | _ => none
  | _ => []

/-- V10, V12: `[0x12, 0x26]` goes out; an empty echo is success. -/
theorem test_wrreg :
    let o := exec (.wrreg 0x09#8 0x26#8) (captured [.ok []])
    sent o = [[0x12#8, 0x26#8]] ∧
    response o = some [0#8, 0#8, 0xFF#8, 0#8, 0#8, 0#8, 0#8, 0#8, 0#8] := by decide
/-- V11; V8: address 0xFF goes out as 0x7E. -/
theorem test_wrreg_fails :
    let o := exec (.wrreg 0xFF#8 0x26#8) (captured [.fail])
    sent o = [[0x7E#8, 0x26#8]] ∧
    response o = some [1#8, 0#8, 0xFF#8, 0#8, 0#8, 0#8, 0#8, 0#8, 0#8] := by decide
/-- V14: echo byte 1 is the value, whatever else is echoed. -/
theorem test_rdreg :
    let o := exec (.rdreg 0x09#8) (captured [.ok [0x77#8, 0x5A#8, 0x99#8]])
    sent o = [[0x92#8, 0x00#8]] ∧
    response o = some [0#8, 0#8, 0xFF#8, 0#8, 0#8, 0#8, 0#8, 0x5A#8, 0#8] := by decide
/-- V15: a short echo. -/
theorem test_rdreg_short_echo :
    response (exec (.rdreg 0x09#8) (captured [.ok [0x5A#8]])) =
      some [1#8, 2#8, 0xFF#8, 0#8, 0#8, 0#8, 0#8, 0#8, 0#8] := by decide
/-- V18. -/
theorem test_setbits :
    let o := exec (.setbits 0x0A#8 0x80#8) (captured [val 0x03#8, .ok []])
    sent o = [[0x94#8, 0x00#8], [0x14#8, 0x83#8]] ∧
    response o = some [0#8, 0#8, 0xFF#8, 0#8, 0#8, 0#8, 0#8, 0#8, 0#8] := by decide
/-- V26: a failed read and a failed write: advisory and `TransportError` together. -/
theorem test_setbits_fails :
    response (exec (.setbits 0x0A#8 0x80#8) (captured [.fail, .fail])) =
      some [1#8, 1#8, 0xFF#8, 0#8, 0#8, 0#8, 0#8, 0#8, 0#8] := by decide
/-- V21. -/
theorem test_clrbits :
    sent (exec (.clrbits 0x04#8 0x80#8) (captured [val 0x94#8, .ok []])) =
      [[0x88#8, 0x00#8], [0x08#8, 0x14#8]] := by decide
/-- V24: a short echo in the read is tolerated; no short-echo flag. -/
theorem test_clrbits_tolerates :
    response (exec (.clrbits 0x04#8 0x80#8) (captured [.ok [0x00#8], .ok []])) =
      some [0#8, 1#8, 0xFF#8, 0#8, 0#8, 0#8, 0#8, 0#8, 0#8] := by decide
/-- V63 with no payload: Authenticate ends on bit 0x10; nothing is drained. -/
theorem test_exec_authent :
    let o := exec (.exec 0x0E#8 []) (captured
      [.ok [], val 0x94#8, .ok [], val 0x03#8, .ok [], .ok [], .ok [], val 0x10#8, val 0x80#8, .ok [],
       val 0x00#8])
    sent o = [[0x04#8, 0x92#8], [0x88#8, 0#8], [0x08#8, 0x14#8], [0x94#8, 0#8], [0x14#8, 0x83#8]] ++
      [[0x02#8, 0x00#8], [0x02#8, 0x0E#8], [0x88#8, 0#8], [0x9A#8, 0#8], [0x1A#8, 0x00#8],
       [0x8C#8, 0#8]] ∧
    response o = some [0#8, 0#8, 1#8, 0#8, 0#8, 0#8, 0#8, 0#8, 0#8] := by decide
/-- P5: Transceive, a partly valid last byte, status by `INTENT` (0x21 shows bit 0x01). -/
theorem test_exec_transceive :
    response (exec (.exec 0x0C#8 [0x93#8, 0x20#8])
      { captured ([.ok [], val 0#8, .ok [], val 0#8, .ok [], .ok [], .ok [], .ok [], .ok [], val 0#8,
          .ok [], val 0x21#8, val 0x80#8, .ok [], val 0#8, val 0x03#8, val 0x14#8] ++
          [val 0x88#8, val 0x04#8, val 0x0B#8]) with
        cfg := { Cfg.ref with noTagRule := .intent } }) =
      some [0#8, 0#8, 0#8, 0#8, 0#8, 0#8, 0x14#8, 0#8, 3#8, 0x88#8, 0x04#8, 0x0B#8] := by decide
/-- P2, V70: REQMODE under `LITERAL`. -/
theorem test_reqmode :
    let o := exec (.reqmode 0x26#8) (captured ([.ok [], .ok [], val 0#8, .ok [], val 0#8, .ok [], .ok [],
      .ok [], .ok [], val 0x07#8, .ok []] ++ [val 0x04#8, val 0x64#8, val 0x87#8, .ok [], val 0#8,
      val 0x02#8, val 0x10#8, val 0x04#8, val 0x00#8]))
    (sent o).take 2 = [[0x1A#8, 0x07#8], [0x04#8, 0xF7#8]] ∧
    response o = some [6#8, 0#8, 1#8, 0#8, 0#8, 0#8, 0x10#8, 0#8, 2#8, 0x04#8, 0x00#8] := by decide
/-- V76: the bit-framing write fails; the engine is not started. -/
theorem test_reqmode_fails :
    sent (exec (.reqmode 0x26#8) (captured [.fail])) = [[0x1A#8, 0x07#8]] ∧
    response (exec (.reqmode 0x26#8) (captured [.fail])) =
      some [1#8, 0#8, 0xFF#8, 0#8, 0#8, 0#8, 0#8, 0#8, 0#8] := by decide
/-- R190's worked example, and a second capture. -/
theorem test_capture :
    (∃ t, exec (.capture 1000000#32 [0x62#8]) { State.reset with env := .free [.ok []] } = .next t ∧
      t.opened = true ∧ t.speed = 1000000#32 ∧ t.busaddr = [0x62#8] ∧
      t.calls = [(.openBus [0x62#8] 1000000#32, .ok [])]) ∧
    response (exec (.capture 0#32 []) (captured [])) =
      some [5#8, 0#8, 0xFF#8, 0#8, 0#8, 0#8, 0#8, 0#8, 0#8] :=
  ⟨⟨_, rfl, rfl, rfl, rfl, rfl⟩, by decide⟩
/-- R191: the close is called and the bus closed although the byte failed. -/
theorem test_release :
    (∃ t, exec .release (captured [.fail, .ok []]) = .next t ∧ t.opened = false ∧
      t.calls = [(.xfer [0x00#8], .fail), (.closeBus, .ok [])]) ∧
    response (exec .release (captured [.fail, .ok []])) =
      some [1#8, 0#8, 0xFF#8, 0#8, 0#8, 0#8, 0#8, 0#8, 0#8] :=
  ⟨⟨_, rfl, rfl, rfl⟩, by decide⟩
/-- R183, R192, R193: in mode Released too. -/
theorem test_placeholders :
    response (exec .scan State.reset) = some [3#8, 0#8, 0xFF#8, 0#8, 0#8, 0#8, 0#8, 0#8, 0#8] ∧
    response (exec (.flash [1#8, 2#8]) State.reset) =
      some [3#8, 0#8, 0xFF#8, 0#8, 0#8, 0#8, 0#8, 0#8, 0#8] ∧
    response (exec .rdanticoll (captured [])) =
      some [3#8, 0#8, 0xFF#8, 0#8, 0#8, 0#8, 0#8, 0#8, 0#8] := by decide
/-- V17, V27, V69, V77: before any capture. -/
theorem test_not_captured :
    response (step (State.reset.withFetchWord 32 0x11090000)) =
      some [2#8, 0#8, 0xFF#8, 0#8, 0#8, 0#8, 0#8, 0#8, 0#8] ∧
    sent (step (State.reset.withFetchWord 32 0x20000C00)) = [] := by decide
/-- R101: an illegal request at the port. -/
theorem test_bad_request :
    response (step { State.reset with reqIn := [0x05#8, 0#8, 0#8, 0#8] }) =
      some [4#8, 0#8, 0xFF#8, 0#8, 0#8, 0#8, 0#8, 0#8, 0#8] := by decide
/-- The wire words of the table are run by the first step. -/
theorem test_fetch_wire :
    sent (step (({ State.reset with env := .free [.ok [], .ok []] }).withFetchWord 16 0x1226)) =
      [[0x12#8, 0x26#8]] ∧
    sent (step (({ State.reset with env := .free [val 1#8] }).withFetchWord 16 0x9200)) =
      [[0x92#8, 0x00#8]] ∧
    sent (step (({ State.reset with env := .free [.fail] }).withFetchWord 8 0x00)) = [[0x00#8]] := by
  decide
/-- V30, V33 to V37. -/
theorem test_framer :
    bitLength 0x02#8 0#3 = 16#32 ∧ bitLength 0x00#8 0#3 = 0#32 ∧
    bitLength 0x00#8 7#3 = 0xFFFFFFFF#32 ∧ (bitLength 0x00#8 1#3).toInt = -7 ∧
    bitLength 0xFF#8 0#3 = 2040#32 ∧ drainCount Cfg.ref 0x00#8 = 1#8 ∧
    drainCount Cfg.ref 0x41#8 = 64#8 := by decide
/-- The mock's memory: a write of 0 removes the entry, other cells stay. -/
theorem test_memory :
    Memory.write (Memory.write [] 9 0x26#8) 4 0x14#8 = [(4, 0x14#8), (9, 0x26#8)] ∧
    Memory.write [(4, 0x14#8), (9, 0x26#8)] 4 0x00#8 = [(9, 0x26#8)] ∧
    Memory.read [(4, 0x14#8), (9, 0x26#8)] 9 = 0x26#8 ∧
    Memory.wf [(9, 0x26#8), (4, 0x14#8)] = false := by decide

/-! ### Witnesses: concrete states and operands that meet the statements' hypotheses -/

/-- Engine registers of an EXEC of Transceive with one payload byte. -/
def engineRegs : Work :=
  { Work.blank with
    op := some .exec, cmd := some 0x0C#8, payload := some [0x26#8], plen := some 1#8
    irqEn := some 0x77#8, waitIrq := some 0x30#8 }

/-- A captured sequencer inside an operation. -/
def busy (p : Phase) (x : Work) (answers : List Answer) : State :=
  { captured answers with pc := p, x := x }

/-- A captured sequencer meets the invariant, whatever its transport answers. -/
theorem captured_inv (answers : List Answer) : Inv (captured answers) :=
  ⟨rfl, rfl, Nat.zero_le _, fun _ => rfl, rfl⟩

/-- The same with the replay mock. -/
def replaying (m : Memory) : State := { captured [] with env := .replay m }

theorem replaying_inv : Inv (replaying [(9, 0x26#8)]) :=
  ⟨rfl, rfl, Nat.zero_le _, fun _ => rfl, rfl⟩

theorem busy_wr_inv (ans : List Answer) :
    Inv (busy .wr { Work.blank with op := some .wrreg, a := some 9#8, v := some 0x26#8 } ans) :=
  ⟨rfl, rfl, Nat.zero_le _, by simp [busy], ⟨rfl, rfl, rfl, rfl, ⟨rfl, rfl, rfl, rfl⟩⟩⟩

theorem busy_rmwRd_inv (ans : List Answer) :
    Inv (busy .rmwRd { Work.blank with op := some .setbits, a := some 9#8, v := some 1#8 } ans) :=
  ⟨rfl, rfl, Nat.zero_le _, by simp [busy], ⟨rfl, .inl rfl, rfl, rfl, ⟨rfl, rfl, rfl, rfl⟩⟩⟩

theorem busy_rd_inv (ans : List Answer) :
    Inv (busy .rd { Work.blank with op := some .rdreg, a := some 9#8 } ans) :=
  ⟨rfl, rfl, Nat.zero_le _, by simp [busy], ⟨rfl, rfl, rfl, ⟨rfl, rfl, rfl, rfl⟩⟩⟩

theorem busy_relWr_inv (ans : List Answer) :
    Inv (busy .relWr { Work.blank with op := some .release } ans) :=
  ⟨rfl, rfl, Nat.zero_le _, by simp [busy], ⟨rfl, rfl, ⟨rfl, rfl, rfl, rfl⟩⟩⟩

theorem witness_DecodeOfEncode :
    Instr.wf (.capture 5#32 (List.replicate 251 1#8)) = true ∧
    Instr.wf (.exec 0x0C#8 (List.replicate 255 1#8)) = true ∧
    Instr.wf (.spi2w 0x3F#6 0xFF#8) = true := by decide +kernel

theorem witness_LegalHeaderIffRowSelects :
    ([] : List Byte).length ≤ payloadMax ∧ (List.replicate 255 1#8).length ≤ payloadMax := by
  decide +kernel

theorem witness_WireFrameBytesDecode : Cfg.ref.rdFlag = 0x80#8 := rfl

theorem witness_StepRunsDecodedInstruction :
    (∃ (s : State) (frame rest : List Byte) (i : Instr), s.cfg.wf = true ∧ s.pc = .ready ∧
      takeFrame s.reqIn = some (frame, rest) ∧ decode .request frame = .ok i) ∧
    (∃ (s : State) (f : Frame), s.cfg.wf = true ∧ s.pc ≠ .ready ∧ s.frameDue = some f) :=
  ⟨⟨{ State.reset with reqIn := [0x02#8, 0#8, 0#8, 0#8, 0x03#8] }, [0x02#8, 0#8, 0#8, 0#8],
      [0x03#8], .release, by decide⟩,
    ⟨busy .relWr Work.blank [], .release, by decide⟩⟩

theorem witness_EncodedRequestRuns :
    let s := { State.reset with reqIn := [0x10#8, 0x09#8, 0x26#8, 0#8, 0x03#8] }
    s.cfg.wf = true ∧ s.pc = .ready ∧ Instr.wf (.wrreg 9#8 0x26#8) = true ∧
      Instr.port (.wrreg 9#8 0x26#8) = .request ∧
      s.reqIn = encode (.wrreg 9#8 0x26#8) ++ [0x03#8] := by decide

theorem witness_FetchWordRuns :
    State.reset.cfg.wf = true ∧ decodeTableWord 32 0x20000C02 = some (.exec 0x0C#8 [0#8, 0#8]) ∧
    decodeTableWord 16 0xFE00 = some (.spi2r 0x3F#6) ∧ decodeTableWord 8 0 = some .spi1 := by decide

theorem witness_IllegalRequestRefused :
    Inv { captured [] with reqIn := [0x01#8, 0#8, 0#8, 0x03#8, 1#8, 2#8, 3#8, 0x02#8] } ∧
    (0x03#8 : Byte).toNat ≤ [1#8, 2#8, 3#8, 0x02#8].length ∧
    ∀ r ∈ requestRows, r.selects (0x01#8 ++ 0#8 ++ 0#8 ++ 0x03#8) = false :=
  ⟨⟨rfl, rfl, Nat.zero_le _, fun _ => rfl, rfl⟩, by decide, by decide⟩

theorem witness_SilentBetweenOperations :
    State.reset.cfg.wf = true ∧ State.reset.pc = .ready ∧ takeFrame State.reset.reqIn = none := by
  decide

theorem witness_BusyIgnoresRequestPort :
    (∃ t, (busy .armIrqRd engineRegs [.fail]).pc ≠ .ready ∧
      step (busy .armIrqRd engineRegs [.fail]) = .next t) ∧ Instr.port .scan = .request :=
  ⟨⟨_, by decide, rfl⟩, rfl⟩

theorem witness_AdvisoryNeverSteers :
    (∃ t, (busy .armIrqRd engineRegs [.fail]).pc ≠ .ready ∧
      (busy .armIrqRd engineRegs [.fail]).pc ≠ .done ∧
      (busy .armIrqRd engineRegs [.fail]).pc ≠ .abort ∧
      step (busy .armIrqRd engineRegs [.fail]) = .next t) ∧ Instr.port (.reqmode 0#8) = .request :=
  ⟨⟨_, by decide, by decide, by decide, rfl⟩, rfl⟩

/-- Registers of an engine in its last phases, every register of which holds a value. -/
def fullRegs : Work :=
  { engineRegs with
    a := some 9#8, v := some 1#8, tmp := some 1#8, pidx := some 0#8, rem := some 1#16
    irqVal := some 1#8, errVal := some 0#8, n := some 1#8, lastBits := some 0#3, nc := some 1#8
    didx := some 0#8, rlen := some 0#8, bitLen := some 0#32, val := some 0#8
    status := some .ok, res := some .success }

/-- A step from these registers in this phase faults, for a register without a value. -/
def faultsIn (p : Phase) (x : Work) : Bool :=
  match step (busy p x []) with
  | .fault (.unwritten q) => q == p
  | _ => false

/-- One state for each register and phase of the statement, in which that register alone holds no value;
then the buffers, an index past what is written. -/
theorem witness_UnwrittenReadFaults :
    (∀ p ∈ [Phase.wr, .rd, .rmwRd, .rmwWr, .rqFrame, .armIen, .armIrqRd, .armIrqWr, .armFlushRd,
        .armFlushWr, .forceIdle, .load, .execute, .startRd] ++
        [.startWr, .poll, .stopRd, .stopWr, .errRd, .lvlRd, .ctrlRd, .drain, .rqCheck, .openBus,
        .relWr, .closeBus, .done],
      faultsIn p { fullRegs with op := none } = true) ∧
    (∀ p ∈ [Phase.wr, .rd, .rmwRd, .rmwWr],
      faultsIn p { fullRegs with a := none } = true) ∧
    (∀ p ∈ [Phase.wr, .rmwWr, .rqFrame],
      faultsIn p { fullRegs with v := none } = true) ∧
    (∀ p ∈ [Phase.rmwWr, .armIrqWr, .armFlushWr, .startWr, .stopWr],
      faultsIn p { fullRegs with tmp := none } = true) ∧
    (∀ p ∈ [Phase.rqFrame, .armIen, .execute, .errRd],
      faultsIn p { fullRegs with cmd := none } = true) ∧
    (∀ x ∈ [{ fullRegs with payload := none }, { fullRegs with plen := none },
        { fullRegs with pidx := none }, { fullRegs with pidx := some 1#8 }],
      faultsIn .load x = true) ∧
    faultsIn .forceIdle { fullRegs with plen := none } = true ∧
    (∀ p ∈ [Phase.armIen, .errRd],
      faultsIn p { fullRegs with irqEn := none } = true) ∧
    (∀ x ∈ [{ fullRegs with waitIrq := none }, { fullRegs with rem := none }],
      faultsIn .poll x = true) ∧
    faultsIn .stopWr { fullRegs with rem := none } = true ∧
    faultsIn .errRd { fullRegs with irqVal := none } = true ∧
    faultsIn .ctrlRd { fullRegs with n := none } = true ∧
    (∀ x ∈ [{ fullRegs with nc := none }, { fullRegs with didx := none },
        { fullRegs with didx := some 1#8 },
        { fullRegs with didx := some 64#8, resp := List.replicate 64 0#8 }],
      faultsIn .drain x = true) ∧
    (∀ x ∈ [{ fullRegs with status := none }, { fullRegs with bitLen := none }],
      faultsIn .rqCheck x = true) ∧
    (∀ x ∈ [{ fullRegs with status := none }, { fullRegs with bitLen := none },
        { fullRegs with rlen := none }, { fullRegs with rlen := some 1#8 },
        { fullRegs with op := some .reqmode, val := none },
        { fullRegs with op := some .rdreg, val := none }],
      faultsIn .done x = true) := by
  decide +kernel

/-- With every register it reads holding a value, a phase does not fault. -/
theorem test_full_registers_run :
    ∀ p ∈ [Phase.wr, .rd, .rmwRd, .rmwWr, .armIen, .armIrqRd, .armIrqWr, .load, .execute, .poll,
      .stopWr, .errRd, .ctrlRd, .drain, .rqCheck, .done], faultsIn p fullRegs = false := by
  decide +kernel

/-- ResetMeetsInvariant, InvariantNeverStops. -/
theorem witness_Inv : Inv (captured []) := captured_inv []

theorem witness_StepKeepsInvariant :
    Inv (captured [.ok []]) ∧ ∃ t, step (captured [.ok []]) = .next t :=
  ⟨captured_inv _, _, rfl⟩

theorem witness_EveryOperationEnds :
    Inv (captured []) ∧ (captured []).pc = .ready ∧ (captured []).env.fair = true ∧
    Instr.wf (.exec 0x0C#8 [0x26#8]) = true ∧ Instr.port (.exec 0x0C#8 [0x26#8]) = .request :=
  ⟨captured_inv _, rfl, rfl, rfl, rfl⟩

/-- EveryOperationEnds, its clause on a call that is never answered: the three kinds of phase. -/
theorem witness_EveryOperationEnds_waiting :
    (∃ s : State, Inv s ∧ s.env = .stuck [] ∧ s.frameDue ≠ none) ∧
    (∃ s : State, Inv s ∧ s.env = .stuck [] ∧ s.pc = .openBus) ∧
    (∃ s : State, Inv s ∧ s.env = .stuck [] ∧ s.pc = .closeBus) :=
  ⟨⟨{ busy .relWr { Work.blank with op := some .release } [] with env := .stuck [] },
      ⟨rfl, rfl, Nat.zero_le _, by simp [busy], ⟨rfl, rfl, ⟨rfl, rfl, rfl, rfl⟩⟩⟩, rfl, by decide⟩,
    ⟨{ State.reset with
        pc := .openBus, env := .stuck []
        x := { Work.blank with op := some .capture, capAddr := some [], capSpeed := some 0#32 } },
      ⟨rfl, rfl, Nat.zero_le _, by simp, ⟨rfl, rfl, rfl, rfl, Nat.zero_le _, ⟨rfl, rfl, rfl, rfl⟩⟩⟩, rfl, rfl⟩,
    ⟨{ captured [] with
        pc := .closeBus, env := .stuck []
        x := { Work.blank with op := some .release, res := some .success } },
      ⟨rfl, rfl, Nat.zero_le _, by simp, ⟨rfl, rfl, rfl, ⟨rfl, rfl, rfl, rfl⟩⟩⟩, rfl, rfl⟩⟩

theorem witness_OperationFrame :
    ∃ t, Inv (captured [.fail]) ∧ (captured [.fail]).pc = .ready ∧
      (captured [.fail]).env.fair = true ∧ Instr.wf (.wrreg 9#8 1#8) = true ∧
      Instr.port (.wrreg 9#8 1#8) = .request ∧ (∀ sp ad, Instr.wrreg 9#8 1#8 ≠ .capture sp ad) ∧
      Instr.wrreg 9#8 1#8 ≠ .release ∧ exec (.wrreg 9#8 1#8) (captured [.fail]) = .next t :=
  ⟨_, captured_inv _, rfl, rfl, rfl, rfl, by simp, by simp, rfl⟩

theorem witness_TransfersOnOpenBusOnly :
    ∃ t, Inv (busy .relWr { Work.blank with op := some .release } [.fail]) ∧
      step (busy .relWr { Work.blank with op := some .release } [.fail]) = .next t :=
  ⟨_, busy_relWr_inv _, rfl⟩

theorem witness_OnlyConfiguredRegistersTouched :
    ∃ t, Inv (captured [.fail]) ∧ (captured [.fail]).pc = .ready ∧
      Instr.wf (.exec 0x0C#8 []) = true ∧ Instr.port (.exec 0x0C#8 []) = .request ∧
      (∀ a v, Instr.exec 0x0C#8 [] ≠ .wrreg a v) ∧ (∀ a, Instr.exec 0x0C#8 [] ≠ .rdreg a) ∧
      (∀ a m, Instr.exec 0x0C#8 [] ≠ .setbits a m) ∧ (∀ a m, Instr.exec 0x0C#8 [] ≠ .clrbits a m) ∧
      exec (.exec 0x0C#8 []) (captured [.fail]) = .next t :=
  ⟨_, captured_inv _, rfl, rfl, rfl, by simp, by simp, by simp, by simp, rfl⟩

theorem witness_NotCapturedOnClosedBus : ∃ s : State, Inv s ∧ s.pc = .ready ∧ s.opened = false :=
  ⟨{ captured [] with opened := false }, ⟨rfl, rfl, Nat.zero_le _, fun _ => rfl, rfl⟩, rfl, rfl⟩

theorem witness_PlaceholdersNotImplemented : Inv (captured []) ∧ (captured []).pc = .ready :=
  ⟨captured_inv _, rfl⟩

/-- The closed-bus clauses of WrregWritesRegister, RdregReadsRegister, SetbitsWritesOr,
ClrbitsWritesAndNot, ExecIsThePseudocode and ReqmodeIsThePseudocode. -/
theorem witness_closed_bus : State.reset.pc = .ready ∧ State.reset.opened = false := ⟨rfl, rfl⟩

theorem witness_WrregWritesRegister :
    ∃ t, (captured [.ok []]).pc = .ready ∧ (captured [.ok []]).opened = true ∧
      (captured [.ok []]).call (.xfer [encAddr 0xFF#8, 0x26#8]) = some (.ok [], t) :=
  ⟨_, rfl, rfl, rfl⟩

/-- One answer for each clause; the short echo at its longest. -/
theorem witness_RdregReadsRegister :
    (∃ t, (captured [.ok [1#8, 2#8]]).call
      (.xfer [encAddr 9#8 ||| Cfg.ref.rdFlag, 0x00#8]) = some (.ok [1#8, 2#8], t)) ∧
    (∃ t, (captured [.ok [1#8]]).call
      (.xfer [encAddr 9#8 ||| Cfg.ref.rdFlag, 0x00#8]) = some (.ok [1#8], t)) ∧
    (∃ t, (captured [.fail]).call
      (.xfer [encAddr 9#8 ||| Cfg.ref.rdFlag, 0x00#8]) = some (.fail, t)) ∧
    (captured [.fail]).pc = .ready ∧ (captured [.fail]).opened = true :=
  ⟨⟨_, rfl⟩, ⟨_, rfl⟩, ⟨_, rfl⟩, rfl, rfl⟩

/-- SetbitsWritesOr. -/
theorem witness_SetbitsWritesOr :
    ∃ t u, (captured [val 3#8, .fail]).pc = .ready ∧ (captured [val 3#8, .fail]).opened = true ∧
      (captured [val 3#8, .fail]).call (.xfer [encAddr 9#8 ||| Cfg.ref.rdFlag, 0x00#8]) =
        some (.ok [0x00#8, 3#8], t) ∧
      t.call (.xfer [encAddr 9#8, 3#8 ||| 0x80#8]) = some (.fail, u) :=
  ⟨_, _, rfl, rfl, rfl, rfl⟩

/-- ClrbitsWritesAndNot. -/
theorem witness_ClrbitsWritesAndNot :
    ∃ t u, (captured [val 3#8, .ok []]).pc = .ready ∧ (captured [val 3#8, .ok []]).opened = true ∧
      (captured [val 3#8, .ok []]).call (.xfer [encAddr 9#8 ||| Cfg.ref.rdFlag, 0x00#8]) =
        some (.ok [0x00#8, 3#8], t) ∧
      t.call (.xfer [encAddr 9#8, 3#8 &&& ~~~0x01#8]) = some (.ok [], u) :=
  ⟨_, _, rfl, rfl, rfl, rfl⟩

/-- SetbitsWritesOr and ClrbitsWritesAndNot, their clauses on a read that fails: both kinds of failed
read. -/
theorem witness_bits_read_fails :
    (∃ t u, (captured [.fail, .ok []]).call (.xfer [encAddr 9#8 ||| Cfg.ref.rdFlag, 0x00#8]) =
        some (.fail, t) ∧ State.call { t with draws := t.draws + 1 }
        (.xfer [encAddr 9#8, Config.freeByte t.draws ||| 1#8]) = some (.ok [], u)) ∧
    (∃ t u, (captured [.ok [1#8], .ok []]).call (.xfer [encAddr 9#8 ||| Cfg.ref.rdFlag, 0x00#8]) =
        some (.ok [1#8], t) ∧ State.call { t with draws := t.draws + 1 }
        (.xfer [encAddr 9#8, Config.freeByte t.draws &&& ~~~1#8]) = some (.ok [], u)) ∧
    (captured [.fail, .ok []]).pc = .ready ∧ (captured [.fail, .ok []]).opened = true :=
  ⟨⟨_, _, rfl, rfl⟩, ⟨_, _, rfl, rfl⟩, rfl, rfl⟩

theorem witness_ReplayMockAnswers :
    Memory.wf [(9, 0x26#8)] = true ∧ (0x12#8 : Byte).getLsbD 7 = false ∧
    (0x92#8 : Byte).getLsbD 7 = true := by decide

theorem witness_ReplayMockReadsBack :
    (replaying [(9, 0x26#8)]).pc = .ready ∧ (replaying [(9, 0x26#8)]).opened = true ∧
    (replaying [(9, 0x26#8)]).env = .replay [(9, 0x26#8)] ∧ Memory.wf [(9, 0x26#8)] = true ∧
    (replaying [(9, 0x26#8)]).cfg.rdFlag = 0x80#8 := by decide

theorem witness_ReplayStoresAtItsCell :
    Inv (replaying [(9, 0x26#8)]) ∧ (replaying [(9, 0x26#8)]).env = .replay [(9, 0x26#8)] ∧
    (∃ t, exec (.wrreg 0x49#8 1#8) (replaying [(9, 0x26#8)]) = .next t) ∧
    (∃ t, exec (.rdreg 0x09#8) (replaying [(9, 0x26#8)]) = .next t) ∧
    (∃ t, exec (.exec 0x0E#8 []) { replaying [(9, 0x26#8)] with opened := false } = .next t) ∧
    Inv { replaying [(9, 0x26#8)] with opened := false } ∧
    (∃ k, ∀ r ∈ [Cfg.ref.regCommand, Cfg.ref.regComIen, Cfg.ref.regComIrq, Cfg.ref.regFifoData,
        Cfg.ref.regFifoLevel, Cfg.ref.regBitFraming], k ≠ (wireAddr (encAddr r)).toNat) ∧
    (∃ s t, Inv s ∧ s.env = .replay [] ∧ exec (.spi2w 9#6 0x26#8) s = .next t) :=
  ⟨replaying_inv, rfl, ⟨_, rfl⟩, ⟨_, rfl⟩, ⟨_, rfl⟩, ⟨rfl, rfl, Nat.zero_le _, fun _ => rfl, rfl⟩,
    ⟨0x0C, by decide⟩,
    ⟨{ busy .wr { Work.blank with op := some .wrreg, a := some 9#8, v := some 0x26#8 } [] with
        env := .replay [] }, _,
      ⟨rfl, rfl, Nat.zero_le _, by simp [busy], ⟨rfl, rfl, rfl, rfl, ⟨rfl, rfl, rfl, rfl⟩⟩⟩, rfl, rfl⟩⟩

/-- ExecIsThePseudocode, ReqmodeIsThePseudocode, ExecTripleShape. -/
theorem witness_ExecIsThePseudocode :
    Inv (captured []) ∧ (captured []).pc = .ready ∧ (captured []).opened = true ∧
    (captured []).cfg.wf = true ∧ (captured []).env.fair = true ∧
    (List.replicate 255 0#8 : List Byte).length ≤ payloadMax :=
  ⟨captured_inv _, rfl, rfl, rfl, rfl, by decide +kernel⟩

theorem witness_LiteralRuleNeverOk :
    ∃ t frame, Inv (captured [.fail]) ∧ (captured [.fail]).pc = .ready ∧
      (captured [.fail]).opened = true ∧ (captured [.fail]).env.fair = true ∧
      (captured [.fail]).cfg.noTagRule = .literal ∧
      t.rspOut = (captured [.fail]).rspOut ++ [frame] ∧
      exec (.exec 0x0C#8 []) (captured [.fail]) = .next t :=
  ⟨_, _, captured_inv _, rfl, rfl, rfl, rfl, rfl, rfl⟩

theorem witness_NoTagDowngrade :
    Cfg.ref.noTagRule = .literal ∧ { Cfg.ref with noTagRule := .intent }.noTagRule = .intent := by
  decide

theorem witness_FramerArithmetic :
    1 ≤ (64#8 : Byte).toNat ∧ (64#8 : Byte).toNat ≤ Cfg.ref.maxLen.toNat := by decide

/-- One read left and none shown: both clauses at their boundary. -/
theorem witness_PollLoopReads :
    (∃ s : State, s.pc = .poll ∧ s.opened = true ∧ s.x.waitIrq = some 0x30#8 ∧
      s.x.rem = some 2#16 ∧
      s.env = .free (([(0#8, 0x44#8)] ++ [(0#8, 0x10#8)]).map echo ++ []) ∧
      (∀ p ∈ [((0#8, 0x44#8) : Byte × Byte)], p.2 &&& 0x01#8 = 0x00#8 ∧ p.2 &&& 0x30#8 = 0x00#8) ∧
      [((0#8, 0x44#8) : Byte × Byte)].length < (2#16 : Half).toNat ∧
      (0x10#8 : Byte) &&& 0x30#8 ≠ 0x00#8) ∧
    ([((0#8, 0x44#8) : Byte × Byte)].length + 1 = (2#16 : Half).toNat ∧
      (0x44#8 : Byte) &&& 0x01#8 = 0x00#8 ∧ (0x44#8 : Byte) &&& 0x30#8 = 0x00#8) :=
  ⟨⟨busy .poll { engineRegs with rem := some 2#16 } [val 0x44#8, val 0x10#8], rfl, rfl, rfl, rfl, rfl,
    by simp, by decide, by decide⟩, by decide⟩

/-- The transition-table statements: for each phase a state with its registers whose transport answers
well; the step then goes where the statement says. -/
theorem witness_phases :
    (∃ t, step (busy .armIen engineRegs [.ok []]) = .next t ∧ t.pc = .armIrqRd) ∧
    (∃ t, step (busy .armIrqRd engineRegs [val 0x94#8]) = .next t ∧ t.pc = .armIrqWr) ∧
    (∃ t, step (busy .armIrqWr { engineRegs with tmp := some 0x94#8 } [.ok []]) = .next t ∧
      t.pc = .armFlushRd) ∧
    (∃ t, step (busy .armFlushRd engineRegs [val 0x03#8]) = .next t ∧ t.pc = .armFlushWr) ∧
    (∃ t, step (busy .armFlushWr { engineRegs with tmp := some 0x03#8 } [.ok []]) = .next t ∧
      t.pc = .forceIdle) ∧
    (∃ t, step (busy .forceIdle engineRegs [.ok []]) = .next t ∧ t.pc = .load) ∧
    (∃ t, step (busy .forceIdle { engineRegs with plen := some 0#8 } [.ok []]) = .next t ∧
      t.pc = .execute) ∧
    (∃ t, step (busy .load { engineRegs with pidx := some 0#8 } [.ok []]) = .next t ∧
      t.pc = .execute) ∧
    (∃ t, step (busy .execute engineRegs [.ok []]) = .next t ∧ t.pc = .startRd ∧ t.x.rem = none) ∧
    (∃ t, step (busy .execute { engineRegs with cmd := some 0x0E#8 } [.ok []]) = .next t ∧
      t.pc = .poll ∧ t.x.rem = some 2000#16) ∧
    (∃ t, step (busy .startRd engineRegs [val 0x07#8]) = .next t ∧ t.pc = .startWr) ∧
    (∃ t, step (busy .startWr { engineRegs with tmp := some 0x07#8 } [.ok []]) = .next t ∧
      t.pc = .poll ∧ t.x.rem = some 2000#16) :=
  ⟨⟨_, rfl, rfl⟩, ⟨_, rfl, rfl⟩, ⟨_, rfl, rfl⟩, ⟨_, rfl, rfl⟩, ⟨_, rfl, rfl⟩, ⟨_, rfl, rfl⟩,
    ⟨_, rfl, rfl⟩, ⟨_, rfl, rfl⟩, ⟨_, rfl, rfl, rfl⟩, ⟨_, rfl, rfl, rfl⟩, ⟨_, rfl, rfl⟩,
    ⟨_, rfl, rfl, rfl⟩⟩

/-- A ready sequencer on an open bus whose calls are never answered. -/
def unanswered : State := { State.reset with opened := true, env := .stuck [] }

/-- Such a sequencer, and what REQMODE holds in its first phase on it. -/
theorem witness_FirstPhaseOperands :
    unanswered.pc = .ready ∧ unanswered.opened = true ∧ unanswered.env = .stuck [] ∧
      ∃ t, exec (.reqmode 0x26#8) unanswered = .next t ∧ t.pc = .rqFrame ∧
        t.x.cmd = some 0x0C#8 ∧ t.x.payload = some [0x26#8] := by
  refine ⟨rfl, rfl, rfl, (State.setX (unanswered.beginOp (some .reqmode)) { Work.blank with
    op := some .reqmode, v := some 0x26#8 }).enterRqFrame, ?_, rfl, rfl, rfl⟩
  simp only [exec, execReqmode, State.accepting, unanswered, State.reset, if_true, State.runOp]
  exact runFor_waiting _ rfl

/-- Registers of an engine that has polled a termination bit, and of one that has timed out. -/
def polledRegs (r : Half) : Work :=
  { engineRegs with tmp := some 0x87#8, rem := some r, irqVal := some 0x64#8 }

/-- Registers of the framer. -/
def framerRegs (nc i : Byte) : Work :=
  { polledRegs 2000#16 with
    status := some .noTagError, n := some 2#8, bitLen := some 16#32, nc := some nc, didx := some i
    rlen := some i, resp := List.replicate i.toNat 4#8 }

theorem witness_phases_resolve :
    (∃ t, step (busy .stopRd (polledRegs 1#16) [val 0x87#8]) = .next t ∧ t.pc = .stopWr) ∧
    (∃ t, step (busy .stopWr (polledRegs 1#16) [.ok []]) = .next t ∧ t.pc = .errRd) ∧
    (∃ t, step (busy .stopWr (polledRegs 0#16) [.ok []]) = .next t ∧ t.pc = .done) ∧
    (∃ t, step (busy .errRd (polledRegs 1#16) [val 0x01#8]) = .next t ∧ t.pc = .done) ∧
    (∃ t, step (busy .errRd (polledRegs 1#16) [val 0xE4#8]) = .next t ∧ t.pc = .lvlRd) ∧
    (∃ t, step (busy .errRd { polledRegs 1#16 with cmd := some 0x0E#8 } [val 0xE4#8]) = .next t ∧
      t.pc = .done) ∧
    (∃ t, step (busy .lvlRd (polledRegs 1#16) [val 2#8]) = .next t ∧ t.pc = .ctrlRd) ∧
    (∃ t, step (busy .ctrlRd (framerRegs 2#8 0#8) [val 0x10#8]) = .next t ∧ t.pc = .drain) ∧
    (∃ t, step (busy .drain (framerRegs 2#8 0#8) [val 4#8]) = .next t ∧ t.pc = .drain) ∧
    (∃ t, step (busy .drain (framerRegs 2#8 1#8) [val 0#8]) = .next t ∧ t.pc = .done) ∧
    (∃ t, step (busy .done { framerRegs 2#8 2#8 with res := some .success } []) = .next t ∧
      t.pc = .ready) ∧
    (∃ t, step (busy .done { Work.blank with
      op := some .rdreg, val := some 0x5A#8, res := some .success } []) = .next t ∧ t.pc = .ready) ∧
    (∃ t, step (busy .done { Work.blank with op := some .wrreg, res := some .success } []) =
      .next t ∧ t.pc = .ready) ∧
    (∃ t, step (busy .abort { Work.blank with res := some .transportError, short := some true } []) =
      .next t ∧ t.pc = .ready) :=
  ⟨⟨_, rfl, rfl⟩, ⟨_, rfl, rfl⟩, ⟨_, rfl, rfl⟩, ⟨_, rfl, rfl⟩, ⟨_, rfl, rfl⟩, ⟨_, rfl, rfl⟩,
    ⟨_, rfl, rfl⟩, ⟨_, rfl, rfl⟩, ⟨_, rfl, rfl⟩, ⟨_, rfl, rfl⟩, ⟨_, rfl, rfl⟩, ⟨_, rfl, rfl⟩,
    ⟨_, rfl, rfl⟩, ⟨_, rfl, rfl⟩⟩

/-- The engine's registers meet the invariant's clause about them. -/
theorem engineRegs_ok (tmp : Option Byte) (rem : Option Half) (irqVal : Option Byte) :
    EngineRegs Cfg.ref { engineRegs with tmp := tmp, rem := rem, irqVal := irqVal } :=
  ⟨.inl rfl, rfl, by simp [engineRegs], rfl, rfl, rfl, rfl, rfl⟩

/-- The tolerant phases, each with its registers, and the phase after it. -/
def tolerantPhases : List (Phase × Phase × Work) :=
  [(.rmwRd, .rmwWr, { Work.blank with op := some .clrbits, a := some 9#8, v := some 1#8 }),
   (.armIrqRd, .armIrqWr, engineRegs), (.armFlushRd, .armFlushWr, engineRegs),
   (.startRd, .startWr, engineRegs),
   (.stopRd, .stopWr, { engineRegs with rem := some 0#16, irqVal := some 0#8 })]

theorem tolerantPhases_inv (ans : List Answer) :
    ∀ w ∈ tolerantPhases, Inv (busy w.1 w.2.2 ans) := by
  have hn : ∀ x : Work, x.status = none → x.bitLen = none → x.rlen = none → x.resp = [] →
      NoResponse x := fun _ h1 h2 h3 h4 => ⟨h1, h2, h3, h4⟩
  intro w hw
  simp only [tolerantPhases, List.mem_cons, List.not_mem_nil, or_false] at hw
  rcases hw with rfl | rfl | rfl | rfl | rfl <;>
    refine ⟨rfl, rfl, Nat.zero_le _, by simp [busy], ?_⟩
  · exact ⟨rfl, .inr rfl, rfl, rfl, hn _ rfl rfl rfl rfl⟩
  · exact ⟨rfl, engineRegs_ok none none none, hn _ rfl rfl rfl rfl⟩
  · exact ⟨rfl, engineRegs_ok none none none, hn _ rfl rfl rfl rfl⟩
  · exact ⟨rfl, engineRegs_ok none none none, hn _ rfl rfl rfl rfl, rfl⟩
  · exact ⟨rfl, engineRegs_ok none _ _, hn _ rfl rfl rfl rfl, rfl, rfl, by simp [busy, reg, engineRegs, termBit]⟩

/-- One state for each clause, and for the last one each of the five pairs, by both kinds of failure. -/
theorem witness_BadAnswerInPhase :
    (∃ s : State, ∃ t, Inv s ∧ s.frameDue = some (.write 9#6 0x26#8) ∧ s.pc = .wr ∧
      s.call (.xfer (Frame.bytes s.cfg (.write 9#6 0x26#8))) = some (.fail, t)) ∧
    (∃ s : State, ∃ t, Inv s ∧ s.frameDue = some (.read 9#6) ∧ s.pc = .rd ∧
      s.call (.xfer (Frame.bytes s.cfg (.read 9#6))) = some (.ok [1#8], t)) ∧
    (∀ w ∈ tolerantPhases, ∀ ans ∈ [Answer.fail, .ok [], .ok [1#8]],
      Inv (busy w.1 w.2.2 [ans]) ∧
      ∃ a t, (busy w.1 w.2.2 [ans]).frameDue = some (.read a) ∧
        (busy w.1 w.2.2 [ans]).call (.xfer (Frame.bytes Cfg.ref (.read a))) = some (ans, t)) := by
  refine ⟨⟨_, _, busy_wr_inv [.fail], rfl, rfl, rfl⟩, ⟨_, _, busy_rd_inv [.ok [1#8]], rfl, rfl, rfl⟩,
    fun w hw ans _ => ⟨tolerantPhases_inv _ w hw, ?_⟩⟩
  simp only [tolerantPhases, List.mem_cons, List.not_mem_nil, or_false] at hw
  rcases hw with rfl | rfl | rfl | rfl | rfl <;> exact ⟨_, _, rfl, rfl⟩

/-- CaptureOpensBus: both modes; the longest address. -/
theorem witness_CaptureOpensBus :
    (Inv (captured []) ∧ (captured []).opened = true) ∧
    (∃ s : State, ∃ t, Inv s ∧ s.pc = .ready ∧ s.opened = false ∧
      s.call (.openBus [] 0#32) = some (.fail, t)) :=
  ⟨⟨captured_inv _, rfl⟩, ⟨{ captured [.fail] with opened := false }, _,
    ⟨rfl, rfl, Nat.zero_le _, fun _ => rfl, rfl⟩, rfl, rfl, rfl⟩⟩

theorem witness_ReleaseClosesBus :
    ∃ t u, Inv (captured [.fail, .ok []]) ∧ (captured [.fail, .ok []]).pc = .ready ∧
      (captured [.fail, .ok []]).opened = true ∧
      (captured [.fail, .ok []]).call (.xfer [0x00#8]) = some (.fail, t) ∧
      t.call .closeBus = some (.ok [], u) :=
  ⟨_, _, captured_inv _, rfl, rfl, rfl, rfl⟩

/-- ReadFrameTransfers, its clause on a tolerated failure: the five phases. -/
theorem witness_ReadFrameTransfers_tolerant :
    ∀ w ∈ tolerantPhases, Inv (busy w.1 w.2.2 [.fail]) ∧ (busy w.1 w.2.2 [.fail]).env.fair = true ∧
      ∃ a, (busy w.1 w.2.2 [.fail]).frameDue = some (.read a) := by
  refine fun w hw => ⟨tolerantPhases_inv _ w hw, rfl, ?_⟩
  simp only [tolerantPhases, List.mem_cons, List.not_mem_nil, or_false] at hw
  rcases hw with rfl | rfl | rfl | rfl | rfl <;> exact ⟨_, rfl⟩

/-- WriteFrameTransfers, ReadFrameTransfers, ReleaseFrameTransfers: due and not due. -/
theorem witness_FrameTransfers :
    (∃ s : State, Inv s ∧ s.env.fair = true ∧ s.frameDue = some (.write 9#6 0x26#8)) ∧
    (∃ s : State, Inv s ∧ s.env.fair = true ∧ s.frameDue = some (.read 9#6)) ∧
    (∃ s : State, Inv s ∧ s.env.fair = true ∧ s.frameDue = some .release) ∧
    State.reset.frameDue = none :=
  ⟨⟨_, busy_wr_inv [], rfl, rfl⟩, ⟨_, busy_rd_inv [], rfl, rfl⟩, ⟨_, busy_relWr_inv [], rfl, rfl⟩, rfl⟩

end Sys2Proof.Tests
end

section
/-!
PROOFS. The family of spec/00_scope.md: the invariant along every step (O17), and the machines a step
refuses (O13).
-/
namespace Sys2Proof.Machine

/-! ### The branches of a step -/

/-- What a step of a machine with a legal CFG does: one phase where it is busy; else it waits for a
frame, runs the operation its frame decodes to, or answers an illegal frame. -/
theorem step_cases {s : State} (hc : s.cfg.wf = true) :
    (s.pc ≠ .ready ∧ step s = s.tick) ∨
    (s.pc = .ready ∧ takeFrame s.reqIn = none ∧ step s = .next s) ∨
    (∃ frame rest i, s.pc = .ready ∧ takeFrame s.reqIn = some (frame, rest) ∧
      decode .request frame = .ok i ∧ step s = exec i (s.setPort rest)) ∨
    (∃ frame rest e, s.pc = .ready ∧ takeFrame s.reqIn = some (frame, rest) ∧
      decode .request frame = .error e ∧ step s = (s.setPort rest).badRequest) := by
  unfold step
  rw [if_neg (by simp [hc])]
  split
  · rename_i hr
    split
    · rename_i ht
      exact .inr (.inl ⟨hr, ht, rfl⟩)
    · rename_i frame rest ht
      split
      · rename_i i hd
        exact .inr (.inr (.inl ⟨frame, rest, i, hr, ht, hd, rfl⟩))
      · rename_i e hd
        exact .inr (.inr (.inr ⟨frame, rest, e, hr, ht, hd, rfl⟩))
  · rename_i hr
    exact .inl ⟨hr, rfl⟩

/-! ### What the request port decodes to -/

/-- A header selects host operations only, and they are well formed where the payload fits `LEN`. -/
theorem decodeHeader_wf {op a b : Byte} {payload : List Byte} {i : Instr}
    (hlen : payload.length ≤ payloadMax) (h : decodeHeader op a b payload = .ok i) :
    i.port = .request ∧ i.wf = true := by
  unfold decodeHeader at h
  split at h
  case h_1 =>
    split at h
    · cases h
    · split at h
      · cases h
        simp only [List.length_cons, payloadMax] at hlen
        exact ⟨rfl, decide_eq_true (by simp only [addrMax]; omega)⟩
      · cases h
  case h_4 | h_9 =>
    split at h <;> cases h
    exact ⟨rfl, decide_eq_true hlen⟩
  case h_12 => cases h
  all_goals
    repeat' split at h
    all_goals cases h
    exact ⟨rfl, rfl⟩

/-- What the request port decodes is a well-formed host operation: `LEN` is one byte (R94). -/
theorem decode_request_wf {frame : List Byte} {i : Instr} (h : decode .request frame = .ok i) :
    i.port = .request ∧ i.wf = true := by
  simp only [decode] at h
  unfold decodeRequest at h
  split at h
  · rename_i op a b len payload
    split at h
    · rename_i hl
      exact decodeHeader_wf (by have := len.isLt; simp only [payloadMax]; omega) h
    · cases h
  · cases h

/-! ### The invariant over an operation's beginning -/

/-- An operation that ends as soon as it has begun. -/
theorem Inv.begun_raise {s : State} (hi : Inv s) (op : Option Op) (e : Res) (short : Bool) :
    Inv ((s.beginOp op).raise e short) :=
  hi.of_phase rfl rfl hi.busaddr (by simp) (State.raise_phase _ _ _)

/-- An operation that needs an open bus (R125). -/
theorem Inv.begun_needBus {s : State} {op : Option Op} {go : State → State} (hi : Inv s)
    (hgo : s.opened = true → Inv (go (s.beginOp op))) : Inv ((s.beginOp op).needBus go) := by
  unfold State.needBus
  split
  · rename_i ho
    exact hgo ho
  · exact hi.begun_raise _ _ _

theorem Inv.setPort {s : State} (hi : Inv s) (rest : List Byte) : Inv (s.setPort rest) :=
  ⟨hi.cfg, hi.cells, hi.busaddr, hi.idle, hi.phase⟩

/-- An accepted operation runs to its end and keeps the invariant, if its first phase meets it. -/
theorem State.accepting_inv {s : State} {op : Op} {first : State → State} (hr : s.pc = .ready)
    (hf : Inv (first (s.beginOp (some op)))) :
    ∃ t, s.accepting op (fun s => (first s).runOp) = .next t ∧ Inv t := by
  rw [State.accepting, if_pos hr]
  exact State.runOp_inv hf

theorem State.badRequest_inv {s : State} (hi : Inv s) : ∃ t, s.badRequest = .next t ∧ Inv t :=
  State.runOp_inv (hi.begun_raise none _ _)

/-- Every well-formed host operation, accepted in a ready state of the invariant, answers a next state
and keeps the invariant. -/
theorem exec_inv {s : State} {i : Instr} (hi : Inv s) (hr : s.pc = .ready)
    (hport : i.port = .request) (hwf : i.wf = true) : ∃ t, exec i s = .next t ∧ Inv t := by
  cases i with
  | capture speed address =>
    unfold exec execCapture
    refine State.accepting_inv hr ?_
    dsimp only
    split
    · exact hi.begun_raise _ _ _
    · rename_i ho
      exact hi.of_phase rfl rfl hi.busaddr nofun
        ⟨by simpa using ho, rfl, rfl, rfl, of_decide_eq_true hwf, ⟨rfl, rfl, rfl, rfl⟩⟩
  | release =>
    unfold exec execRelease
    exact State.accepting_inv hr <| hi.begun_needBus fun ho =>
      hi.of_phase rfl rfl hi.busaddr nofun ⟨ho, rfl, ⟨rfl, rfl, rfl, rfl⟩⟩
  | scan =>
    unfold exec execScan
    exact State.accepting_inv hr (hi.begun_raise _ _ _)
  | flash data =>
    unfold exec execFlash
    exact State.accepting_inv hr (hi.begun_raise _ _ _)
  | wrreg addr value =>
    unfold exec execWrreg
    exact State.accepting_inv hr <| hi.begun_needBus fun ho =>
      hi.of_phase rfl rfl hi.busaddr nofun ⟨ho, rfl, rfl, rfl, ⟨rfl, rfl, rfl, rfl⟩⟩
  | rdreg addr =>
    unfold exec execRdreg
    exact State.accepting_inv hr <| hi.begun_needBus fun ho =>
      hi.of_phase rfl rfl hi.busaddr nofun ⟨ho, rfl, rfl, ⟨rfl, rfl, rfl, rfl⟩⟩
  | setbits addr mask =>
    unfold exec execSetbits
    exact State.accepting_inv hr <| hi.begun_needBus fun ho =>
      hi.of_phase rfl rfl hi.busaddr nofun ⟨ho, .inl rfl, rfl, rfl, ⟨rfl, rfl, rfl, rfl⟩⟩
  | clrbits addr mask =>
    unfold exec execClrbits
    exact State.accepting_inv hr <| hi.begun_needBus fun ho =>
      hi.of_phase rfl rfl hi.busaddr nofun ⟨ho, .inr rfl, rfl, rfl, ⟨rfl, rfl, rfl, rfl⟩⟩
  | exec cmd payload =>
    unfold exec execExec
    have hlen : payload.length ≤ 255 := of_decide_eq_true hwf
    have hplen : payload.length = (BitVec.ofNat 8 payload.length).toNat := by
      rw [BitVec.toNat_ofNat, Nat.mod_eq_of_lt (by omega)]
    exact State.accepting_inv hr <| hi.begun_needBus fun ho =>
      hi.of_phase rfl rfl hi.busaddr nofun
        ⟨ho, ⟨.inl rfl, rfl, nofun, rfl, rfl, hplen, rfl, rfl⟩, ⟨rfl, rfl, rfl, rfl⟩⟩
  | reqmode mode =>
    unfold exec execReqmode
    exact State.accepting_inv hr <| hi.begun_needBus fun ho =>
      hi.of_phase rfl rfl hi.busaddr nofun
        ⟨ho, rfl, rfl, ⟨rfl, rfl, rfl, rfl⟩, rfl, rfl, rfl⟩
  | rdanticoll =>
    unfold exec execRdanticoll
    exact State.accepting_inv hr (hi.begun_raise _ _ _)
  | spi2w a d => cases hport
  | spi2r a => cases hport
  | spi1 => cases hport

/-- From every state of the invariant the step answers a next state, which meets it again (R27). -/
theorem step_inv {s : State} (hi : Inv s) : ∃ t, step s = .next t ∧ Inv t := by
  rcases step_cases hi.cfg with
    ⟨-, h⟩ | ⟨-, -, h⟩ | ⟨_, rest, i, hr, -, hd, h⟩ | ⟨_, rest, _, -, -, -, h⟩ <;> rw [h]
  · exact State.tick_inv hi
  · exact ⟨s, rfl, hi⟩
  · obtain ⟨hport, hwf⟩ := decode_request_wf hd
    exact exec_inv (hi.setPort rest) hr hport hwf
  · exact State.badRequest_inv (hi.setPort rest)

/-- Settles O17: the step from a state of the invariant answers one next state, and that one meets the
invariant. -/
theorem stepKeepsInvariant : Obligations.StepKeepsInvariant := by
  unfold Obligations.StepKeepsInvariant
  intro s t hi h
  obtain ⟨u, hu, hInv⟩ := step_inv hi
  rw [hu] at h
  cases h
  exact hInv

/-! ### Nothing but the step's test of CFG refuses -/

/-- The outcome is a next state or a fault. -/
def Unrefused (o : Outcome) : Prop := ∀ r, o ≠ .refused r

theorem unrefused_next (s : State) : Unrefused (.next s) := nofun

theorem unrefused_fault (f : Fault) : Unrefused (.fault f) := nofun

theorem State.phase_unrefused (s : State) (go : State → State) : Unrefused (s.phase go) := by
  unfold State.phase
  split
  · exact unrefused_fault _
  · exact unrefused_next _

theorem State.issue_unrefused (s : State) (f : Frame) (k : Answer → State → State) :
    Unrefused (s.issue f k) := by
  unfold State.issue
  split
  · exact unrefused_fault _
  · split
    · exact unrefused_fault _
    · exact unrefused_next _

theorem State.issuing_unrefused (s : State) (f : Frame) (k : Answer → State → State) :
    Unrefused (s.issuing f k) := by
  unfold State.issuing
  split
  · exact unrefused_fault _
  · exact State.issue_unrefused _ _ _

theorem State.innerPhase_unrefused (s : State) : Unrefused s.innerPhase := by
  unfold State.innerPhase
  split
  case h_6 => exact unrefused_next _
  all_goals exact State.phase_unrefused _ _

theorem State.tick_unrefused (s : State) : Unrefused s.tick := by
  unfold State.tick
  split
  case h_4 => exact State.innerPhase_unrefused s
  all_goals exact State.issue_unrefused _ _ _

theorem runFor_unrefused (n : Nat) (s : State) : Unrefused (runFor n s) := by
  induction n generalizing s with
  | zero => exact unrefused_next _
  | succ n ih =>
    unfold runFor
    split
    · exact unrefused_next _
    · split
      · exact ih _
      · exact unrefused_fault _
      · rename_i r hr
        exact absurd hr (State.tick_unrefused s r)

theorem State.runOp_unrefused (s : State) : Unrefused s.runOp := runFor_unrefused _ s

theorem State.accepting_unrefused (s : State) (op : Op) (first : State → State) :
    Unrefused (s.accepting op fun s => (first s).runOp) := by
  unfold State.accepting
  split
  · exact State.runOp_unrefused _
  · exact unrefused_fault _

/-- Every instruction has a meaning in every state: a wire frame's is a transfer, a host operation's a
run once it is accepted. -/
theorem exec_unrefused (i : Instr) (s : State) : Unrefused (exec i s) := by
  cases i
  case spi2w | spi2r | spi1 => exact State.issuing_unrefused _ _ _
  all_goals
    simp only [exec, execCapture, execRelease, execScan, execFlash, execWrreg, execRdreg, execSetbits,
      execClrbits, execExec, execReqmode, execRdanticoll]
    exact State.accepting_unrefused _ _ _

/-- The step refuses for an illegal CFG, and for no other reason. -/
theorem step_refused_iff {s : State} {r : Refusal} :
    step s = .refused r ↔ s.cfg.wf = false ∧ r = .illFormedConfig := by
  constructor
  · intro h
    cases hc : s.cfg.wf with
    | false =>
      rw [step, if_pos hc] at h
      cases h
      exact ⟨rfl, rfl⟩
    | true =>
      rcases step_cases hc with
        ⟨-, h'⟩ | ⟨-, -, h'⟩ | ⟨_, _, _, -, -, -, h'⟩ | ⟨_, _, _, -, -, -, h'⟩ <;> rw [h'] at h
      · exact absurd h (State.tick_unrefused _ _)
      · exact absurd h (unrefused_next _ _)
      · exact absurd h (exec_unrefused _ _ _)
      · exact absurd h (State.runOp_unrefused _ _)
  · rintro ⟨hc, rfl⟩
    rw [step, if_pos hc]

/-! ### R9 on numbers -/

theorem Cfg.addrOk_iff {a : Byte} : Cfg.addrOk a = true ↔ a.toNat ≤ 0x3F := by
  simp [Cfg.addrOk, BitVec.ule]

theorem ne_zero_iff_one_le {w : Nat} {v : BitVec w} : v ≠ 0#w ↔ 1 ≤ v.toNat := by
  rw [Nat.one_le_iff_ne_zero, ne_eq, ne_eq, ← BitVec.toNat_inj, BitVec.toNat_ofNat, Nat.zero_mod]

/-- Well-formedness of CFG, as R9 says it. -/
theorem Cfg.wf_iff {c : Cfg} :
    c.wf = true ↔ (∀ r ∈ engineCells c, r.toNat ≤ 0x3F) ∧ c.cmdAuthent ≠ c.cmdTransceive ∧
      1 ≤ c.maxLen.toNat ∧ c.maxLen.toNat ≤ 255 ∧ 1 ≤ c.pollBudget.toNat ∧
      (c.rdFlag = 0x80#8 ∨ c.rdFlag = 0x00#8) := by
  have hmax : c.maxLen.toNat ≤ 255 := Nat.le_of_lt_succ c.maxLen.isLt
  simp [Cfg.wf, Cfg.addrOk_iff, engineCells, ne_zero_iff_one_le, hmax, and_assoc]

/-- Settles O13: the step refuses exactly where its own test of CFG fails, which is R9's. -/
theorem illFormedConfigRefused : Obligations.IllFormedConfigRefused := by
  unfold Obligations.IllFormedConfigRefused
  intro s
  rw [← Cfg.wf_iff, step_refused_iff, Bool.not_eq_true]
  simp

end Sys2Proof.Machine
end

section
/-!
PROOFS. The family of spec/10_state.md: a step and the instruction at its port (O6, O7, O10), what reset
leaves (O15, O16), and that no state of the invariant stops (O18).
-/
namespace Sys2Proof.Machine

/-! ### The step of a ready and of a busy sequencer -/

/-- A busy sequencer's step is one phase (R25). -/
theorem step_busy {s : State} (hc : s.cfg.wf = true) (hr : s.pc ≠ .ready) : step s = s.tick := by
  rw [step, if_neg (by simp [hc]), if_neg hr]

/-- A ready sequencer runs the instruction its port decodes to (R94). -/
theorem step_decoded {s : State} {frame rest : List Byte} {i : Instr} (hc : s.cfg.wf = true)
    (hr : s.pc = .ready) (ht : takeFrame s.reqIn = some (frame, rest))
    (hd : decode .request frame = .ok i) : step s = exec i (s.setPort rest) := by
  rw [step, if_neg (by simp [hc]), if_pos hr]
  simp only [ht, hd]

/-- The instruction of the frame that is due does what the phase does (R25). -/
theorem exec_frameDue {s : State} {f : Frame} (hf : s.frameDue = some f) :
    exec f.instr s = s.tick := by
  unfold State.tick
  cases f <;> simp [hf, Frame.instr, exec, execSpi2w, execSpi2r, execSpi1, State.issuing]

/-- Settles O6. -/
theorem stepRunsDecodedInstruction : Obligations.StepRunsDecodedInstruction := by
  unfold Obligations.StepRunsDecodedInstruction
  constructor
  · intro s frame rest i hc hr ht hd
    exact step_decoded hc hr ht hd
  · intro s f hc hr hf
    rw [step_busy hc hr, exec_frameDue hf]

/-- Settles O10. -/
theorem silentBetweenOperations : Obligations.SilentBetweenOperations := by
  unfold Obligations.SilentBetweenOperations
  intro s hc hr ht
  rw [step, if_neg (by simp [hc]), if_pos hr]
  simp only [ht]

/-! ### An encoded request at the port -/

/-- The four bytes of a word, most significant first, give the word back (R96). -/
theorem wordOfBytes_bytes (w : Word) :
    wordOfBytes (w.extractLsb' 24 8) (w.extractLsb' 16 8) (w.extractLsb' 8 8) (w.extractLsb' 0 8) =
      w := by
  unfold wordOfBytes
  rw [BitVec.extractLsb'_append_extractLsb'_eq_extractLsb' (by rfl),
    BitVec.extractLsb'_append_extractLsb'_eq_extractLsb' (by rfl),
    BitVec.extractLsb'_append_extractLsb'_eq_extractLsb' (by rfl)]
  exact BitVec.extractLsb'_eq_self

/-- A frame whose payload fits `LEN` is decoded by its header (R94). -/
theorem decode_requestFrame {op a b : Byte} {payload : List Byte}
    (h : payload.length ≤ payloadMax) :
    decode .request (requestFrame op a b payload) = decodeHeader op a b payload := by
  have hl : payload.length < 256 := by simp only [payloadMax] at h; omega
  simp [decode, requestFrame, decodeRequest, Nat.mod_eq_of_lt hl]

/-- The request port decodes what the encoder writes, for every well-formed host operation (R97). -/
theorem decode_encode_request {i : Instr} (hwf : i.wf = true) (hp : i.port = .request) :
    decode .request (encode i) = .ok i := by
  cases i with
  | capture speed address =>
    have hl : address.length ≤ 251 := of_decide_eq_true hwf
    rw [encode, decode_requestFrame (by simp [bytesOfWord, payloadMax]; omega)]
    simp [decodeHeader, bytesOfWord, wordOfBytes_bytes]
  | flash data =>
    rw [encode, decode_requestFrame (of_decide_eq_true hwf)]
    simp [decodeHeader]
  | exec cmd payload =>
    rw [encode, decode_requestFrame (of_decide_eq_true hwf)]
    simp [decodeHeader]
  | spi2w | spi2r | spi1 => cases hp
  | _ => rfl

/-- The request port takes the encoding of a well-formed host operation whole, and no byte after it
(R94). -/
theorem takeFrame_encode : ∀ i : Instr, Laws.FrameTaken.Statement i
  | .capture speed address => Laws.FrameTaken.capture speed address
  | .release => Laws.FrameTaken.release
  | .scan => Laws.FrameTaken.scan
  | .flash data => Laws.FrameTaken.flash data
  | .wrreg addr value => Laws.FrameTaken.wrreg addr value
  | .rdreg addr => Laws.FrameTaken.rdreg addr
  | .setbits addr mask => Laws.FrameTaken.setbits addr mask
  | .clrbits addr mask => Laws.FrameTaken.clrbits addr mask
  | .exec cmd payload => Laws.FrameTaken.exec cmd payload
  | .reqmode mode => Laws.FrameTaken.reqmode mode
  | .rdanticoll => Laws.FrameTaken.rdanticoll
  | .spi2w a d => Laws.FrameTaken.spi2w a d
  | .spi2r a => Laws.FrameTaken.spi2r a
  | .spi1 => Laws.FrameTaken.spi1

/-- Settles O7: the port takes the encoding whole, and the decoder gives the operation back. -/
theorem encodedRequestRuns : Obligations.EncodedRequestRuns := by
  unfold Obligations.EncodedRequestRuns
  intro s i rest hc hr hwf hp hreq
  exact step_decoded hc hr (hreq ▸ takeFrame_encode i hwf hp rest) (decode_encode_request hwf hp)

/-! ### Reset and the invariant -/

/-- Settles O15. -/
theorem resetLeavesReleased : Obligations.ResetLeavesReleased :=
  ⟨⟨rfl, rfl, rfl, rfl, rfl, rfl⟩, fun _ => ⟨rfl, rfl, rfl, rfl, rfl, rfl, rfl, rfl⟩⟩

/-- Settles O16: a ready state asks of its registers only that none holds a value. -/
theorem resetMeetsInvariant : Obligations.ResetMeetsInvariant :=
  ⟨⟨rfl, rfl, Nat.zero_le _, fun _ => rfl, rfl⟩,
    fun _ hi => ⟨hi.cfg, hi.cells, Nat.zero_le _, fun _ => rfl, rfl⟩⟩

/-- Settles O18: the step from a state of the invariant answers a next state. -/
theorem invariantNeverStops : Obligations.InvariantNeverStops := by
  unfold Obligations.InvariantNeverStops
  intro s hi
  obtain ⟨t, ht, -⟩ := step_inv hi
  exact ⟨t, ht⟩

end Sys2Proof.Machine
end

section
/-!
PROOFS. The family of spec/10_state.md: registers without a value (O14), the phases of arm (O40) and of
the hand-over (O46), the advisory flag (O12), and the operands of the first phase (O52).
-/
namespace Sys2Proof.Machine

/-! ### A phase whose registers hold no value -/

/-- A phase without a transfer that reads a register without a value faults (R23). -/
theorem State.innerPhase_unwritten {s : State} (hr : s.pc ≠ .ready) (hf : s.frameDue = none)
    (hh : s.x.holds s.cfg s.pc = false) : s.innerPhase = .fault (.unwritten s.pc) := by
  have hphase : ∀ go, s.phase go = .fault (.unwritten s.pc) := fun go => if_pos hh
  unfold State.innerPhase
  split
  case h_6 =>
    unfold State.frameDue at hf
    cases hp : s.pc <;> simp_all [frameOf]
  all_goals exact hphase _

/-- A phase that reads a register without a value faults, whatever the environment (R23). -/
theorem State.tick_unwritten {s : State} (hr : s.pc ≠ .ready)
    (hh : s.x.holds s.cfg s.pc = false) : s.tick = .fault (.unwritten s.pc) := by
  have hissue : ∀ f k, s.issue f k = .fault (.unwritten s.pc) := fun f k => if_pos hh
  unfold State.tick
  split
  case h_4 hf => exact State.innerPhase_unwritten hr hf hh
  all_goals exact hissue _ _

/-- The same of the step, for any phase of a list each of which misses a register it reads. -/
theorem step_unwritten {s : State} {l : List Phase} (hc : s.cfg.wf = true)
    (hl : ∀ p ∈ l, p ≠ .ready ∧ s.x.holds s.cfg p = false) (hp : s.pc ∈ l) :
    step s = .fault (.unwritten s.pc) := by
  obtain ⟨hr, hh⟩ := hl _ hp
  rw [step_busy hc hr, State.tick_unwritten hr hh]

/-- Every phase of a running operation but `P_ABORT` reads `x[op]` (R24). -/
theorem holds_of_op_none {c : Cfg} {x : Work} {p : Phase} (hx : x.op = none) (hr : p ≠ .ready)
    (ha : p ≠ .abort) : x.holds c p = false := by
  cases p <;> simp_all [Work.holds]

/-- Settles O14: each clause says of the phases it names that `Work.holds` misses the register there. -/
theorem unwrittenReadFaults : Obligations.UnwrittenReadFaults := by
  unfold Obligations.UnwrittenReadFaults
  intro s hc Faults
  have one : ∀ p, s.x.holds s.cfg p = false → p ≠ .ready → s.pc = p → Faults :=
    fun p hh hr hp => step_unwritten (l := [p]) hc (by simp [hh, hr]) (by simp [hp])
  refine ⟨fun hx hr ha => one s.pc (holds_of_op_none hx hr ha) hr rfl,
    fun hx => step_unwritten hc (by simp [Work.holds, hx]),
    fun hx => step_unwritten hc (by simp [Work.holds, hx]),
    fun hx => step_unwritten hc (by simp [Work.holds, hx]),
    fun hx => step_unwritten hc (by simp [Work.holds, hx]),
    fun hx => one .load (by simp [Work.holds, hx]) nofun,
    fun hx => step_unwritten hc (by simp [Work.holds, hx]),
    fun hx => one .load (by simp [Work.holds, hx]) nofun,
    fun hx => step_unwritten hc (by simp [Work.holds, hx]),
    fun hx => one .poll (by simp [Work.holds, hx]) nofun,
    fun hx => step_unwritten hc (by simp [Work.holds, hx]),
    fun hx => one .errRd (by simp [Work.holds, hx]) nofun,
    fun hx => one .ctrlRd (by simp [Work.holds, hx]) nofun,
    fun hx => one .drain (by simp [Work.holds, hx]) nofun,
    fun hx => one .drain (by simp [Work.holds, hx]) nofun,
    fun hx => one .rqCheck (by simp [Work.holds, hx]) nofun,
    fun hx => one .rqCheck (by simp [Work.holds, hx]) nofun, ?triple, ?value, ?payload, ?drain, ?data⟩
  case triple =>
    rintro hx hp hop
    refine one .done ?_ nofun hp
    rcases hop with hop | hop <;> rcases hx with hx | hx | hx <;>
      simp [Work.holds, returnsTriple, hop, hx]
  case value =>
    rintro hx hp hop
    refine one .done ?_ nofun hp
    rcases hop with hop | hop <;> simp [Work.holds, returnsVal, hop, hx]
  case payload =>
    intro p i hx hi hlen hp
    exact one .load (by simp [Work.holds, hx, hi, hlen]) nofun hp
  case drain =>
    intro i hi hlen hp
    refine one .drain ?_ nofun hp
    rcases hlen with hlen | hlen <;> simp [Work.holds, hi, BitVec.ult, hlen]
  case data =>
    intro l hl hlen hp hop
    refine one .done ?_ nofun hp
    rcases hop with hop | hop <;> simp [Work.holds, returnsTriple, hop, hl, hlen]

/-! ### A phase that issues a transfer -/

/-- A frame whose registers hold their values, on an open bus, whose transfer is answered. -/
theorem State.issue_answered {s t : State} {f : Frame} {ans : Answer} {k : Answer → State → State}
    (ho : s.opened = true) (hh : s.x.holds s.cfg s.pc = true)
    (h : s.call (.xfer (f.bytes s.cfg)) = some (ans, t)) : s.issue f k = .next (k ans t) := by
  simp [State.issue, hh, ho, State.calling, h]

/-- The write frame of an address operand, whose transfer is answered `Ok` (R90, R120). -/
theorem step_written {s t : State} {a d : Byte} {bytes : List Byte} (hc : s.cfg.wf = true)
    (ho : s.opened = true) (hf : s.frameDue = some (writeFrame a d))
    (hh : s.x.holds s.cfg s.pc = true) (h : s.call (.xfer [encAddr a, d]) = some (.ok bytes, t)) :
    step s = .next t.afterWrite := by
  have hb : s.call (.xfer ((writeFrame a d).bytes s.cfg)) = some (.ok bytes, t) := by
    simpa [writeFrame, Frame.bytes, encAddr_frame] using h
  rw [step_busy hc (State.frameDue_ne_ready hf), State.tick]
  simp only [hf, writeFrame]
  exact State.issue_answered ho hh hb

/-- The read frame of an address operand, whose transfer is answered by an echo with a value (R91,
R121). -/
theorem step_read {s t : State} {a e0 e : Byte} {bytes : List Byte} (hc : s.cfg.wf = true)
    (ho : s.opened = true) (hf : s.frameDue = some (readFrame a))
    (hh : s.x.holds s.cfg s.pc = true)
    (h : s.call (.xfer [encAddr a ||| s.cfg.rdFlag, 0x00#8]) = some (.ok (e0 :: e :: bytes), t)) :
    step s = .next (t.afterRead e) := by
  have hb : s.call (.xfer ((readFrame a).bytes s.cfg)) = some (.ok (e0 :: e :: bytes), t) := by
    simpa [readFrame, Frame.bytes, encAddr_frame] using h
  rw [step_busy hc (State.frameDue_ne_ready hf), State.tick]
  simp only [hf, readFrame]
  exact State.issue_answered ho hh hb

/-- A write phase that, answered `Ok`, only moves on to the phase `q` (R156). -/
theorem step_written_goto {s t : State} {a d : Byte} {bytes : List Byte} {q : Phase}
    (hc : s.cfg.wf = true) (ho : s.opened = true) (hf : s.frameDue = some (writeFrame a d))
    (hh : s.x.holds s.cfg s.pc = true) (h : s.call (.xfer [encAddr a, d]) = some (.ok bytes, t))
    (hgo : ∀ u : State, u.pc = s.pc → u.afterWrite = u.goto q) :
    step s = .next { t with pc := q } := by
  rw [step_written hc ho hf hh h, hgo t (State.call_keeps h).2.1]
  rfl

/-- A read phase that keeps its byte in `x[tmp]` and moves on to the phase `q` (R156). -/
theorem step_read_tmp {s t : State} {a e0 e : Byte} {bytes : List Byte} {q : Phase}
    (hc : s.cfg.wf = true) (ho : s.opened = true) (hf : s.frameDue = some (readFrame a))
    (hh : s.x.holds s.cfg s.pc = true)
    (h : s.call (.xfer [encAddr a ||| s.cfg.rdFlag, 0x00#8]) = some (.ok (e0 :: e :: bytes), t))
    (hgo : ∀ u : State, u.pc = s.pc →
      u.afterRead e = (u.setX { u.x with tmp := some e }).goto q) :
    step s = .next { t with pc := q, x := { s.x with tmp := some e } } := by
  obtain ⟨-, hpc, -, -, -, -, hx, -⟩ := State.call_keeps h
  rw [step_read hc ho hf hh h, hgo t hpc, hx]
  rfl

/-- Settles O40: each phase of arm sends its frame, and its answer leads to the next phase. -/
theorem armPhases : Obligations.ArmPhases := by
  unfold Obligations.ArmPhases
  intro s t k m v e0 e bytes hc ho hop
  have hop' : s.x.op.isSome = true := Option.isSome_iff_ne_none.2 hop
  refine ⟨fun hp hk hm => ?ien, fun hp => ?irqRd, fun hp hv => ?irqWr, fun hp => ?flushRd,
    fun hp hv => ?flushWr⟩
  case ien =>
    exact fun h => step_written_goto hc ho (by simp [State.frameDue, frameOf, hp, hm])
      (by simp [Work.holds, hp, hop', hk, hm]) h (fun u hu => by simp only [State.afterWrite, hu, hp])
  case irqRd | flushRd =>
    exact fun h => step_read_tmp hc ho (by simp [State.frameDue, frameOf, hp])
      (by simp [Work.holds, hp, hop']) h (fun u hu => by simp only [State.afterRead, hu, hp])
  case irqWr | flushWr =>
    exact fun h => step_written_goto hc ho (by simp [State.frameDue, frameOf, hp, hv])
      (by simp [Work.holds, hp, hop', hv]) h (fun u hu => by simp only [State.afterWrite, hu, hp])

/-! ### The hand-over -/

/-- `P_DONE` hands over the result frame (R26). -/
theorem step_done {s : State} (hc : s.cfg.wf = true) (hp : s.pc = .done)
    (hh : s.x.holds s.cfg .done = true) : step s = .next (s.ended s.resultFrame) := by
  rw [step_busy hc (by simp [hp])]
  simp only [State.tick, State.frameDue, hp, frameOf, State.innerPhase, State.phase, hh,
    Bool.true_eq_false, if_false]
  rfl

/-- `P_ABORT` hands over the error frame (R213). -/
theorem step_abort {s : State} (hc : s.cfg.wf = true) (hp : s.pc = .abort)
    (hh : s.x.holds s.cfg .abort = true) : step s = .next (s.ended s.errorFrame) := by
  rw [step_busy hc (by simp [hp])]
  simp only [State.tick, State.frameDue, hp, frameOf, State.innerPhase, State.phase, hh,
    Bool.true_eq_false, if_false]
  rfl

@[simp] theorem flagsByte_false (adv : Bool) :
    flagsByte adv false = if adv then 0x01#8 else 0x00#8 := by
  cases adv <;> rfl

/-- A frame with the fillers alone, but for `VAL` (R96). -/
theorem rspFrame_filled (r : Res) (flags val : Byte) :
    rspFrame r flags (statusCode none) 0#32 val 0#8 [] = plainRsp r.code flags val := rfl

/-- Settles O46: the registers of the operation's fields hold their values, and the frame has them. -/
theorem handOverPhases : Obligations.HandOverPhases := by
  unfold Obligations.HandOverPhases
  intro s r hc hr
  refine ⟨?triple, ?value, ?plain, ?abort⟩
  case triple =>
    intro hp status bitLen rlen val hs hb hl hlen hop
    have htake : s.x.resp.take rlen.toNat = s.x.resp := List.take_of_length_le hlen.le
    rcases hop with ⟨hop, rfl⟩ | ⟨hop, hv⟩ <;>
      rw [step_done hc hp (by simp [Work.holds, returnsVal, returnsTriple, *])] <;>
      simp [State.resultFrame, returnsVal, returnsTriple, rspFrame, *]
  case value =>
    intro hp val hop hv
    rw [step_done hc hp (by simp [Work.holds, returnsVal, returnsTriple, *])]
    simp [State.resultFrame, returnsVal, returnsTriple, rspFrame_filled, *]
  case plain =>
    intro hp op hop hexec hreq hrd
    rw [step_done hc hp (by simp [Work.holds, returnsVal, returnsTriple, *])]
    simp [State.resultFrame, returnsVal, returnsTriple, rspFrame_filled, *]
  case abort =>
    intro short hp hshort
    rw [step_abort hc hp (by simp [Work.holds, *])]
    simp [State.errorFrame, rspFrame_filled, flagsByte, *]

/-! ### An operation as the run from its first phase -/

/-- What `x[op]` holds while the host operation runs (R24, R97); a wire frame is none. -/
def opOf : Instr → Option Op
  | .capture _ _ => some .capture
  | .release => some .release
  | .scan => some .scan
  | .flash _ => some .flash
  | .wrreg _ _ => some .wrreg
  | .rdreg _ => some .rdreg
  | .setbits _ _ => some .setbits
  | .clrbits _ _ => some .clrbits
  | .exec _ _ => some .exec
  | .reqmode _ => some .reqmode
  | .rdanticoll => some .rdanticoll
  | .spi2w _ _ | .spi2r _ | .spi1 => none

/-- A host operation's entry to its first phase, or to `P_ABORT` where it is refused at once (R95,
R125). -/
def enterOp : Instr → State → State
  | .capture speed address, s =>
    if s.opened then s.raise .alreadyCaptured false
    else (s.setX { s.x with capSpeed := some speed, capAddr := some address }).goto .openBus
  | .release, s => s.needBus fun s => s.goto .relWr
  | .wrreg addr value, s =>
    s.needBus fun s => (s.setX { s.x with a := some addr, v := some value }).goto .wr
  | .rdreg addr, s => s.needBus fun s => (s.setX { s.x with a := some addr }).goto .rd
  | .setbits addr mask, s | .clrbits addr mask, s =>
    s.needBus fun s => (s.setX { s.x with a := some addr, v := some mask }).goto .rmwRd
  | .exec cmd payload, s =>
    s.needBus fun s =>
      (s.setX { s.x with
        cmd := some cmd
        payload := some payload
        plen := some (BitVec.ofNat 8 payload.length) }).enterArm
  | .reqmode mode, s => s.needBus fun s => (s.setX { s.x with v := some mode }).enterRqFrame
  | .scan, s | .flash _, s | .rdanticoll, s => s.raise .notImplemented false
  | .spi2w _ _, s | .spi2r _, s | .spi1, s => s

/-- The state in which an accepted operation starts its run. -/
def State.begun (s : State) (i : Instr) : State := enterOp i (s.beginOp (opOf i))

/-- Every host operation is the run from its first phase, accepted in `P_READY` alone (R26, R80). -/
theorem exec_eq_runOp {s : State} {i : Instr} (hp : i.port = .request) :
    exec i s = if s.pc = .ready then (s.begun i).runOp else .fault .requestWhileBusy := by
  cases i with
  | spi2w | spi2r | spi1 => cases hp
  | _ => rfl

/-! ### The advisory flag -/

/-- The state with the given value of the advisory flag. -/
def State.withAdv (s : State) (b : Bool) : State := { s with adv := b }

/-- What follows an answer does the same with either value of the advisory flag, but for the flag. -/
def AdvFree (k : State → State) : Prop := ∀ s b, ∃ b', k (s.withAdv b) = (k s).withAdv b'

theorem State.withAdv_light (s : State) (b : Bool) : Pseudocode.Light s (s.withAdv b) :=
  ⟨⟨_, _, _, b, rfl⟩, id⟩

theorem State.afterWrite_advFree : AdvFree State.afterWrite := fun s b => by
  refine ⟨b, ?_⟩
  rw [afterWrite_light (s.withAdv_light b)]
  conv_rhs => rw [afterWrite_light (Pseudocode.Light.refl s)]
  rfl

theorem State.afterRead_advFree (e : Byte) : AdvFree fun s => s.afterRead e := fun s b => by
  refine ⟨b, ?_⟩
  dsimp only
  rw [afterRead_light (s.withAdv_light b)]
  conv_rhs => rw [afterRead_light (Pseudocode.Light.refl s)]
  rfl

theorem State.writeAnswered_advFree (ans : Answer) : AdvFree (State.writeAnswered ans) := by
  cases ans with
  | ok bytes => exact State.afterWrite_advFree
  | fail => exact fun s b => ⟨b, rfl⟩

theorem State.readAnswered_advFree (ans : Answer) : AdvFree (State.readAnswered ans) := by
  intro s b
  unfold State.readAnswered
  split
  · exact State.afterRead_advFree _ s b
  · show ∃ b', (if s.pc.tolerant then _ else _) = _
    split
    · exact ⟨_, rfl⟩
    · exact ⟨b, rfl⟩

theorem State.openAnswered_advFree (ans : Answer) : AdvFree (State.openAnswered ans) := by
  cases ans <;> exact fun s b => ⟨b, rfl⟩

theorem State.requestChecked_advFree : AdvFree State.requestChecked := by
  intro s b
  refine ⟨b, ?_⟩
  unfold State.requestChecked
  show (if s.x.status = some .ok ∧ s.x.bitLen = some 16#32 then _ else _) = _
  split <;> rfl

/-- A call that does not depend on the flag is made, and answered, with either value of it. -/
theorem State.calling_advFree {c : State → Call} {k : Answer → State → State}
    (hc : ∀ s b, c (s.withAdv b) = c s) (hk : ∀ ans, AdvFree (k ans)) :
    AdvFree fun s => s.calling (c s) k := by
  intro s b
  have hcall : (s.withAdv b).call (c s) = (s.call (c s)).map fun p => (p.1, p.2.withAdv b) := by
    simp only [State.call, State.withAdv]
    cases s.env.answer s.draws (c s) <;> rfl
  simp only [State.calling, hc, hcall]
  rcases s.call (c s) with _ | ⟨ans, t⟩
  · exact ⟨b, rfl⟩
  · exact hk ans t b

theorem State.issue_withAdv {s t : State} {f : Frame} {k : Answer → State → State}
    (hk : ∀ ans, AdvFree (k ans)) (b : Bool) (h : s.issue f k = .next t) :
    ∃ b', (s.withAdv b).issue f k = .next (t.withAdv b') := by
  unfold State.issue at h
  split_ifs at h with hh ho
  cases h
  obtain ⟨b', hb⟩ :=
    State.calling_advFree (c := fun s => .xfer (f.bytes s.cfg)) (fun _ _ => rfl) hk s b
  exact ⟨b', (if_neg hh).trans ((if_neg ho).trans (congrArg _ hb))⟩

theorem State.phase_withAdv {s t : State} {go : State → State} (hgo : AdvFree go) (b : Bool)
    (h : s.phase go = .next t) : ∃ b', (s.withAdv b).phase go = .next (t.withAdv b') := by
  unfold State.phase at h
  split_ifs at h with hh
  cases h
  obtain ⟨b', hb⟩ := hgo s b
  exact ⟨b', (if_neg hh).trans (congrArg _ hb)⟩

/-- A phase that hands nothing over does the same with either value of the flag (R29). -/
theorem State.tick_withAdv {s t : State} (hd : s.pc ≠ .done) (ha : s.pc ≠ .abort) (b : Bool)
    (h : s.tick = .next t) : ∃ b', (s.withAdv b).tick = .next (t.withAdv b') := by
  have hdue : (s.withAdv b).frameDue = s.frameDue := rfl
  have hpc : (s.withAdv b).pc = s.pc := rfl
  unfold State.tick at h ⊢
  rw [hdue]
  split at h
  · exact State.issue_withAdv State.writeAnswered_advFree b h
  · exact State.issue_withAdv State.readAnswered_advFree b h
  · exact State.issue_withAdv (fun _ s b => ⟨b, rfl⟩) b h
  · unfold State.innerPhase at h ⊢
    rw [hpc]
    split at h
    · exact State.phase_withAdv
        (State.calling_advFree (fun _ _ => rfl) State.openAnswered_advFree) b h
    · exact State.phase_withAdv
        (State.calling_advFree (fun _ _ => rfl) fun _ _ b => ⟨b, rfl⟩) b h
    · exact State.phase_withAdv State.requestChecked_advFree b h
    · exact absurd ‹_› hd
    · exact absurd ‹_› ha
    · cases h
      exact ⟨b, rfl⟩

/-- Settles O12: no phase's continuation reads the flag, and acceptance clears it. -/
theorem advisoryNeverSteers : Obligations.AdvisoryNeverSteers := by
  unfold Obligations.AdvisoryNeverSteers
  constructor
  · intro s t b hr hd ha h
    have hc : s.cfg.wf = true := by
      by_contra hc
      rw [step_refused_iff.2 ⟨by simpa using hc, rfl⟩] at h
      cases h
    rw [step_busy hc hr] at h
    obtain ⟨b', hb⟩ := State.tick_withAdv hd ha b h
    exact ⟨b', (step_busy (s := s.withAdv b) hc hr).trans hb⟩
  · intro s i b hp
    rw [exec_eq_runOp hp, exec_eq_runOp hp]
    rfl

/-! ### Acceptance -/

/-- A phase whose call is never answered waits for it (R75, R215). -/
theorem State.tick_stuck {s : State} {f : Frame} (he : s.env = .stuck []) (ho : s.opened = true)
    (hf : s.frameDue = some f) (hh : s.x.holds s.cfg s.pc = true) : s.tick = .next s := by
  have hissue : ∀ k, s.issue f k = .next s := fun k => by
    simp [State.issue, hh, ho, State.calling, State.call, he, Env.answer]
  unfold State.tick
  cases f <;> simp only [hf, hissue]

/-- On an open bus, where no call is answered, an operation that starts with a transfer waits in its
first phase. -/
theorem exec_stuck {s t : State} {i : Instr} {f : Frame} (hp : i.port = .request)
    (hr : s.pc = .ready) (hb : s.begun i = t) (he : t.env = .stuck []) (ho : t.opened = true)
    (hf : t.frameDue = some f) (hh : t.x.holds t.cfg t.pc = true) : exec i s = .next t := by
  rw [exec_eq_runOp hp, if_pos hr, hb]
  exact runFor_waiting _ (State.tick_stuck he ho hf hh)

/-- Settles O52: the state that waits is the one in which the operation's run starts. -/
theorem firstPhaseOperands : Obligations.FirstPhaseOperands := by
  unfold Obligations.FirstPhaseOperands
  intro s a v payload hr ho he waiting
  refine ⟨?_, ?_, ?_, ?_, ?_, ?_, ?_⟩
  all_goals exact exec_stuck rfl hr (if_pos ho) he ho rfl rfl

end Sys2Proof.Machine
end

section
/-!
PROOFS. The family of spec/10_state.md: what a running operation changes and which chip registers it
touches (O20, O22).
-/
namespace Sys2Proof.Machine

/-! ### What a phase changes while its operation runs -/

/-- R40's four operations that take an address. -/
def TakesAddress (op : Option Op) : Prop :=
  op = some .wrreg ∨ op = some .rdreg ∨ op = some .setbits ∨ op = some .clrbits

/-- The call, where it is a two-byte transfer, has the address of one of CFG's eight registers, for a
write or for a read (R40, R90, R91). -/
def Configured (c : Cfg) (call : Call) : Prop :=
  ∀ a d, call = .xfer [a, d] →
    ∃ r ∈ engineCells c, a = encAddr r ∨ (a = encAddr r ||| c.rdFlag ∧ d = 0x00#8)

/-- From `s` to `t` the same operation has gone on (R23, R26, R31, R40): CFG, the ports and `x[op]` are
as before, the handle too but for CAPTURE and RELEASE, and the trace has grown by calls that touch
CFG's registers only, but for the operations that take an address. -/
structure GoesOn (s t : State) : Prop where
  cfg    : t.cfg = s.cfg
  op     : t.x.op = s.x.op
  busy   : s.pc ≠ .ready → t.pc ≠ .ready
  ports  : t.reqIn = s.reqIn ∧ t.rspOut = s.rspOut
  fair   : s.env.fair = true → t.env.fair = true
  handle : s.x.op ≠ some .capture → s.x.op ≠ some .release →
    t.opened = s.opened ∧ t.speed = s.speed ∧ t.busaddr = s.busaddr
  calls  : ∃ l, t.calls = s.calls ++ l ∧
    (¬ TakesAddress s.x.op → ∀ e ∈ l, Configured s.cfg e.1)

theorem GoesOn.refl (s : State) : GoesOn s s :=
  ⟨rfl, rfl, id, ⟨rfl, rfl⟩, id, fun _ _ => ⟨rfl, rfl, rfl⟩, [], by simp, nofun⟩

theorem GoesOn.trans {s t u : State} (h : GoesOn s t) (h' : GoesOn t u) : GoesOn s u := by
  obtain ⟨l, hl, hcl⟩ := h.calls
  obtain ⟨l', hl', hcl'⟩ := h'.calls
  refine ⟨h'.cfg.trans h.cfg, h'.op.trans h.op, h'.busy ∘ h.busy,
    ⟨h'.ports.1.trans h.ports.1, h'.ports.2.trans h.ports.2⟩, h'.fair ∘ h.fair, ?_,
    l ++ l', by rw [hl', hl, List.append_assoc], ?_⟩
  · intro hc hr
    obtain ⟨ho, hs, hb⟩ := h.handle hc hr
    obtain ⟨ho', hs', hb'⟩ := h'.handle (h.op ▸ hc) (h.op ▸ hr)
    exact ⟨ho'.trans ho, hs'.trans hs, hb'.trans hb⟩
  · intro ha e he
    rcases List.mem_append.1 he with he | he
    · exact hcl ha e he
    · exact h.cfg ▸ hcl' (h.op ▸ ha) e he

/-- A phase that writes registers and moves on goes on with its operation, if it keeps `x[op]`. -/
theorem GoesOn.of_regsOnly {s t : State} (h : RegsOnly s t) (hop : t.x.op = s.x.op) : GoesOn s t := by
  obtain ⟨p, x, rfl, hp⟩ := h
  exact ⟨rfl, hop, fun _ => hp, ⟨rfl, rfl⟩, id, fun _ _ => ⟨rfl, rfl, rfl⟩, [], by simp, nofun⟩

theorem GoesOn.advise (s : State) : GoesOn s s.advise.afterDraw :=
  ⟨rfl, rfl, id, ⟨rfl, rfl⟩, id, fun _ _ => ⟨rfl, rfl, rfl⟩, [], by simp, nofun⟩

/-- A phase that calls the transport goes on, if the call is allowed and what follows goes on. -/
theorem GoesOn.calling {s : State} {c : Call} {k : Answer → State → State}
    (hc : ¬ TakesAddress s.x.op → Configured s.cfg c)
    (hk : ∀ ans t, t.pc = s.pc → t.x = s.x → GoesOn t (k ans t)) : GoesOn s (s.calling c k) := by
  unfold State.calling
  cases h : s.call c with
  | none => exact GoesOn.refl s
  | some p =>
    obtain ⟨ans, t⟩ := p
    have hfair := (Pseudocode.Light.call h).fair
    obtain ⟨env, draws, -, rfl⟩ := State.call_some h
    have hcall : GoesOn s { s with env := env, draws := draws, calls := s.calls ++ [(c, ans)] } :=
      ⟨rfl, rfl, id, ⟨rfl, rfl⟩, hfair, fun _ _ => ⟨rfl, rfl, rfl⟩, _, rfl, by simpa using hc⟩
    exact hcall.trans (hk ans _ rfl rfl)

/-! ### `x[op]` stays -/

theorem State.engineEnd_op (s : State) : s.engineEnd.x.op = s.x.op := by
  unfold State.engineEnd
  split <;> rfl

theorem State.engineFail_op (s : State) : s.engineFail.x.op = s.x.op := State.engineEnd_op _

theorem State.afterWrite_op (s : State) : s.afterWrite.x.op = s.x.op := by
  unfold State.afterWrite
  split
  case h_9 => split <;> rfl
  case h_11 =>
    split
    · exact State.engineFail_op s
    · rfl
  all_goals rfl

theorem State.afterRead_op (s : State) (e : Byte) : (s.afterRead e).x.op = s.x.op := by
  unfold State.afterRead
  split
  case h_7 =>
    unfold State.polled
    split <;> rfl
  case h_8 =>
    unfold State.errorRead
    dsimp only
    split
    · exact State.engineFail_op _
    · split
      · rfl
      · exact State.engineEnd_op _
  case h_11 =>
    unfold State.drained
    dsimp only
    split
    · rfl
    · exact State.engineEnd_op _
  all_goals rfl

theorem GoesOn.writeAnswered {s : State} (hr : s.pc ≠ .ready) (ans : Answer) :
    GoesOn s (State.writeAnswered ans s) := by
  refine .of_regsOnly (State.writeAnswered_regsOnly hr ans) ?_
  cases ans with
  | ok bytes => exact State.afterWrite_op s
  | fail => rfl

theorem GoesOn.readAnswered {s : State} (hr : s.pc ≠ .ready) (ans : Answer) :
    GoesOn s (State.readAnswered ans s) := by
  unfold State.readAnswered
  split
  · exact .of_regsOnly (State.afterRead_regsOnly hr _) (State.afterRead_op _ _)
  · split
    · exact (GoesOn.advise s).trans
        (.of_regsOnly (State.afterRead_regsOnly (s := s.advise.afterDraw) hr _) (State.afterRead_op _ _))
    · exact .of_regsOnly (State.raise_regsOnly _ _ _) rfl

/-! ### The chip registers a frame names -/

/-- But for the operations that take an address, the frame that is due names a register of CFG, or is
RELEASE's (R25, R40). -/
theorem State.frameDue_engineCell {s : State} {f : Frame} (h : s.PhaseOk)
    (ha : ¬ TakesAddress s.x.op) (hf : s.frameDue = some f) :
    f = .release ∨ ∃ r ∈ engineCells s.cfg, f = readFrame r ∨ ∃ d, f = writeFrame r d := by
  unfold State.frameDue at hf
  cases hp : s.pc <;> simp only [hp, frameOf, reduceCtorEq, Option.some.injEq] at hf <;>
    simp only [State.PhaseOk, hp, PhaseInv] at h
  case wr | rd => exact absurd h.2.1 (by unfold TakesAddress at ha; tauto)
  case rmwRd | rmwWr => exact absurd h.2.1 (by unfold TakesAddress at ha; tauto)
  case relWr => exact .inl hf.symm
  case armIrqRd | armFlushRd | startRd | poll | stopRd | errRd | lvlRd | ctrlRd | drain =>
    exact .inr ⟨_, by simp [engineCells], .inl hf.symm⟩
  all_goals exact .inr ⟨_, by simp [engineCells], .inr ⟨_, hf.symm⟩⟩

theorem State.frameDue_configured {s : State} {f : Frame} (h : s.PhaseOk)
    (hf : s.frameDue = some f) (ha : ¬ TakesAddress s.x.op) :
    Configured s.cfg (.xfer (f.bytes s.cfg)) := by
  intro a d hcall
  injection hcall with hbytes
  rcases State.frameDue_engineCell h ha hf with rfl | ⟨r, hr, rfl | ⟨v, rfl⟩⟩
  · cases hbytes
  · simp only [readFrame, Frame.bytes, encAddr_frame, List.cons.injEq, and_true] at hbytes
    exact ⟨r, hr, .inr ⟨hbytes.1.symm, hbytes.2.symm⟩⟩
  · simp only [writeFrame, Frame.bytes, encAddr_frame, List.cons.injEq, and_true] at hbytes
    exact ⟨r, hr, .inl hbytes.1.symm⟩

/-! ### A phase and a run -/

theorem GoesOn.openAnswered {s : State} (hop : s.x.op = some .capture) (ans : Answer) :
    GoesOn s (State.openAnswered ans s) := by
  cases ans with
  | ok bytes =>
    exact ⟨rfl, rfl, fun _ => nofun, ⟨rfl, rfl⟩, id, fun hc => absurd hop hc, [],
      by simp [State.openAnswered], nofun⟩
  | fail => exact .of_regsOnly (State.raise_regsOnly _ _ _) rfl

theorem GoesOn.closeAnswered {s : State} (hop : s.x.op = some .release) (ans : Answer) :
    GoesOn s (State.closeAnswered ans s) :=
  ⟨rfl, rfl, fun _ => nofun, ⟨rfl, rfl⟩, id, fun _ hr => absurd hop hr, [],
    by simp [State.closeAnswered], nofun⟩

theorem State.requestChecked_op (s : State) : s.requestChecked.x.op = s.x.op := by
  unfold State.requestChecked
  split <;> rfl

theorem State.requestChecked_regsOnly (s : State) : RegsOnly s s.requestChecked := by
  unfold State.requestChecked
  split <;> exact ⟨_, _, rfl, nofun⟩

/-- A phase of the invariant that issues no transfer runs (R27). -/
theorem State.phase_next {s t : State} {go : State → State} (hi : Inv s)
    (h : s.phase go = .next t) : t = go s := by
  simpa [State.phase, State.holds_of_phase hi.phase, eq_comm] using h

/-- A phase without a transfer goes on with its operation or hands a frame over. -/
theorem State.innerPhase_goesOn {s t : State} (hi : Inv s) (h : s.innerPhase = .next t) :
    GoesOn s t ∨ ∃ frame, t = s.handOver frame := by
  have hphase := hi.phase
  unfold State.innerPhase at h
  cases hp : s.pc <;> simp only [hp] at h hphase
  case openBus =>
    rw [State.phase_next hi h]
    refine .inl (GoesOn.calling (fun _ => nofun) fun ans t _ hx => .openAnswered ?_ ans)
    rw [hx, hphase.2.1]
  case closeBus =>
    rw [State.phase_next hi h]
    refine .inl (GoesOn.calling (fun _ => nofun) fun ans t _ hx => .closeAnswered ?_ ans)
    rw [hx, hphase.2.1]
  case rqCheck =>
    rw [State.phase_next hi h]
    exact .inl (.of_regsOnly s.requestChecked_regsOnly s.requestChecked_op)
  case done | abort => exact .inr ⟨_, State.phase_next hi h⟩
  all_goals
    cases h
    exact .inl (GoesOn.refl s)

/-- A phase of the invariant goes on with its operation or hands a frame over. -/
theorem State.tick_goesOn {s t : State} (hi : Inv s) (h : s.tick = .next t) :
    GoesOn s t ∨ ∃ frame, t = s.handOver frame := by
  unfold State.tick at h
  cases hf : s.frameDue with
  | none =>
    rw [hf] at h
    exact State.innerPhase_goesOn hi h
  | some f =>
    have hr := State.frameDue_ne_ready hf
    have hgo : ∀ k : Answer → State → State, s.issue f k = .next t →
        (∀ ans u, u.pc = s.pc → GoesOn u (k ans u)) → GoesOn s t := by
      intro k hk hgoes
      rw [State.issue_eq hi hf k] at hk
      cases hk
      exact GoesOn.calling (State.frameDue_configured hi.phase hf) fun ans u hp _ => hgoes ans u hp
    left
    cases f <;> rw [hf] at h
    case write => exact hgo _ h fun ans u hp => .writeAnswered (hp ▸ hr) ans
    case read => exact hgo _ h fun ans u hp => .readAnswered (hp ▸ hr) ans
    case release => exact hgo _ h fun ans u _ => .of_regsOnly ⟨_, _, rfl, nofun⟩ rfl

/-- A run goes on with its operation, and where it has ended one frame has been handed over. -/
theorem runFor_goesOn {n : Nat} {s t : State} (hi : Inv s) (hr : s.pc ≠ .ready)
    (h : runFor n s = .next t) : ∃ u, GoesOn s u ∧ u.pc ≠ .ready ∧
      (t = u ∨ ∃ frame, t = u.handOver frame) := by
  induction n generalizing s with
  | zero =>
    cases h
    exact ⟨_, .refl _, hr, .inl rfl⟩
  | succ n ih =>
    obtain ⟨v, hv, hiv⟩ := State.tick_inv hi
    simp only [runFor, if_neg hr, hv] at h
    rcases State.tick_goesOn hi hv with hgo | ⟨frame, rfl⟩
    · obtain ⟨u, hu, hur, ht⟩ := ih hiv (hgo.busy hr) h
      exact ⟨u, hgo.trans hu, hur, ht⟩
    · have hend : runFor n (s.handOver frame) = .next (s.handOver frame) := by
        cases n <;> rfl
      rw [hend] at h
      cases h
      exact ⟨s, .refl s, hr, .inr ⟨frame, rfl⟩⟩

/-! ### The first phase -/

theorem State.needBus_regsOnly {s : State} {go : State → State} (h : RegsOnly s (go s)) :
    RegsOnly s (s.needBus go) := by
  unfold State.needBus
  split
  · exact h
  · exact State.raise_regsOnly _ _ _

theorem State.needBus_op {s : State} {go : State → State} (h : (go s).x.op = s.x.op) :
    (s.needBus go).x.op = s.x.op := by
  unfold State.needBus
  split
  · exact h
  · rfl

/-- Entering an operation writes its phase and its operands (R95). -/
theorem GoesOn.begun {s : State} {i : Instr} (hp : i.port = .request) :
    GoesOn (s.beginOp (opOf i)) (s.begun i) ∧ (s.begun i).pc ≠ .ready := by
  suffices h : RegsOnly (s.beginOp (opOf i)) (s.begun i) ∧
      (s.begun i).x.op = (s.beginOp (opOf i)).x.op by
    refine ⟨.of_regsOnly h.1 h.2, ?_⟩
    obtain ⟨p, x, he, hne⟩ := h.1
    rw [he]
    exact hne
  unfold State.begun enterOp
  cases i with
  | capture speed address =>
    dsimp only
    split <;> exact ⟨⟨_, _, rfl, nofun⟩, rfl⟩
  | scan | flash | rdanticoll => exact ⟨State.raise_regsOnly _ _ _, rfl⟩
  | spi2w | spi2r | spi1 => cases hp
  | _ => exact ⟨State.needBus_regsOnly ⟨_, _, rfl, nofun⟩, State.needBus_op rfl⟩

/-- The first phase of a well-formed operation meets the invariant (R23, R24). -/
theorem Inv.begun {s : State} {i : Instr} (hi : Inv s) (hp : i.port = .request)
    (hwf : i.wf = true) : Inv (s.begun i) := by
  unfold State.begun enterOp
  cases i with
  | capture speed address =>
    dsimp only
    split
    · exact hi.begun_raise _ _ _
    · rename_i ho
      exact hi.of_phase rfl rfl hi.busaddr nofun
        ⟨by simpa using ho, rfl, rfl, rfl, of_decide_eq_true hwf, ⟨rfl, rfl, rfl, rfl⟩⟩
  | scan | flash | rdanticoll => exact hi.begun_raise _ _ _
  | spi2w | spi2r | spi1 => cases hp
  | exec cmd payload =>
    have hlen : payload.length ≤ 255 := of_decide_eq_true hwf
    have hplen : payload.length = (BitVec.ofNat 8 payload.length).toNat := by
      rw [BitVec.toNat_ofNat, Nat.mod_eq_of_lt (by omega)]
    exact hi.begun_needBus fun ho => hi.of_phase rfl rfl hi.busaddr nofun
      ⟨ho, ⟨.inl rfl, rfl, nofun, rfl, rfl, hplen, rfl, rfl⟩, ⟨rfl, rfl, rfl, rfl⟩⟩
  | reqmode mode =>
    exact hi.begun_needBus fun ho => hi.of_phase rfl rfl hi.busaddr nofun
      ⟨ho, rfl, rfl, ⟨rfl, rfl, rfl, rfl⟩, rfl, rfl, rfl⟩
  | release =>
    exact hi.begun_needBus fun ho => hi.of_phase rfl rfl hi.busaddr nofun
      ⟨ho, rfl, ⟨rfl, rfl, rfl, rfl⟩⟩
  | rdreg addr =>
    exact hi.begun_needBus fun ho => hi.of_phase rfl rfl hi.busaddr nofun
      ⟨ho, rfl, rfl, ⟨rfl, rfl, rfl, rfl⟩⟩
  | wrreg addr value =>
    exact hi.begun_needBus fun ho => hi.of_phase rfl rfl hi.busaddr nofun
      ⟨ho, rfl, rfl, rfl, ⟨rfl, rfl, rfl, rfl⟩⟩
  | setbits addr mask =>
    exact hi.begun_needBus fun ho => hi.of_phase rfl rfl hi.busaddr nofun
      ⟨ho, .inl rfl, rfl, rfl, ⟨rfl, rfl, rfl, rfl⟩⟩
  | clrbits addr mask =>
    exact hi.begun_needBus fun ho => hi.of_phase rfl rfl hi.busaddr nofun
      ⟨ho, .inr rfl, rfl, rfl, ⟨rfl, rfl, rfl, rfl⟩⟩

/-- A host operation goes on from its acceptance, and where it has ended one frame has been handed
over. -/
theorem exec_goesOn {s t : State} {i : Instr} (hi : Inv s) (hr : s.pc = .ready)
    (hp : i.port = .request) (hwf : i.wf = true) (h : exec i s = .next t) :
    ∃ u, GoesOn (s.beginOp (opOf i)) u ∧ u.pc ≠ .ready ∧ (t = u ∨ ∃ frame, t = u.handOver frame) := by
  rw [exec_eq_runOp hp, if_pos hr] at h
  obtain ⟨hb, hbusy⟩ := GoesOn.begun (s := s) hp
  obtain ⟨u, hgo, hu⟩ := runFor_goesOn (hi.begun hp hwf) hbusy h
  exact ⟨u, hb.trans hgo, hu⟩

/-- Settles O22: while the operation goes on, only frames of CFG's registers are due. -/
theorem onlyConfiguredRegistersTouched : Obligations.OnlyConfiguredRegistersTouched := by
  unfold Obligations.OnlyConfiguredRegistersTouched
  intro s t i hi hr hwf hp hw hrd hs hcl h
  have ha : ¬ TakesAddress (opOf i) := by
    cases i <;> simp_all [TakesAddress, opOf]
  obtain ⟨u, hgo, -, ht⟩ := exec_goesOn hi hr hp hwf h
  obtain ⟨l, hl, hcalls⟩ := hgo.calls
  have htu : t.calls = u.calls := by
    rcases ht with rfl | ⟨frame, rfl⟩ <;> rfl
  exact ⟨l, htu.trans hl, hcalls ha⟩

end Sys2Proof.Machine
end

section
/-!
PROOFS. The family of spec/10_state.md: a fair operation comes to its end, and what it has left
unchanged then (O20).
-/
namespace Sys2Proof.Machine

/-! ### How many phases an operation still has -/

/-- A bound on the phases of R156 from this one to the hand-over, whatever the answers: the bytes still to
load and to drain and the reads still to poll are counted by their registers. -/
def phasesLeft (c : Cfg) (x : Work) : Phase → Nat
  | .ready => 0
  | .done | .abort => 1
  | .rqCheck | .openBus | .closeBus | .wr | .rd | .rmwWr => 2
  | .relWr | .rmwRd => 3
  | .drain => (reg x.nc).toNat - (reg x.didx).toNat + 2
  | .ctrlRd => c.maxLen.toNat + 3
  | .lvlRd => c.maxLen.toNat + 4
  | .errRd => c.maxLen.toNat + 5
  | .stopWr => c.maxLen.toNat + 6
  | .stopRd => c.maxLen.toNat + 7
  | .poll => c.maxLen.toNat + (reg x.rem).toNat + 7
  | .startWr => c.maxLen.toNat + c.pollBudget.toNat + 8
  | .startRd => c.maxLen.toNat + c.pollBudget.toNat + 9
  | .execute => c.maxLen.toNat + c.pollBudget.toNat + 10
  | .load =>
    c.maxLen.toNat + c.pollBudget.toNat + 10 + ((reg x.plen).toNat - (reg x.pidx).toNat)
  | .forceIdle => c.maxLen.toNat + c.pollBudget.toNat + (reg x.plen).toNat + 11
  | .armFlushWr => c.maxLen.toNat + c.pollBudget.toNat + (reg x.plen).toNat + 12
  | .armFlushRd => c.maxLen.toNat + c.pollBudget.toNat + (reg x.plen).toNat + 13
  | .armIrqWr => c.maxLen.toNat + c.pollBudget.toNat + (reg x.plen).toNat + 14
  | .armIrqRd => c.maxLen.toNat + c.pollBudget.toNat + (reg x.plen).toNat + 15
  | .armIen => c.maxLen.toNat + c.pollBudget.toNat + (reg x.plen).toNat + 16
  | .rqFrame => c.maxLen.toNat + c.pollBudget.toNat + (reg x.plen).toNat + 17

/-- The same of a state. -/
def State.left (s : State) : Nat := phasesLeft s.cfg s.x s.pc

theorem State.left_pos {s : State} (hr : s.pc ≠ .ready) : 0 < s.left := by
  unfold State.left
  cases hp : s.pc <;> simp_all [phasesLeft]

/-- Every phase that issues a transfer has another one after it. -/
theorem State.one_lt_left {s : State} {f : Frame} (hf : s.frameDue = some f) : 1 < s.left := by
  unfold State.frameDue at hf
  unfold State.left
  cases hp : s.pc <;> simp_all [phasesLeft, frameOf]
  omega

theorem State.engineEnd_left (s : State) : s.engineEnd.left ≤ 2 := by
  unfold State.engineEnd
  split <;> simp [State.left, phasesLeft]

theorem State.engineFail_left (s : State) : s.engineFail.left ≤ 2 := State.engineEnd_left _

/-- An index below its count does not wrap at the next byte (R143, R152). -/
theorem toNat_index_succ {i n : Byte} (h : i.toNat < n.toNat) :
    (i + 1#8).toNat = i.toNat + 1 := by
  have := n.isLt
  rw [BitVec.toNat_add]
  simp
  omega

/-- A write that was answered `Ok` brings the operation nearer to its end (R156). -/
theorem State.afterWrite_left {s : State} {a : BitVec 6} {d : Byte} (h : s.PhaseOk)
    (hf : s.frameDue = some (.write a d)) : s.afterWrite.left < s.left := by
  unfold State.frameDue at hf
  unfold State.afterWrite
  cases hp : s.pc <;> simp only [hp, frameOf, reduceCtorEq, Option.some.injEq, readFrame] at hf <;>
    simp only [State.PhaseOk, hp, PhaseInv] at h
  case load =>
    obtain ⟨-, -, -, -, hi⟩ := h
    have hadd := toNat_index_succ hi
    dsimp only
    split <;> simp [State.left, hp, phasesLeft, hadd, hi]
    omega
  case forceIdle =>
    dsimp only
    split <;> simp [State.left, hp, phasesLeft]
    omega
  case execute =>
    dsimp only
    split <;> simp [State.left, State.enterPoll, hp, phasesLeft]
  case stopWr =>
    have hend : 2 < s.left := by simp [State.left, hp, phasesLeft]
    dsimp only
    split
    · exact s.engineFail_left.trans_lt hend
    · simp [State.left, hp, phasesLeft]
  all_goals simp [State.left, State.enterPoll, hp, phasesLeft]

/-- So does a read that has its byte (R156). -/
theorem State.afterRead_left {s : State} {a : BitVec 6} (h : s.PhaseOk)
    (hf : s.frameDue = some (.read a)) (e : Byte) : (s.afterRead e).left < s.left := by
  unfold State.frameDue at hf
  unfold State.afterRead
  cases hp : s.pc <;> simp only [hp, frameOf, reduceCtorEq, Option.some.injEq, writeFrame] at hf <;>
    simp only [State.PhaseOk, hp, PhaseInv] at h
  case poll =>
    obtain ⟨-, -, -, -, hpos, -⟩ := h
    have hsub : (reg s.x.rem - 1#16).toNat = (reg s.x.rem).toNat - 1 := by
      have := (reg s.x.rem).isLt
      rw [BitVec.toNat_sub]
      simp
      omega
    unfold State.polled
    dsimp only
    split_ifs <;> simp [State.left, hp, phasesLeft, hsub] <;> omega
  case errRd =>
    have hend : 2 < s.left := by simp [State.left, hp, phasesLeft]
    unfold State.errorRead
    dsimp only
    split_ifs
    · exact (State.engineFail_left _).trans_lt hend
    · simp [State.left, hp, phasesLeft]
    · exact (State.engineEnd_left _).trans_lt hend
  case ctrlRd =>
    have hle := drainCount_le s.cfg (reg s.x.n)
    simp [State.left, State.controlRead, hp, phasesLeft]
    omega
  case drain =>
    obtain ⟨-, -, -, -, -, -, -, -, -, -, hi⟩ := h
    have hadd := toNat_index_succ hi
    have hend : 2 < s.left := by simp [State.left, hp, phasesLeft, hi]
    unfold State.drained
    dsimp only
    split_ifs
    · simp [State.left, hp, phasesLeft, hadd]
      omega
    · exact (State.engineEnd_left _).trans_lt hend
  all_goals simp [State.left, hp, phasesLeft]

theorem State.raise_left (s : State) (e : Res) (short : Bool) : (s.raise e short).left = 1 := rfl

theorem State.writeAnswered_left {s : State} {a : BitVec 6} {d : Byte} (h : s.PhaseOk)
    (hf : s.frameDue = some (.write a d)) (ans : Answer) :
    (State.writeAnswered ans s).left < s.left := by
  cases ans with
  | ok bytes => exact State.afterWrite_left h hf
  | fail => exact State.one_lt_left hf

theorem State.readAnswered_left {s : State} {a : BitVec 6} (h : s.PhaseOk)
    (hf : s.frameDue = some (.read a)) (ans : Answer) :
    (State.readAnswered ans s).left < s.left := by
  unfold State.readAnswered
  split
  · exact State.afterRead_left h hf _
  · split
    · exact State.afterRead_left (s := s.advise.afterDraw) h hf _
    · exact State.one_lt_left hf

theorem State.releaseAnswered_left {s : State} (hf : s.frameDue = some .release) (ans : Answer) :
    (State.releaseAnswered ans s).left < s.left := by
  have hp := State.frameDue_release hf
  simp [State.left, State.releaseAnswered, hp, phasesLeft]

/-- A call of a fair environment is answered: what follows it decides. -/
theorem State.calling_left {s : State} {c : Call} {k : Answer → State → State}
    (hfair : s.env.fair = true)
    (hk : ∀ ans env draws calls,
      (k ans { s with env := env, draws := draws, calls := calls }).left < s.left) :
    (s.calling c k).left < s.left := by
  obtain ⟨ans, t, hc, -⟩ := State.call_fair hfair c
  simp only [State.calling, hc]
  obtain ⟨env, draws, -, rfl⟩ := State.call_some hc
  exact hk ans env draws _

theorem State.innerPhase_left {s t : State} (hi : Inv s) (hfair : s.env.fair = true)
    (hr : s.pc ≠ .ready) (hf : s.frameDue = none) (h : s.innerPhase = .next t) :
    t.left < s.left := by
  have hleft : s.left = phasesLeft s.cfg s.x s.pc := rfl
  unfold State.frameDue at hf
  unfold State.innerPhase at h
  cases hp : s.pc <;> simp only [hp, frameOf, reduceCtorEq] at hf h hr hleft
  case ready => exact absurd rfl hr
  case openBus =>
    rw [State.phase_next hi h]
    refine State.calling_left hfair fun ans env draws calls => ?_
    rw [hleft]
    cases ans <;> exact Nat.one_lt_two
  case closeBus =>
    rw [State.phase_next hi h]
    refine State.calling_left hfair fun ans env draws calls => ?_
    rw [hleft]
    exact Nat.one_lt_two
  case rqCheck =>
    rw [State.phase_next hi h, hleft]
    unfold State.requestChecked
    split <;> exact Nat.one_lt_two
  case done | abort =>
    rw [State.phase_next hi h, hleft]
    exact Nat.zero_lt_one

/-- A phase whose call is answered brings the operation nearer to its end (R215). -/
theorem State.tick_left {s t : State} (hi : Inv s) (hfair : s.env.fair = true) (hr : s.pc ≠ .ready)
    (h : s.tick = .next t) : t.left < s.left := by
  unfold State.tick at h
  cases hf : s.frameDue with
  | none =>
    rw [hf] at h
    exact State.innerPhase_left hi hfair hr hf h
  | some f =>
    have hgo : ∀ k : Answer → State → State, s.issue f k = .next t →
        (∀ ans env draws calls,
          (k ans { s with env := env, draws := draws, calls := calls }).left < s.left) →
        t.left < s.left := by
      intro k hk hless
      rw [State.issue_eq hi hf k] at hk
      cases hk
      exact State.calling_left hfair hless
    cases f <;> rw [hf] at h
    case write =>
      exact hgo _ h fun ans env draws calls => State.writeAnswered_left
        (s := { s with env := env, draws := draws, calls := calls }) hi.phase hf ans
    case read =>
      exact hgo _ h fun ans env draws calls => State.readAnswered_left
        (s := { s with env := env, draws := draws, calls := calls }) hi.phase hf ans
    case release =>
      exact hgo _ h fun ans env draws calls => State.releaseAnswered_left
        (s := { s with env := env, draws := draws, calls := calls }) hf ans

/-- A run long enough for the phases that are left ends in `P_READY`. -/
theorem runFor_ends {n : Nat} {s t : State} (hi : Inv s) (hfair : s.env.fair = true)
    (hn : s.left ≤ n) (h : runFor n s = .next t) : t.pc = .ready := by
  induction n generalizing s with
  | zero =>
    cases h
    by_contra hr
    have := State.left_pos hr
    omega
  | succ n ih =>
    simp only [runFor] at h
    split at h
    · cases h
      assumption
    · rename_i hr
      obtain ⟨v, hv, hiv⟩ := State.tick_inv hi
      simp only [hv] at h
      have hlt := State.tick_left hi hfair hr hv
      have hfv : v.env.fair = true := by
        rcases State.tick_goesOn hi hv with hgo | ⟨frame, rfl⟩
        · exact hgo.fair hfair
        · exact hfair
      exact ih hiv hfv (by omega) h

theorem State.needBus_left {s : State} {go : State → State} {n : Nat} (h : (go s).left ≤ n)
    (hn : 1 ≤ n) : (s.needBus go).left ≤ n := by
  unfold State.needBus
  split
  · exact h
  · exact hn

/-- The bound of a run is enough for every operation (R157). -/
theorem State.begun_left {s : State} {i : Instr} (hp : i.port = .request) :
    (s.begun i).left ≤ phaseBound s.cfg := by
  have hsmall : 3 ≤ phaseBound s.cfg := by
    unfold phaseBound
    omega
  unfold State.begun enterOp
  cases i with
  | capture speed address =>
    dsimp only
    split <;> simp [State.left, phasesLeft] <;> omega
  | scan | flash | rdanticoll =>
    simp [State.raise_left]
    omega
  | spi2w | spi2r | spi1 => cases hp
  | exec cmd payload =>
    have hlen := (BitVec.ofNat 8 payload.length).isLt
    refine State.needBus_left ?_ (by omega)
    simp only [State.left, phasesLeft, State.enterArm_pc, State.enterArm_x, State.enterArm_cfg,
      State.setX_x, State.setX_cfg, State.beginOp_cfg, reg_some, phaseBound, payloadMax]
    omega
  | reqmode mode =>
    refine State.needBus_left ?_ (by omega)
    simp [State.left, phasesLeft, State.enterRqFrame, phaseBound, payloadMax]
    omega
  | _ =>
    refine State.needBus_left (le_trans ?_ hsmall) (by omega)
    simp [State.left, phasesLeft]

/-- Settles O20: the run ends in a hand-over, and `State.handOver` leaves the working registers and the
flag as a ready state of the invariant has them. -/
theorem operationFrame : Obligations.OperationFrame := by
  unfold Obligations.OperationFrame
  intro s t i hi hr hfair hwf hp hcap hrel h
  have hblank : s.x = Work.blank := by
    have := hi.phase
    rwa [hr] at this
  have hop : opOf i ≠ some .capture ∧ opOf i ≠ some .release := by
    cases i <;> simp_all [opOf]
  have hready : t.pc = .ready := by
    have hgo := (GoesOn.begun (s := s) hp).1
    rw [exec_eq_runOp hp, if_pos hr] at h
    exact runFor_ends (hi.begun hp hwf) (hgo.fair hfair) (hgo.cfg ▸ State.begun_left hp) h
  obtain ⟨u, hgo, hbusy, rfl | ⟨frame, rfl⟩⟩ := exec_goesOn hi hr hp hwf h
  · exact absurd hready hbusy
  · obtain ⟨l, hl, -⟩ := hgo.calls
    obtain ⟨ho, hs, hb⟩ := hgo.handle hop.1 hop.2
    have hc := hgo.cfg
    obtain ⟨hin, hout⟩ := hgo.ports
    have hadv := hi.idle hr
    refine ⟨u.env, u.draws, l, frame, ?_⟩
    cases s
    simp_all [State.handOver]

end Sys2Proof.Machine
end

section
/-!
PROOFS. The family of spec/20_memory.md: what one phase does, with its frame or without, and with a bad
answer (O45).
-/
namespace Sys2Proof.Machine

/-! ### A phase and its frame -/

/-- What a phase does with the answer to its frame (R156, R191). -/
def Frame.answered : Frame → Answer → State → State
  | .write _ _ => State.writeAnswered
  | .read _ => State.readAnswered
  | .release => State.releaseAnswered

/-- A phase with a frame issues it. -/
theorem State.tick_frameDue {s : State} {f : Frame} (hf : s.frameDue = some f) :
    s.tick = s.issue f f.answered := by
  unfold State.tick
  cases f <;> rw [hf] <;> rfl

theorem State.tick_inner {s : State} (hf : s.frameDue = none) : s.tick = s.innerPhase := by
  unfold State.tick
  rw [hf]

/-- A phase that calls the transport waits for the answer (R75) or goes on with it. -/
theorem State.calling_cases (s : State) (c : Call) (k : Answer → State → State) :
    s.calling c k = s ∨ ∃ ans u, s.call c = some (ans, u) ∧ s.calling c k = k ans u := by
  unfold State.calling
  rcases s.call c with _ | ⟨ans, u⟩
  · exact .inl rfl
  · exact .inr ⟨ans, u, rfl, rfl⟩

/-- The answer to a frame changes registers, phase, flag and draws alone. -/
theorem Frame.answered_keeps {s : State} (hr : s.pc ≠ .ready) (f : Frame) (ans : Answer) :
    (f.answered ans s).cfg = s.cfg ∧ (f.answered ans s).env = s.env ∧
      (f.answered ans s).calls = s.calls := by
  cases f with
  | write a d =>
    obtain ⟨p, x, h, -⟩ := State.writeAnswered_regsOnly hr ans
    simp only [Frame.answered, h, and_self]
  | read a =>
    rcases State.readAnswered_cases hr ans with ⟨p, x, h, -⟩ | ⟨-, -, p, x, h, -⟩ <;>
      (rw [Frame.answered, h]; exact ⟨rfl, rfl, rfl⟩)
  | release => exact ⟨rfl, rfl, rfl⟩

/-- The frame that is due is one call, whose answer the phase goes on with, or waits for (R75). -/
theorem State.issue_cases {s t : State} {f : Frame} (hf : s.frameDue = some f)
    (h : s.issue f f.answered = .next t) :
    t = s ∨ ∃ ans u, s.call (.xfer (f.bytes s.cfg)) = some (ans, u) ∧ t = f.answered ans u ∧
      t.cfg = s.cfg ∧ t.env = u.env ∧ t.calls = s.calls ++ [(.xfer (f.bytes s.cfg), ans)] := by
  unfold State.issue at h
  split_ifs at h
  cases h
  rcases s.calling_cases (.xfer (f.bytes s.cfg)) f.answered with heq | ⟨ans, u, hu, heq⟩ <;> rw [heq]
  · exact .inl rfl
  · obtain ⟨hcfg, hpc, -, -, -, -, -, -, -, hcalls⟩ := State.call_keeps hu
    obtain ⟨hcfg', henv, hcalls'⟩ := Frame.answered_keeps (hpc ▸ State.frameDue_ne_ready hf) f ans
    exact .inr ⟨ans, u, hu, rfl, hcfg'.trans hcfg, henv, hcalls'.trans hcalls⟩

theorem State.phase_eq_next {s t : State} {go : State → State} (h : s.phase go = .next t) :
    t = go s := by
  unfold State.phase at h
  split_ifs at h
  cases h
  rfl

/-- A phase without a frame stays as it is, or comes with one call at most, which is no transfer, to
the phases in which an operation ends (R25, R26). -/
theorem State.innerPhase_cases {s t : State} (h : s.innerPhase = .next t) :
    t = s ∨ ∃ u, (u = s ∨ ∃ c ans, (∀ out, c ≠ .xfer out) ∧ s.call c = some (ans, u)) ∧
      t.cfg = u.cfg ∧ t.env = u.env ∧ t.calls = u.calls ∧ t.pc ∈ [.ready, .done, .abort] := by
  have hcall : ∀ c k, t = s.calling c k → t = s ∨ ∃ ans u, s.call c = some (ans, u) ∧ t = k ans u :=
    fun c k ht => ht ▸ s.calling_cases c k
  unfold State.innerPhase at h
  split at h
  case h_1 =>
    rcases hcall _ _ (State.phase_eq_next h) with rfl | ⟨ans, u, hu, rfl⟩
    · exact .inl rfl
    · refine .inr ⟨u, .inr ⟨_, ans, by simp, hu⟩, ?_⟩
      cases ans <;> simp [State.openAnswered]
  case h_2 =>
    rcases hcall _ _ (State.phase_eq_next h) with rfl | ⟨ans, u, hu, rfl⟩
    · exact .inl rfl
    · exact .inr ⟨u, .inr ⟨_, ans, by simp, hu⟩, by simp [State.closeAnswered]⟩
  case h_3 =>
    refine .inr ⟨s, .inl rfl, ?_⟩
    rw [State.phase_eq_next h, State.requestChecked]
    split <;> simp
  case h_4 | h_5 => exact .inr ⟨s, .inl rfl, by simp [State.phase_eq_next h]⟩
  case h_6 =>
    cases h
    exact .inl rfl

/-- A relation that every phase keeps holds over a run of phases. -/
theorem runFor_induct {R : State → State → Prop} (refl : ∀ s, R s s)
    (trans : ∀ {s t u}, R s t → R t u → R s u) (tick : ∀ {s t}, s.tick = .next t → R s t)
    {n : Nat} {s t : State} (h : runFor n s = .next t) : R s t := by
  induction n generalizing s with
  | zero =>
    cases h
    exact refl _
  | succ n ih =>
    unfold runFor at h
    split at h
    · cases h
      exact refl _
    · split at h
      · rename_i u hu
        exact trans (tick hu) (ih h)
      · cases h
      · cases h

/-! ### A bad answer -/

/-- The phases whose read may fail are those of R124 and of the rows marked T in R156. -/
theorem Phase.tolerant_iff {p : Phase} :
    p.tolerant = true ↔ p ∈ [.rmwRd, .armIrqRd, .armFlushRd, .startRd, .stopRd] := by
  cases p <;> simp [Phase.tolerant]

/-- In a tolerant phase a read is due. -/
theorem State.frameDue_tolerant {s : State} {f : Frame} (ht : s.pc.tolerant = true)
    (hf : s.frameDue = some f) : ∃ a, f = .read a := by
  unfold State.frameDue at hf
  rw [Phase.tolerant_iff] at ht
  simp only [List.mem_cons, List.not_mem_nil, or_false] at ht
  rcases ht with hp | hp | hp | hp | hp <;> rw [hp] at hf <;> cases hf <;> exact ⟨_, rfl⟩

/-- The answer of a read has no value exactly where the call failed or the echo is short (R74). -/
theorem readValue_eq_none {ans : Answer} :
    readValue ans = none ↔ ans = .fail ∨ ∃ bytes, ans = .ok bytes ∧ bytes.length < 2 := by
  rcases ans with (_ | ⟨b, _ | ⟨b', l⟩⟩) | _ <;> simp [readValue]

/-- A tolerant read keeps its byte in `x[tmp]` and goes on to the write of its sequence (R156). -/
theorem State.afterRead_tolerant {s : State} {next : Phase}
    (h : (s.pc, next) ∈ [(Phase.rmwRd, Phase.rmwWr), (.armIrqRd, .armIrqWr),
      (.armFlushRd, .armFlushWr), (.startRd, .startWr), (.stopRd, .stopWr)]) (e : Byte) :
    s.pc.tolerant = true ∧ s.afterRead e = (s.setX { s.x with tmp := some e }).goto next := by
  simp only [List.mem_cons, Prod.mk.injEq, List.not_mem_nil, or_false] at h
  unfold State.afterRead
  rcases h with ⟨hp, rfl⟩ | ⟨hp, rfl⟩ | ⟨hp, rfl⟩ | ⟨hp, rfl⟩ | ⟨hp, rfl⟩ <;> rw [hp] <;>
    exact ⟨rfl, rfl⟩

/-- A step of the invariant in a phase whose frame is answered. -/
theorem step_answered {s t : State} {f : Frame} {ans : Answer} (hi : Inv s)
    (hf : s.frameDue = some f) (h : s.call (.xfer (f.bytes s.cfg)) = some (ans, t)) :
    step s = .next (f.answered ans t) := by
  rw [step_busy hi.cfg (State.frameDue_ne_ready hf), State.tick_frameDue hf,
    State.issue_answered (State.opened_of_frame hi.phase hf) (State.holds_of_phase hi.phase) h]

/-- Settles O45: `State.writeAnswered` and `State.readAnswered` on an answer without a value. -/
theorem badAnswerInPhase : Obligations.BadAnswerInPhase := by
  unfold Obligations.BadAnswerInPhase
  intro s t f ans hi hf hrel h
  obtain ⟨-, hpc, -, -, -, -, hx, -⟩ := State.call_keeps h
  rw [step_answered hi hf h, ← hx, ← hpc]
  have htol : t.pc ∉ [.rmwRd, .armIrqRd, .armFlushRd, .startRd, .stopRd] →
      t.pc.tolerant = false := fun hp => by rwa [← Phase.tolerant_iff, Bool.not_eq_true] at hp
  refine ⟨?fail, ?short, ?tolerant⟩
  case fail =>
    rintro rfl hp
    cases f with
    | write a d => rfl
    | read a =>
      simp [Frame.answered, State.readAnswered, readValue, htol hp, shortEcho, State.raise]
    | release => exact absurd rfl hrel
  case short =>
    rintro a bytes rfl rfl hlen hp
    have hv : readValue (.ok bytes) = none := readValue_eq_none.2 (.inr ⟨bytes, rfl, hlen⟩)
    simp [Frame.answered, State.readAnswered, hv, htol hp, shortEcho, hlen, State.raise]
  case tolerant =>
    intro hbad next hnext
    obtain ⟨ht, hgo⟩ := State.afterRead_tolerant (s := t.advise.afterDraw) hnext t.drawn
    obtain ⟨a, rfl⟩ := State.frameDue_tolerant (hpc ▸ ht) hf
    have hv := readValue_eq_none.2 hbad
    have ht' : t.pc.tolerant = true := ht
    simp only [Frame.answered, State.readAnswered, hv, ht', if_true, hgo]
    rfl

end Sys2Proof.Machine
end

section
/-!
PROOFS. The family of spec/20_memory.md: the request port of a busy sequencer (O11), and on which bus
its transfers go out (O21).
-/
namespace Sys2Proof.Machine

/-! ### The request port of a busy sequencer -/

/-- What follows an answer neither reads nor changes the bytes at the request port. -/
def PortFree (k : State → State) : Prop := ∀ s bytes, k (s.setPort bytes) = (k s).setPort bytes

/-- A choice that does not depend on the port's bytes. -/
theorem PortFree.ite {p : State → Prop} [DecidablePred p] {k k' : State → State}
    (hp : ∀ s bytes, p (s.setPort bytes) ↔ p s) (hk : PortFree k) (hk' : PortFree k') :
    PortFree fun s => if p s then k s else k' s := by
  intro s bytes
  by_cases h : p s
  · simp only [hp, h, if_true, hk s bytes]
  · simp only [hp, h, if_false, hk' s bytes]

/-- Registers written whatever the port's bytes are. -/
theorem PortFree.setX {g : State → Work} {k : State → State}
    (hg : ∀ s bytes, g (s.setPort bytes) = g s) (hk : PortFree k) :
    PortFree fun s => k (s.setX (g s)) := by
  intro s bytes
  simp only [hg]
  exact hk (s.setX (g s)) bytes

theorem State.goto_portFree (p : Phase) : PortFree fun s => s.goto p := fun _ _ => rfl

theorem State.raise_portFree (e : Res) (short : Bool) : PortFree fun s => s.raise e short :=
  fun _ _ => rfl

theorem State.finish_portFree (r : Res) : PortFree fun s => s.finish r := fun _ _ => rfl

theorem State.engineEnd_portFree : PortFree State.engineEnd :=
  .ite (p := fun s => s.x.op = some .reqmode) (fun _ _ => .rfl) (State.goto_portFree _)
    (State.finish_portFree _)

theorem State.engineFail_portFree : PortFree State.engineFail :=
  .setX (k := State.engineEnd) (fun _ _ => rfl) State.engineEnd_portFree

theorem State.polled_portFree (e : Byte) : PortFree fun s => s.polled e :=
  .ite (p := fun s => termBit e (reg s.x.waitIrq) = true) (fun _ _ => .rfl) (fun _ _ => rfl)
    fun _ _ => rfl

theorem State.errorRead_portFree (e : Byte) : PortFree fun s => s.errorRead e :=
  .ite (p := fun _ => chipError e = true) (fun _ _ => .rfl)
    (.setX (fun _ _ => rfl) State.engineFail_portFree) <|
    .ite (p := fun s => isTrx s.cfg (reg s.x.cmd) = true) (fun _ _ => .rfl) (fun _ _ => rfl)
      (.setX (fun _ _ => rfl) State.engineEnd_portFree)

theorem State.drained_portFree (e : Byte) : PortFree fun s => s.drained e :=
  .ite (p := fun s => (reg s.x.didx + 1#8).ult (reg s.x.nc) = true) (fun _ _ => .rfl)
    (fun _ _ => rfl) (.setX (fun _ _ => rfl) State.engineEnd_portFree)

theorem State.afterWrite_portFree : PortFree State.afterWrite := by
  intro s bytes
  unfold State.afterWrite
  rw [State.setPort_pc]
  cases s.pc
  case execute =>
    exact PortFree.ite (p := fun s => isTrx s.cfg (reg s.x.cmd) = true) (fun _ _ => .rfl)
      (State.goto_portFree _) (fun _ _ => rfl) s bytes
  case stopWr =>
    exact PortFree.ite (p := fun s => reg s.x.rem = 0#16) (fun _ _ => .rfl)
      State.engineFail_portFree (State.goto_portFree _) s bytes
  all_goals rfl

theorem State.afterRead_portFree (e : Byte) : PortFree fun s => s.afterRead e := by
  intro s bytes
  dsimp only
  unfold State.afterRead
  rw [State.setPort_pc]
  cases s.pc
  case poll => exact State.polled_portFree e s bytes
  case errRd => exact State.errorRead_portFree e s bytes
  case drain => exact State.drained_portFree e s bytes
  all_goals rfl

theorem Frame.answered_portFree (f : Frame) (ans : Answer) : PortFree (f.answered ans) := by
  cases f with
  | write a d =>
    cases ans with
    | ok bytes => exact State.afterWrite_portFree
    | fail => exact fun _ _ => rfl
  | read a =>
    show PortFree (State.readAnswered ans)
    unfold State.readAnswered
    cases readValue ans with
    | some e => exact State.afterRead_portFree e
    | none =>
      exact .ite (p := fun s => s.pc.tolerant = true) (fun _ _ => .rfl)
        (fun s => State.afterRead_portFree s.drawn s.advise.afterDraw)
        (State.raise_portFree _ _)
  | release => exact fun _ _ => rfl

/-- A call that does not depend on the port's bytes is made, and answered, whatever they are. -/
theorem PortFree.calling {c : State → Call} {k : Answer → State → State}
    (hc : ∀ s bytes, c (s.setPort bytes) = c s) (hk : ∀ ans, PortFree (k ans)) :
    PortFree fun s => s.calling (c s) k := by
  intro s bytes
  have hcall : (s.setPort bytes).call (c s) =
      (s.call (c s)).map fun p => (p.1, p.2.setPort bytes) := by
    simp only [State.call, State.setPort]
    cases s.env.answer s.draws (c s) <;> rfl
  simp only [State.calling, hc, hcall]
  rcases s.call (c s) with _ | ⟨ans, t⟩
  · rfl
  · exact hk ans t bytes

theorem State.issue_setPort {s t : State} {f : Frame} {k : Answer → State → State}
    (hk : ∀ ans, PortFree (k ans)) (bytes : List Byte) (h : s.issue f k = .next t) :
    (s.setPort bytes).issue f k = .next (t.setPort bytes) := by
  unfold State.issue at h
  split_ifs at h with hh ho
  cases h
  exact (if_neg hh).trans ((if_neg ho).trans (congrArg _
    (PortFree.calling (c := fun s => .xfer (f.bytes s.cfg)) (fun _ _ => rfl) hk s bytes)))

theorem State.phase_setPort {s t : State} {go : State → State} (hgo : PortFree go)
    (bytes : List Byte) (h : s.phase go = .next t) :
    (s.setPort bytes).phase go = .next (t.setPort bytes) := by
  unfold State.phase at h
  split_ifs at h with hh
  cases h
  exact (if_neg hh).trans (congrArg _ (hgo s bytes))

theorem State.requestChecked_portFree : PortFree State.requestChecked :=
  .ite (p := fun s => s.x.status = some .ok ∧ s.x.bitLen = some 16#32) (fun _ _ => .rfl)
    (fun _ _ => rfl) fun _ _ => rfl

/-- A phase does the same whatever bytes are at the request port, and leaves them there (R80, R216). -/
theorem State.tick_setPort {s t : State} (bytes : List Byte) (h : s.tick = .next t) :
    (s.setPort bytes).tick = .next (t.setPort bytes) := by
  have hdue : (s.setPort bytes).frameDue = s.frameDue := rfl
  cases hf : s.frameDue with
  | some f =>
    rw [State.tick_frameDue hf] at h
    rw [State.tick_frameDue (hdue.trans hf)]
    exact State.issue_setPort f.answered_portFree bytes h
  | none =>
    rw [State.tick_inner hf] at h
    rw [State.tick_inner (hdue.trans hf)]
    unfold State.innerPhase at h ⊢
    rw [State.setPort_pc]
    split at h
    case h_1 =>
      refine State.phase_setPort (PortFree.calling (fun _ _ => rfl) fun ans => ?_) bytes h
      cases ans <;> exact fun _ _ => rfl
    case h_2 =>
      exact State.phase_setPort (PortFree.calling (fun _ _ => rfl) fun _ _ _ => rfl) bytes h
    case h_3 => exact State.phase_setPort State.requestChecked_portFree bytes h
    case h_4 | h_5 => exact State.phase_setPort (fun _ _ => rfl) bytes h
    case h_6 =>
      cases h
      rfl

/-- A step that answers a next state had a legal CFG (R9). -/
theorem wf_of_step {s t : State} (h : step s = .next t) : s.cfg.wf = true := by
  by_contra hc
  rw [step_refused_iff.2 ⟨by simpa using hc, rfl⟩] at h
  cases h

/-- Settles O11: a phase is the same with other bytes at the port, its own bytes among them. -/
theorem busyIgnoresRequestPort : Obligations.BusyIgnoresRequestPort := by
  unfold Obligations.BusyIgnoresRequestPort
  constructor
  · intro s t bytes hr h
    have hc := wf_of_step h
    rw [step_busy hc hr] at h
    have hsame : (s.setPort s.reqIn).tick = .next (t.setPort s.reqIn) := State.tick_setPort _ h
    have ht : t = t.setPort s.reqIn := Host.Outcome.next.inj (h.symm.trans hsame)
    exact ⟨(congrArg State.reqIn ht :),
      (step_busy (s := s.setPort bytes) hc hr).trans (State.tick_setPort bytes h)⟩
  · intro s i hr hp
    rw [exec_eq_runOp hp, if_neg hr]

/-! ### The bus a transfer goes out on -/

/-- From `s` to `t` the trace has grown, by transfers only where `s` had a frame due, each of two bytes
or RELEASE's (R69); and a frame is due in `t` only if one was in `s`, since no phase without a frame
leads to one with a frame. -/
structure Sends (s t : State) : Prop where
  due   : t.frameDue ≠ none → s.frameDue ≠ none
  calls : ∃ l, t.calls = s.calls ++ l ∧ ∀ e ∈ l, ∀ out, e.1 = .xfer out →
    s.frameDue ≠ none ∧ (out.length = 2 ∨ out = [0x00#8])

theorem Sends.refl (s : State) : Sends s s := ⟨id, [], by simp, nofun⟩

theorem Sends.trans {s t u : State} (h : Sends s t) (h' : Sends t u) : Sends s u := by
  obtain ⟨l, hl, hsent⟩ := h.calls
  obtain ⟨l', hl', hsent'⟩ := h'.calls
  refine ⟨h.due ∘ h'.due, l ++ l', by rw [hl', hl, List.append_assoc], fun e he out hout => ?_⟩
  rcases List.mem_append.1 he with he | he
  · exact hsent e he out hout
  · obtain ⟨hdue, hbytes⟩ := hsent' e he out hout
    exact ⟨h.due hdue, hbytes⟩

/-- A frame is of two bytes, or the one byte of RELEASE (R90, R91, R92). -/
theorem Frame.bytes_shape (c : Cfg) (f : Frame) :
    (f.bytes c).length = 2 ∨ f.bytes c = [0x00#8] := by
  cases f <;> simp [Frame.bytes]

/-- The phases in which an operation ends issue no frame (R26). -/
theorem State.frameDue_ending {s : State} (h : s.pc ∈ [.ready, .done, .abort]) :
    s.frameDue = none := by
  simp only [List.mem_cons, List.not_mem_nil, or_false] at h
  unfold State.frameDue
  rcases h with hp | hp | hp <;> rw [hp] <;> rfl

theorem State.tick_sends {s t : State} (h : s.tick = .next t) : Sends s t := by
  cases hf : s.frameDue with
  | some f =>
    have hdue : s.frameDue ≠ none := by simp [hf]
    rw [State.tick_frameDue hf] at h
    rcases State.issue_cases hf h with rfl | ⟨ans, u, -, -, -, -, hcalls⟩
    · exact .refl _
    · refine ⟨fun _ => hdue, _, hcalls, ?_⟩
      rintro e he out hout
      obtain rfl := List.mem_singleton.1 he
      cases hout
      exact ⟨hdue, f.bytes_shape s.cfg⟩
  | none =>
    rw [State.tick_inner hf] at h
    rcases State.innerPhase_cases h with rfl | ⟨u, hu, -, -, hcalls, hpc⟩
    · exact .refl _
    · refine ⟨fun hdue => absurd (State.frameDue_ending hpc) hdue, ?_⟩
      rcases hu with rfl | ⟨c, ans, hc, hcall⟩
      · exact ⟨[], by simpa using hcalls, nofun⟩
      · obtain ⟨-, -, -, -, -, -, -, -, -, hu⟩ := State.call_keeps hcall
        refine ⟨[(c, ans)], hcalls.trans hu, ?_⟩
        rintro e he out hout
        obtain rfl := List.mem_singleton.1 he
        exact absurd hout (hc out)

theorem State.runOp_sends {s t : State} (h : s.runOp = .next t) : Sends s t :=
  runFor_induct Sends.refl Sends.trans State.tick_sends h

/-- Entering an operation writes its phase and its operands only (R95). -/
theorem State.begun_regsOnly {s : State} {i : Instr} (hp : i.port = .request) :
    RegsOnly (s.beginOp (opOf i)) (s.begun i) := by
  unfold State.begun enterOp
  cases i with
  | capture speed address =>
    dsimp only
    split <;> exact ⟨_, _, rfl, nofun⟩
  | scan | flash | rdanticoll => exact State.raise_regsOnly _ _ _
  | spi2w | spi2r | spi1 => cases hp
  | _ => exact State.needBus_regsOnly ⟨_, _, rfl, nofun⟩

/-- What is sent from a phase of the invariant goes out on an open bus (R61). -/
theorem Sends.openBus {s t : State} (hs : s.PhaseOk) (h : Sends s t) :
    ∃ l, t.calls = s.calls ++ l ∧ ∀ e ∈ l, ∀ out, e.1 = .xfer out →
      s.opened = true ∧ (out.length = 2 ∨ out = [0x00#8]) := by
  obtain ⟨l, hl, hsent⟩ := h.calls
  refine ⟨l, hl, fun e he out hout => ?_⟩
  obtain ⟨hdue, hbytes⟩ := hsent e he out hout
  obtain ⟨f, hf⟩ := Option.ne_none_iff_exists'.1 hdue
  exact ⟨State.opened_of_frame hs hf, hbytes⟩

/-- Settles O21: in a phase of the invariant with a frame due the bus is open, and an operation enters
its first phase with the bus as it was. -/
theorem transfersOnOpenBusOnly : Obligations.TransfersOnOpenBusOnly := by
  unfold Obligations.TransfersOnOpenBusOnly
  intro s t hi h
  rcases step_cases hi.cfg with
    ⟨-, hs⟩ | ⟨-, -, hs⟩ | ⟨_, rest, i, hr, -, hd, hs⟩ | ⟨_, rest, _, -, -, -, hs⟩ <;> rw [hs] at h
  · exact (State.tick_sends h).openBus hi.phase
  · cases h
    exact (Sends.refl s).openBus hi.phase
  · obtain ⟨hp, hwf⟩ := decode_request_wf hd
    rw [exec_eq_runOp hp, if_pos (show (s.setPort rest).pc = .ready from hr)] at h
    obtain ⟨p, x, hb, -⟩ := State.begun_regsOnly (s := s.setPort rest) hp
    have hsent := (State.runOp_sends h).openBus ((hi.setPort rest).begun hp hwf).phase
    rw [hb] at hsent
    exact hsent
  · have hb : Inv (((s.setPort rest).beginOp none).raise .badRequest false) :=
      (hi.setPort rest).begun_raise _ _ _
    have hsent := (State.runOp_sends h).openBus hb.phase
    exact hsent

end Sys2Proof.Machine
end

section
/-!
PROOFS. The family of spec/20_memory.md: the replay mock's answer to two bytes (O29), and the cells that
an instruction can change (O31).
-/
namespace Sys2Proof.Machine

/-! ### The replay mock's answer -/

/-- Settles O29, by `Memory.read_write` where bit 7 of the address byte is clear. -/
theorem replayMockAnswers : Obligations.ReplayMockAnswers := by
  unfold Obligations.ReplayMockAnswers
  intro m d a v hw
  constructor
  · intro hwrite
    refine ⟨Config.freeByte d, Config.freeByte (d + 1), m.write (wireAddr a).toNat v, d + 2, ?_,
      Memory.write_wf hw (wireAddr a).isLt, fun k => Memory.read_write hw⟩
    simp only [Env.answer, mockAccess, hwrite, Bool.false_eq_true, if_false]
    rfl
  · intro hread
    refine ⟨Config.freeByte d, d + 1, ?_⟩
    simp only [Env.answer, mockAccess, hread, if_true]
    rfl

/-- A mock's write access is a two-byte transfer with bit 7 of its address byte clear (R78). -/
theorem mockAccess_write {out : List Byte} {cell : Nat} {v : Byte}
    (h : mockAccess out = .write cell v) :
    ∃ a, out = [a, v] ∧ a.getLsbD 7 = false ∧ cell = (wireAddr a).toNat := by
  unfold mockAccess at h
  split at h
  · split_ifs at h with hbit
    cases h
    exact ⟨_, rfl, by simpa using hbit, rfl⟩
  · cases h

/-- An answered call changes no cell of the environment but the one a write frame names (R78). -/
theorem Env.answer_read {e e' : Env} {d d' k : Nat} {c : Call} {ans : Answer}
    (hw : Memory.wf e.cells = true) (h : e.answer d c = some (ans, e', d'))
    (hk : ∀ a v, c = .xfer [a, v] → a.getLsbD 7 = false → k ≠ (wireAddr a).toNat) :
    e'.cells.read k = e.cells.read k := by
  cases e with
  | free l => cases l <;> (cases h; rfl)
  | stuck l =>
    cases l with
    | nil => cases h
    | cons b l => cases h; rfl
  | replay m =>
    cases c with
    | openBus a sp => cases h; rfl
    | closeBus => cases h; rfl
    | xfer out =>
      simp only [Env.answer] at h
      split at h
      case h_2 cell v haccess =>
        cases h
        obtain ⟨a, rfl, hbit, rfl⟩ := mockAccess_write haccess
        exact (Memory.read_write hw).trans (if_neg (hk a v rfl hbit))
      all_goals cases h; rfl
  | scripted l =>
    cases c with
    | openBus a sp => cases h; rfl
    | closeBus => cases h; rfl
    | xfer out =>
      simp only [Env.answer] at h
      split at h
      case h_1 => cases l <;> (cases h; rfl)
      all_goals cases h; rfl

/-! ### The registers an operation may still write -/

/-- The six registers of CFG the engine writes (R32 to R34, R36, R37, R39, R166). -/
def engineStores (c : Cfg) : List Byte :=
  [c.regCommand, c.regComIen, c.regComIrq, c.regFifoData, c.regFifoLevel, c.regBitFraming]

/-- The chip registers that an operation in the given phase may yet write (R25, R156). -/
def storesLeft (c : Cfg) (x : Work) : Phase → List Byte
  | .wr | .rmwRd | .rmwWr => [reg x.a]
  | .ready | .rd | .openBus | .relWr | .closeBus | .rqCheck | .done | .abort => []
  | _ => engineStores c

/-- `storesLeft` of the present phase. -/
def State.stores (s : State) : List Byte := storesLeft s.cfg s.x s.pc

/-- The register that a frame writes, where it writes one. -/
def Frame.stores : Frame → List Byte
  | .write a _ => [a.setWidth 8]
  | .read _ | .release => []

/-- The mock's cell of a register address (R62, R78). -/
def cellOf (r : Byte) : Nat := (wireAddr (encAddr r)).toNat

/-- Only `addr[5:0]` of a register address reaches the bus (R62). -/
theorem cellOf_frame (r : Byte) : cellOf ((r.setWidth 6).setWidth 8) = cellOf r := by
  rw [cellOf, encAddr_frame, cellOf]

/-- The write that is due is to a cell the operation may yet write. -/
theorem State.frameDue_stores {s : State} {f : Frame} (hf : s.frameDue = some f) :
    ∀ r ∈ f.stores, ∃ r' ∈ s.stores, cellOf r = cellOf r' := by
  have hwrite : ∀ a d, a ∈ s.stores → ∀ r ∈ (writeFrame a d).stores,
      ∃ r' ∈ s.stores, cellOf r = cellOf r' := by
    intro a d ha r hr
    obtain rfl := List.mem_singleton.1 hr
    exact ⟨a, ha, cellOf_frame a⟩
  unfold State.frameDue at hf
  cases hp : s.pc <;> rw [hp] at hf <;> cases hf
  case rd | rmwRd | armIrqRd | armFlushRd | startRd | poll | stopRd | errRd | lvlRd | ctrlRd | drain |
      relWr => exact fun r hr => nomatch hr
  all_goals exact hwrite _ _ (by simp [State.stores, storesLeft, engineStores, hp])

theorem State.engineEnd_stores (s : State) : s.engineEnd.stores = [] := by
  unfold State.engineEnd
  split <;> rfl

theorem State.engineFail_stores (s : State) : s.engineFail.stores = [] := State.engineEnd_stores _

/-- The phase after a write may write no further register (R156). -/
theorem State.afterWrite_stores (s : State) : s.afterWrite.stores ⊆ s.stores := by
  unfold State.afterWrite
  cases hp : s.pc
  case wr | rmwWr => exact List.nil_subset _
  case forceIdle | load | execute =>
    dsimp only
    split <;> simp [State.stores, storesLeft, hp, State.enterPoll]
  case stopWr =>
    dsimp only
    split
    · simp [State.engineFail_stores]
    · simp [State.stores, storesLeft, hp]
  case rqFrame | armIen | armIrqWr | armFlushWr | startWr =>
    simp [State.stores, storesLeft, hp, State.enterPoll]
  all_goals exact List.Subset.refl _

theorem State.afterRead_stores (s : State) (e : Byte) : (s.afterRead e).stores ⊆ s.stores := by
  unfold State.afterRead
  cases hp : s.pc
  case rd => exact List.nil_subset _
  case poll =>
    dsimp only
    unfold State.polled
    dsimp only
    split
    · simp [State.stores, storesLeft, hp]
    · split <;> simp [State.stores, storesLeft, hp]
  case errRd =>
    dsimp only
    unfold State.errorRead
    dsimp only
    split
    · simp [State.engineFail_stores]
    · split
      · simp [State.stores, storesLeft, hp]
      · simp [State.engineEnd_stores]
  case drain =>
    dsimp only
    unfold State.drained
    dsimp only
    split
    · simp [State.stores, storesLeft, hp]
    · simp [State.engineEnd_stores]
  case rmwRd | armIrqRd | armFlushRd | startRd | stopRd | lvlRd | ctrlRd =>
    simp [State.stores, storesLeft, hp, State.controlRead]
  all_goals exact List.Subset.refl _

theorem Frame.answered_stores (f : Frame) (ans : Answer) (s : State) :
    (f.answered ans s).stores ⊆ s.stores := by
  cases f with
  | write a d =>
    cases ans with
    | ok bytes => exact State.afterWrite_stores s
    | fail => exact List.nil_subset _
  | read a =>
    show (State.readAnswered ans s).stores ⊆ _
    unfold State.readAnswered
    split
    · exact State.afterRead_stores s _
    · split
      · exact State.afterRead_stores s.advise.afterDraw _
      · exact List.nil_subset _
  | release => exact List.nil_subset _

/-! ### The cells that change -/

/-- From `s` to `t` the mock has kept its memory canonical and changed cells of the registers `l`
only. -/
def KeepsCells (l : List Byte) (s t : State) : Prop :=
  Memory.wf s.env.cells = true → Memory.wf t.env.cells = true ∧
    ∀ k, (∀ r ∈ l, k ≠ cellOf r) → t.env.cells.read k = s.env.cells.read k

theorem KeepsCells.of_env {l : List Byte} {s t : State} (h : t.env = s.env) : KeepsCells l s t :=
  fun hw => ⟨h ▸ hw, fun _ _ => by rw [h]⟩

theorem KeepsCells.trans {l : List Byte} {s t u : State} (h : KeepsCells l s t)
    (h' : KeepsCells l t u) : KeepsCells l s u := by
  intro hw
  obtain ⟨hwt, ht⟩ := h hw
  obtain ⟨hwu, hu⟩ := h' hwt
  exact ⟨hwu, fun k hk => (hu k hk).trans (ht k hk)⟩

theorem KeepsCells.mono {l l' : List Byte} {s t : State} (h : KeepsCells l s t)
    (hl : ∀ r ∈ l, ∃ r' ∈ l', cellOf r = cellOf r') : KeepsCells l' s t := by
  refine fun hw => ⟨(h hw).1, fun k hk => (h hw).2 k fun r hr => ?_⟩
  obtain ⟨r', hr', heq⟩ := hl r hr
  exact heq ▸ hk r' hr'

/-- A call whose writes go to the registers `l` changes cells of those only. -/
theorem KeepsCells.call {l : List Byte} {s t : State} {c : Call} {ans : Answer}
    (h : s.call c = some (ans, t))
    (hc : ∀ a v, c = .xfer [a, v] → a.getLsbD 7 = false → ∃ r ∈ l, a = encAddr r) :
    KeepsCells l s t := by
  obtain ⟨env, draws, he, rfl⟩ := State.call_some h
  refine fun hw =>
    ⟨Env.answer_cells he hw, fun k hk => Env.answer_read hw he fun a v hcall hbit => ?_⟩
  obtain ⟨r, hr, rfl⟩ := hc a v hcall hbit
  exact hk r hr

/-- With `RD_FLAG` 0x80 a read frame is no write (R78, R91), and no frame writes but its register. -/
theorem Frame.bytes_stores {c : Cfg} (hrd : c.rdFlag = 0x80#8) (f : Frame) (a v : Byte)
    (h : Call.xfer (f.bytes c) = .xfer [a, v]) (hbit : a.getLsbD 7 = false) :
    ∃ r ∈ f.stores, a = encAddr r := by
  cases f with
  | write b d =>
    cases h
    exact ⟨_, List.mem_singleton.2 rfl, rfl⟩
  | read b =>
    cases h
    simp [hrd] at hbit
  | release => cases h

/-- A frame that is due changes the cell of the register it writes only. -/
theorem State.issue_keepsCells {s t : State} {f : Frame} (hf : s.frameDue = some f)
    (hrd : s.cfg.rdFlag = 0x80#8) (h : s.issue f f.answered = .next t) : KeepsCells f.stores s t := by
  rcases State.issue_cases hf h with rfl | ⟨ans, u, hu, -, -, henv, -⟩
  · exact .of_env rfl
  · exact (KeepsCells.call hu (f.bytes_stores hrd)).trans (.of_env henv)

/-- From `s` to `t` an operation has gone on: CFG is as before, no register has come to those it may
write, and only their cells have changed. -/
structure Stores (s t : State) : Prop where
  cfg   : t.cfg = s.cfg
  left  : t.stores ⊆ s.stores
  cells : s.cfg.rdFlag = 0x80#8 → KeepsCells s.stores s t

theorem Stores.refl (s : State) : Stores s s :=
  ⟨rfl, List.Subset.refl _, fun _ => .of_env rfl⟩

theorem Stores.trans {s t u : State} (h : Stores s t) (h' : Stores t u) : Stores s u :=
  ⟨h'.cfg.trans h.cfg, List.Subset.trans h'.left h.left,
    fun hrd => (h.cells hrd).trans ((h'.cells (h.cfg ▸ hrd)).mono fun r hr => ⟨r, h.left hr, rfl⟩)⟩

/-- The phases in which an operation ends write no register (R26). -/
theorem State.stores_ending {s : State} (h : s.pc ∈ [.ready, .done, .abort]) : s.stores = [] := by
  simp only [List.mem_cons, List.not_mem_nil, or_false] at h
  unfold State.stores
  rcases h with hp | hp | hp <;> rw [hp] <;> rfl

theorem State.tick_stores {s t : State} (h : s.tick = .next t) : Stores s t := by
  cases hf : s.frameDue with
  | some f =>
    rw [State.tick_frameDue hf] at h
    have hcells : s.cfg.rdFlag = 0x80#8 → KeepsCells s.stores s t := fun hrd =>
      (State.issue_keepsCells hf hrd h).mono (State.frameDue_stores hf)
    rcases State.issue_cases hf h with rfl | ⟨ans, u, hu, rfl, hcfg, -, -⟩
    · exact .refl _
    · refine ⟨hcfg, ?_, hcells⟩
      obtain ⟨env, draws, -, rfl⟩ := State.call_some hu
      exact f.answered_stores ans _
  | none =>
    rw [State.tick_inner hf] at h
    rcases State.innerPhase_cases h with rfl | ⟨u, hu, hcfg, henv, -, hpc⟩
    · exact .refl _
    · have hleft : t.stores ⊆ s.stores := by simp [State.stores_ending hpc]
      rcases hu with rfl | ⟨c, ans, hc, hcall⟩
      · exact ⟨hcfg, hleft, fun _ => .of_env henv⟩
      · refine ⟨hcfg.trans (State.call_keeps hcall).1, hleft, fun _ => ?_⟩
        exact (KeepsCells.call hcall fun a v hx => absurd hx (hc _)).trans (.of_env henv)

/-! ### What an instruction stores -/

/-- The chip registers an instruction may write (R120, R122, R123, R140, R180). -/
def instrStores (c : Cfg) : Instr → List Byte
  | .wrreg addr _ | .setbits addr _ | .clrbits addr _ => [addr]
  | .exec _ _ | .reqmode _ => engineStores c
  | .spi2w a _ => [a.setWidth 8]
  | .capture _ _ | .release | .scan | .flash _ | .rdreg _ | .rdanticoll | .spi2r _ | .spi1 => []

theorem State.needBus_stores {s : State} {go : State → State} {l : List Byte}
    (h : (go s).stores ⊆ l) : (s.needBus go).stores ⊆ l := by
  unfold State.needBus
  split
  · exact h
  · exact List.nil_subset _

/-- The first phase of an operation leads to its instruction's registers only. -/
theorem State.begun_stores (s : State) {i : Instr} (hp : i.port = .request) :
    (s.begun i).stores ⊆ instrStores s.cfg i := by
  unfold State.begun enterOp
  cases i with
  | capture speed address =>
    dsimp only
    split <;> exact List.nil_subset _
  | scan | flash | rdanticoll => exact List.nil_subset _
  | spi2w | spi2r | spi1 => cases hp
  | _ => exact State.needBus_stores (List.Subset.refl _)

/-- A wire frame is an instruction (R90 to R92). -/
theorem Instr.eq_frame {i : Instr} (hp : i.port = .wire) : ∃ f : Frame, i = f.instr := by
  cases i with
  | spi2w a d => exact ⟨.write a d, rfl⟩
  | spi2r a => exact ⟨.read a, rfl⟩
  | spi1 => exact ⟨.release, rfl⟩
  | _ => cases hp

theorem Frame.instr_stores (c : Cfg) (f : Frame) : instrStores c f.instr = f.stores := by
  cases f <;> rfl

/-- A wire frame's instruction that goes on is the frame that is due (R194). -/
theorem exec_frame {s t : State} {f : Frame} (h : exec f.instr s = .next t) :
    s.frameDue = some f ∧ s.issue f f.answered = .next t := by
  have hexec : exec f.instr s = s.issuing f f.answered := by cases f <;> rfl
  rw [hexec, State.issuing] at h
  split_ifs at h with hf
  exact ⟨not_not.1 hf, h⟩

/-- Every instruction changes cells of its own registers only. -/
theorem exec_keepsCells {s t : State} {i : Instr} (hrd : s.cfg.rdFlag = 0x80#8)
    (h : exec i s = .next t) : KeepsCells (instrStores s.cfg i) s t := by
  cases hp : i.port with
  | wire =>
    obtain ⟨f, rfl⟩ := Instr.eq_frame hp
    obtain ⟨hf, hissue⟩ := exec_frame h
    exact f.instr_stores s.cfg ▸ State.issue_keepsCells hf hrd hissue
  | request =>
    rw [exec_eq_runOp hp] at h
    split_ifs at h
    have hstores := runFor_induct Stores.refl Stores.trans State.tick_stores h
    obtain ⟨p, x, hb, -⟩ := State.begun_regsOnly (s := s) hp
    have hcfg : (s.begun i).cfg = s.cfg := by rw [hb]; rfl
    have henv : (s.begun i).env = s.env := by rw [hb]; rfl
    exact (KeepsCells.of_env henv).trans
      ((hstores.cells (hcfg ▸ hrd)).mono fun r hr => ⟨r, s.begun_stores hp hr, rfl⟩)

/-- Settles O31: each clause names the instruction's own registers, or says that it has none. -/
theorem replayStoresAtItsCell : Obligations.ReplayStoresAtItsCell := by
  unfold Obligations.ReplayStoresAtItsCell
  intro s t m i hi henv hrd h
  have hkeep : ∀ k, (∀ r ∈ instrStores s.cfg i, k ≠ cellOf r) → t.env.cells.read k = m.read k := by
    intro k hk
    rw [(exec_keepsCells hrd h hi.cells).2 k hk, henv]
    rfl
  refine ⟨?_, ?_, ?_, ?_⟩
  · rintro a v (rfl | rfl | rfl) k hk <;> exact hkeep k (by simpa [instrStores, cellOf] using hk)
  · rintro a v rfl k hk
    exact hkeep k (by simpa [instrStores, cellOf] using hk)
  · rintro (⟨cmd, payload, rfl⟩ | ⟨mode, rfl⟩) k hk <;> exact hkeep k hk
  · rintro (⟨_, _, rfl⟩ | rfl | rfl | ⟨_, rfl⟩ | ⟨_, rfl⟩ | rfl | ⟨_, rfl⟩ | rfl) k <;>
      exact hkeep k nofun

end Sys2Proof.Machine
end

section
/-!
PROOFS. The family of spec/30_encoding.md: decoding undoes encoding (O1, O3, O5), the address byte (O4),
and the requests that the opcode table's rows select (O2, O9).
-/
namespace Sys2Proof.Machine

/-! ### The address byte -/

/-- R93 as a shift: the address's low six bits, one place up, and no others. -/
theorem encAddr_eq_shiftLeft (a : Byte) : encAddr a = (a.setWidth 6).setWidth 8 <<< 1 := by
  unfold encAddr
  ext i hi
  have : i = 0 ∨ i = 1 ∨ i = 2 ∨ i = 3 ∨ i = 4 ∨ i = 5 ∨ i = 6 ∨ i = 7 := by omega
  rcases this with rfl | rfl | rfl | rfl | rfl | rfl | rfl | rfl <;> simp

/-- R93 on numbers. -/
theorem encAddr_toNat (a : Byte) : (encAddr a).toNat = 2 * (a.toNat % 64) := by
  rw [encAddr_eq_shiftLeft]
  simp only [BitVec.toNat_shiftLeft, BitVec.toNat_setWidth, Nat.shiftLeft_eq]
  omega

/-- The decoder's address field of an address byte (R90, R93). -/
@[simp] theorem wireAddr_encAddr (a : Byte) : wireAddr (encAddr a) = a.setWidth 6 := by
  rw [encAddr_eq_shiftLeft, wireAddr]
  ext i hi
  simp [show 1 + i < 8 by omega, show i < 8 by omega, hi]

@[simp] theorem encAddr_bit0 (a : Byte) : (encAddr a)[0] = false := by
  simp [encAddr_eq_shiftLeft]

@[simp] theorem encAddr_bit7 (a : Byte) : (encAddr a)[7] = false := by
  simp [encAddr_eq_shiftLeft]

/-- Settles O4: addresses 0x40 apart agree in their low six bits, which are all that is kept. -/
theorem addressByteKeepsSixBits : Obligations.AddressByteKeepsSixBits := by
  unfold Obligations.AddressByteKeepsSixBits
  refine ⟨fun addr => ⟨encAddr_toNat addr, BitVec.eq_of_toNat_eq ?_⟩, by decide, fun c a d => ?_⟩
  · rw [encAddr_toNat, encAddr_toNat, BitVec.toNat_add, BitVec.toNat_ofNat]
    omega
  · simp [writeFrame, readFrame, Frame.bytes, encAddr_frame]

/-! ### Wire frames -/

/-- A write frame's bytes (R90). -/
theorem decode_wire_write (a d : Byte) :
    decode .wire [encAddr a, d] = .ok (.spi2w (a.setWidth 6) d) := by
  simp [decode, decodeWire]

/-- A read frame's bytes, with the table's read flag (R91): the flag is bit 7, outside the address
field. -/
theorem decode_wire_read (a : Byte) :
    decode .wire [encAddr a ||| 0x80#8, 0x00#8] = .ok (.spi2r (a.setWidth 6)) := by
  have hfield : wireAddr (encAddr a ||| 0x80#8) = a.setWidth 6 := by
    rw [← wireAddr_encAddr a]
    simp [wireAddr, BitVec.extractLsb'_or]
  simp [decode, decodeWire, hfield]

/-- A frame's bytes decode to its instruction, where the read flag is the table's (R90 to R92). -/
theorem decode_frame_bytes {c : Cfg} (hrd : c.rdFlag = 0x80#8) (f : Frame) :
    decode .wire (f.bytes c) = .ok f.instr := by
  cases f with
  | write a d => simpa [Frame.bytes, Frame.instr] using decode_wire_write (a.setWidth 8) d
  | read a => simpa [Frame.bytes, Frame.instr, hrd] using decode_wire_read (a.setWidth 8)
  | release => rfl

/-- Settles O5: the write, the read and the release frame in turn. -/
theorem wireFrameBytesDecode : Obligations.WireFrameBytesDecode :=
  fun _ f hrd => decode_frame_bytes hrd f

/-- The encoder writes a wire frame as a phase sends it, with the table's read flag. -/
theorem encode_frame_instr {c : Cfg} (hrd : c.rdFlag = 0x80#8) (f : Frame) :
    encode f.instr = f.bytes c := by
  cases f <;> simp [encode, Frame.instr, Frame.bytes, hrd]

/-! ### Decoding undoes encoding -/

/-- The decoder of its port reads a well-formed instruction's encoding as that instruction. -/
theorem decode_encode {i : Instr} (hwf : i.wf = true) : decode i.port (encode i) = .ok i := by
  cases hp : i.port with
  | request => exact decode_encode_request hwf hp
  | wire =>
    obtain ⟨f, rfl⟩ := Instr.eq_frame hp
    rw [encode_frame_instr (c := Cfg.ref) rfl]
    exact decode_frame_bytes rfl f

/-- Settles O1: a host operation at the request port, a wire frame as a phase sends it. -/
theorem decodeOfEncode : Obligations.DecodeOfEncode :=
  fun _ hwf => decode_encode hwf

/-- Bytes that are an instruction's encoding, at its port. -/
theorem decode_of_encode {p : Port} {bytes : List Byte} {i : Instr} (hwf : i.wf = true)
    (hp : p = i.port) (hb : bytes = encode i) : decode p bytes = .ok i := by
  rw [hp, hb, decode_encode hwf]

/-- A table word whose bytes are an instruction's encoding stands for that instruction. -/
theorem decodeTableWord_of_encode {nbits w : Nat} {i : Instr} (hwf : i.wf = true)
    (hp : tablePort nbits = i.port) (hb : tableBytes nbits w = encode i) :
    decodeTableWord nbits w = some i := by
  rw [decodeTableWord, decode_of_encode hwf hp hb]

/-- Settles O3: each word is the encoding of what it stands for. -/
theorem specWordsDecode : Obligations.SpecWordsDecode := by
  unfold Obligations.SpecWordsDecode
  refine ⟨?_, ?_, ?_, decode_of_encode rfl rfl (by decide), decode_of_encode rfl rfl (by decide),
    ?_, ?_, ?_⟩
  all_goals exact decodeTableWord_of_encode rfl rfl (by decide)

/-! ### The rows of the opcode table -/

/-- Two words are equal exactly where their bytes are. -/
theorem word_eq_iff {u w : Word} :
    u = w ↔ u.extractLsb' 24 8 = w.extractLsb' 24 8 ∧ u.extractLsb' 16 8 = w.extractLsb' 16 8 ∧
      u.extractLsb' 8 8 = w.extractLsb' 8 8 ∧ u.extractLsb' 0 8 = w.extractLsb' 0 8 := by
  constructor
  · rintro rfl
    exact ⟨rfl, rfl, rfl, rfl⟩
  · rintro ⟨h3, h2, h1, h0⟩
    rw [← wordOfBytes_bytes u, h3, h2, h1, h0, wordOfBytes_bytes]

/-- The bytes of a header word are `OP`, `A`, `B` and `LEN` (R94). -/
theorem header_bytes (op a b len : Byte) :
    (op ++ a ++ b ++ len).extractLsb' 24 8 = op ∧ (op ++ a ++ b ++ len).extractLsb' 16 8 = a ∧
      (op ++ a ++ b ++ len).extractLsb' 8 8 = b ∧ (op ++ a ++ b ++ len).extractLsb' 0 8 = len := by
  refine ⟨?_, ?_, ?_, ?_⟩
  · exact (BitVec.extractLsb'_append_eq_of_le (by decide)).trans
      ((BitVec.extractLsb'_append_eq_of_le (by decide)).trans BitVec.extractLsb'_append_eq_left)
  · exact (BitVec.extractLsb'_append_eq_of_le (by decide)).trans
      ((BitVec.extractLsb'_append_eq_of_le (by decide)).trans BitVec.extractLsb'_append_eq_right)
  · exact (BitVec.extractLsb'_append_eq_of_le (by decide)).trans BitVec.extractLsb'_append_eq_right
  · exact BitVec.extractLsb'_append_eq_right

/-- R97's eleven rows as conditions on the header's bytes: the must-be-zero fields and the range of
`LEN`. -/
def LegalHeader (op a b : Byte) (len : Nat) : Prop :=
  (op = 0x01#8 ∧ a = 0#8 ∧ b = 0#8 ∧ 4 ≤ len) ∨ (op = 0x02#8 ∧ a = 0#8 ∧ b = 0#8 ∧ len = 0) ∨
  (op = 0x03#8 ∧ a = 0#8 ∧ b = 0#8 ∧ len = 0) ∨ (op = 0x04#8 ∧ a = 0#8 ∧ b = 0#8) ∨
  (op = 0x10#8 ∧ len = 0) ∨ (op = 0x11#8 ∧ b = 0#8 ∧ len = 0) ∨ (op = 0x12#8 ∧ len = 0) ∨
  (op = 0x13#8 ∧ len = 0) ∨ (op = 0x20#8 ∧ a = 0#8) ∨ (op = 0x30#8 ∧ a = 0#8 ∧ len = 0) ∨
  (op = 0x31#8 ∧ a = 0#8 ∧ b = 0#8 ∧ len = 0)

/-- The rows' matches and masks say what R97 says of the bytes. -/
theorem row_selects_iff {op a b len : Byte} :
    (∃ r ∈ requestRows, r.selects (op ++ a ++ b ++ len) = true) ↔ LegalHeader op a b len.toNat := by
  obtain ⟨hop, ha, hb, hlen⟩ := header_bytes op a b len
  have hones : ∀ x : Byte, x &&& 0xFF#8 = x := fun _ => BitVec.and_allOnes
  have hzero : len = 0#8 ↔ len.toNat = 0 := by simp [← BitVec.toNat_inj]
  simp [requestRows, RequestRow.selects, word_eq_iff, BitVec.extractLsb'_and, hop, ha, hb, hlen, hones,
    hzero, LegalHeader, and_assoc]

/-- A check of the decoder lets through what does not fail it. -/
theorem guarded_ok_iff {p : Prop} [Decidable p] {e : DecodeError} {r : Except DecodeError Instr} :
    (∃ i, (if p then .error e else r) = .ok i) ↔ ¬ p ∧ ∃ i, r = .ok i := by
  by_cases hp : p <;> simp [hp]

/-- The decoder accepts the headers that R97 has legal (R101). -/
theorem decodeHeader_ok_iff {op a b : Byte} {payload : List Byte} :
    (∃ i, decodeHeader op a b payload = .ok i) ↔ LegalHeader op a b payload.length := by
  have hop : ∀ v : Byte, op = v ↔ op.toNat = v.toNat := fun _ => BitVec.toNat_inj.symm
  unfold decodeHeader LegalHeader
  split <;> simp only [guarded_ok_iff, hop]
  case h_1 =>
    split
    · simp [*]
    · rename_i hshort
      rcases payload with _ | ⟨b3, _ | ⟨b2, _ | ⟨b1, _ | ⟨b0, tl⟩⟩⟩⟩
      case cons.cons.cons.cons => exact absurd rfl (hshort b3 b2 b1 b0 tl)
      all_goals simp [*]
  case h_12 =>
    simp only [reduceCtorEq, exists_false, false_iff]
    tauto
  all_goals simp [*, and_assoc]

/-- Settles O2: the decoder and the rows have the same headers legal. -/
theorem legalHeaderIffRowSelects : Obligations.LegalHeaderIffRowSelects := by
  unfold Obligations.LegalHeaderIffRowSelects
  intro op a b payload hlen
  have hlt : payload.length < 256 := Nat.lt_succ_of_le hlen
  rw [decode_requestFrame hlen, decodeHeader_ok_iff, row_selects_iff, BitVec.toNat_ofNat,
    Nat.mod_eq_of_lt hlt]

/-! ### An illegal request -/

/-- A request frame that is all there is taken from the port (R94). -/
theorem takeFrame_whole {op a b len : Byte} {tl : List Byte} (h : len.toNat ≤ tl.length) :
    takeFrame (op :: a :: b :: len :: tl) =
      some (requestFrame op a b (tl.take len.toNat), tl.drop len.toNat) := by
  simp [takeFrame, requestFrame, h]

/-- A frame whose header no row selects decodes to nothing (R97, R101). -/
theorem decode_unselected {op a b len : Byte} {payload : List Byte}
    (hlen : payload.length = len.toNat)
    (hrow : ∀ r ∈ requestRows, r.selects (op ++ a ++ b ++ len) = false) :
    ∃ e, decode .request (requestFrame op a b payload) = .error e := by
  have hfits : payload.length ≤ payloadMax := hlen ▸ Nat.le_of_lt_succ len.isLt
  cases hd : decode .request (requestFrame op a b payload) with
  | error e => exact ⟨e, rfl⟩
  | ok i =>
    rw [decode_requestFrame hfits] at hd
    have hlegal := decodeHeader_ok_iff.1 ⟨i, hd⟩
    rw [hlen, ← row_selects_iff] at hlegal
    obtain ⟨r, hr, hsel⟩ := hlegal
    simp [hrow r hr] at hsel

/-- A ready sequencer answers a frame that decodes to nothing with `BadRequest` (R101). -/
theorem step_illegal {s : State} {frame rest : List Byte} {e : DecodeError} (hc : s.cfg.wf = true)
    (hr : s.pc = .ready) (ht : takeFrame s.reqIn = some (frame, rest))
    (hd : decode .request frame = .error e) : step s = (s.setPort rest).badRequest := by
  rw [step, if_neg (by simp [hc]), if_pos hr]
  simp only [ht, hd]

/-- What a hand-over clears is clear in a ready state of the invariant (R23, R26). -/
theorem Inv.ready_clear {s : State} (hi : Inv s) (hr : s.pc = .ready) :
    { s with pc := .ready, adv := false, x := Work.blank } = s := by
  have hx : s.x = Work.blank := by simpa [hr, PhaseInv] using hi.phase
  rw [← hr, ← hi.idle hr, ← hx]

/-- The refusal of an illegal request is a frame at the response port and nothing else (R101). -/
theorem State.badRequest_eq {s : State} (hi : Inv s) (hr : s.pc = .ready) :
    s.badRequest = .next { s with rspOut := s.rspOut ++ [plainRsp 0x04#8 0x00#8 0x00#8] } := by
  have hphase := phases_abort (s := (s.beginOp none).raise .badRequest false) rfl rfl rfl
  have hframe : ((s.beginOp none).raise .badRequest false).errorFrame =
      plainRsp 0x04#8 0x00#8 0x00#8 := by
    simp [State.errorFrame, rspFrame_filled, Res.code]
  rw [State.badRequest, State.runOp, hphase.runFor rfl (by unfold phaseBound; omega), hframe]
  conv_rhs => rw [← hi.ready_clear hr]
  rfl

/-- Settles O9: no row selects the header, so the decoder has nothing for the frame. -/
theorem illegalRequestRefused : Obligations.IllegalRequestRefused := by
  unfold Obligations.IllegalRequestRefused
  refine ⟨fun s op a b len tl hi hr hreq hlen hrow => ?_,
    fun a d => ⟨decode_wire_write a d, decode_wire_read a⟩⟩
  obtain ⟨e, hd⟩ := decode_unselected (List.length_take_of_le hlen) hrow
  have ht := takeFrame_whole (op := op) (a := a) (b := b) hlen
  rw [← hreq] at ht
  rw [step_illegal hi.cfg hr ht hd,
    State.badRequest_eq (s := s.setPort (tl.drop len.toNat)) (hi.setPort _) hr]
  rfl

end Sys2Proof.Machine
end

section
/-!
PROOFS. The family of spec/30_encoding.md: the wire frames as instructions (O49, O50, O51), and the masks
of the command classes (O32).
-/
namespace Sys2Proof.Machine

/-! ### A wire frame as an instruction -/

/-- The instruction of a frame that is due, in a state of the invariant, is one transfer and what the
phase does with its answer (R25, R194). -/
theorem exec_answered {s : State} {f : Frame} (hi : Inv s) (hfair : s.env.fair = true)
    (hf : s.frameDue = some f) : ∃ ans t, s.call (.xfer (f.bytes s.cfg)) = some (ans, t) ∧
      t.pc = s.pc ∧ t.x = s.x ∧ exec f.instr s = .next (f.answered ans t) := by
  obtain ⟨ans, t, hcall, -⟩ := State.call_fair hfair (.xfer (f.bytes s.cfg))
  obtain ⟨-, hpc, -, -, -, -, hx, -⟩ := State.call_keeps hcall
  refine ⟨ans, t, hcall, hpc, hx, ?_⟩
  rw [exec_frameDue hf, State.tick_frameDue hf, State.issue_answered
    (State.opened_of_frame hi.phase hf) (State.holds_of_phase hi.phase) hcall]

/-- The instruction of a frame that is not due faults (log 19). -/
theorem exec_notDue {s : State} {f : Frame} (hf : s.frameDue ≠ some f) :
    exec f.instr s = .fault .frameNotDue := by
  cases f <;> exact if_pos hf

/-! ### Only a bad answer aborts -/

theorem State.engineEnd_pc_ne_abort (s : State) : s.engineEnd.pc ≠ .abort := by
  unfold State.engineEnd
  split <;> simp

theorem State.engineFail_pc_ne_abort (s : State) : s.engineFail.pc ≠ .abort :=
  State.engineEnd_pc_ne_abort _

/-- A write answered `Ok` does not lead to `P_ABORT` (R156). -/
theorem State.afterWrite_pc_ne_abort {s : State} (h : s.pc ≠ .abort) :
    s.afterWrite.pc ≠ .abort := by
  unfold State.afterWrite
  split
  case h_7 | h_8 => dsimp only; split <;> simp
  case h_9 => split <;> nofun
  case h_11 =>
    split
    · exact State.engineFail_pc_ne_abort s
    · nofun
  case h_12 => exact h
  all_goals nofun

/-- A read that has its byte does not lead to `P_ABORT` (R156). -/
theorem State.afterRead_pc_ne_abort {s : State} (h : s.pc ≠ .abort) (e : Byte) :
    (s.afterRead e).pc ≠ .abort := by
  unfold State.afterRead
  split
  case h_7 =>
    unfold State.polled
    split
    · nofun
    · dsimp only
      split <;> nofun
  case h_8 =>
    unfold State.errorRead
    dsimp only
    split
    · exact State.engineFail_pc_ne_abort _
    · split
      · nofun
      · exact State.engineEnd_pc_ne_abort _
  case h_11 =>
    unfold State.drained
    dsimp only
    split
    · nofun
    · exact State.engineEnd_pc_ne_abort _
  case h_12 => exact h
  all_goals nofun

/-- A phase with a frame is not `P_ABORT` (R25). -/
theorem State.frameDue_ne_abort {s : State} {f : Frame} (hf : s.frameDue = some f) :
    s.pc ≠ .abort := by
  intro h
  simp [State.frameDue, h, frameOf] at hf

/-- What follows a write's answer: registers and phase change, to `P_ABORT` where the call failed. -/
theorem State.writeAnswered_abort {s : State} (hr : s.pc ≠ .ready) (ha : s.pc ≠ .abort)
    (ans : Answer) : ∃ p x, State.writeAnswered ans s = { s with pc := p, x := x } ∧
      (p = .abort ↔ ans = .fail) := by
  obtain ⟨p, x, heq, -⟩ := State.writeAnswered_regsOnly hr ans
  refine ⟨p, x, heq, ?_⟩
  have hp : (State.writeAnswered ans s).pc = p := by rw [heq]
  rw [← hp]
  cases ans with
  | ok bytes => simpa [State.writeAnswered] using State.afterWrite_pc_ne_abort ha
  | fail => simp [State.writeAnswered]

/-- Settles O49: what follows the one call is `State.writeAnswered`. -/
theorem writeFrameTransfers : Obligations.WriteFrameTransfers := by
  unfold Obligations.WriteFrameTransfers
  intro s a d
  refine ⟨fun hi hfair hf => ?_, exec_notDue (f := .write a d)⟩
  obtain ⟨ans, t, hcall, hpc, -, hexec⟩ := exec_answered hi hfair hf
  obtain ⟨p, x, heq, hp⟩ := State.writeAnswered_abort (hpc ▸ State.frameDue_ne_ready hf)
    (hpc ▸ State.frameDue_ne_abort hf) ans
  exact ⟨ans, t, p, x, hcall, hexec.trans (congrArg _ heq), hp⟩

/-- What follows a read's answer, but for a tolerated failure: registers and phase change, to `P_ABORT`
where the answer has no value (R121, R155). -/
theorem State.readAnswered_abort {s : State} (hr : s.pc ≠ .ready) (ha : s.pc ≠ .abort) {ans : Answer}
    (ht : ¬ (readValue ans = none ∧ s.pc.tolerant = true)) :
    ∃ p x, (p = .abort ↔ readValue ans = none) ∧
      State.readAnswered ans s = { s with pc := p, x := x } := by
  unfold State.readAnswered
  cases hv : readValue ans with
  | some e =>
    obtain ⟨p, x, heq, -⟩ := State.afterRead_regsOnly hr e
    have hp : (s.afterRead e).pc = p := by rw [heq]
    exact ⟨p, x, by simp [← hp, State.afterRead_pc_ne_abort ha e], heq⟩
  | none =>
    have htol : s.pc.tolerant = false := by simpa [hv] using ht
    simp only [htol, Bool.false_eq_true, if_false]
    exact ⟨_, _, by simp, rfl⟩

/-- The write of its sequence that a tolerant read goes on to (R124, R156). -/
theorem Phase.tolerant_next {p : Phase} (h : p.tolerant = true) :
    ∃ next, next ≠ .abort ∧ (p, next) ∈ [(Phase.rmwRd, Phase.rmwWr), (.armIrqRd, .armIrqWr),
      (.armFlushRd, .armFlushWr), (.startRd, .startWr), (.stopRd, .stopWr)] := by
  rw [Phase.tolerant_iff] at h
  simp only [List.mem_cons, List.not_mem_nil, or_false] at h
  rcases h with rfl | rfl | rfl | rfl | rfl <;> simp

/-- What follows a tolerated failure: a drawn byte in `x[tmp]`, the advisory flag, and the write of the
sequence (R124). -/
theorem State.readAnswered_tolerated {s : State} {ans : Answer} (hv : readValue ans = none)
    (ht : s.pc.tolerant = true) : ∃ p, p ≠ .abort ∧ State.readAnswered ans s =
      { s with
        pc := p, adv := true, draws := s.draws + 1
        x := { s.x with tmp := some (Config.freeByte s.draws) } } := by
  obtain ⟨next, hne, hnext⟩ := Phase.tolerant_next ht
  obtain ⟨-, hgo⟩ := State.afterRead_tolerant (s := s.advise.afterDraw) hnext s.drawn
  refine ⟨next, hne, ?_⟩
  simp only [State.readAnswered, hv, ht, if_true, hgo]
  rfl

/-- Settles O50: a read fails where its answer has no value, and is tolerated in the tolerant phases. -/
theorem readFrameTransfers : Obligations.ReadFrameTransfers := by
  unfold Obligations.ReadFrameTransfers
  intro s a
  refine ⟨fun hi hfair hf => ?_, exec_notDue (f := .read a)⟩
  obtain ⟨ans, t, hcall, hpc, hx, hexec⟩ := exec_answered hi hfair hf
  refine ⟨ans, t, hcall, ?_⟩
  rw [← readValue_eq_none, ← Phase.tolerant_iff, ← hpc, ← hx]
  refine ⟨fun ⟨hv, ht⟩ => ?tolerated, fun ht => ?other⟩
  case tolerated =>
    obtain ⟨p, hp, heq⟩ := State.readAnswered_tolerated hv ht
    exact ⟨p, hp, hexec.trans (congrArg _ heq)⟩
  case other =>
    obtain ⟨p, x, hp, heq⟩ := State.readAnswered_abort (hpc ▸ State.frameDue_ne_ready hf)
      (hpc ▸ State.frameDue_ne_abort hf) ht
    exact ⟨p, x, hp, hexec.trans (congrArg _ heq)⟩

/-- Settles O51: what follows the one call is `State.releaseAnswered`. -/
theorem releaseFrameTransfers : Obligations.ReleaseFrameTransfers := by
  unfold Obligations.ReleaseFrameTransfers
  intro s
  refine ⟨fun hi hfair hf => ?_, exec_notDue (f := .release)⟩
  obtain ⟨ans, t, hcall, -, hx, hexec⟩ := exec_answered hi hfair hf
  refine ⟨ans, t, hcall, ?_⟩
  rw [← hx]
  exact hexec

/-! ### The command classes -/

theorem isAuth_iff (c : Cfg) (cmd : Byte) : isAuth c cmd = true ↔ cmd = c.cmdAuthent := by
  simp [isAuth]

/-- Settles O32: the masks ask for the class alone. -/
theorem commandClassMasks : Obligations.CommandClassMasks := by
  unfold Obligations.CommandClassMasks
  intro c cmd
  simp only [irqEnOf, waitIrqOf, isAuth_iff, isTrx_iff, and_self]

end Sys2Proof.Machine
end

section
/-!
PROOFS. The family of spec/40_register_access.md: the operations that take a register address (O25, O26,
O27, O28), their refusal on a closed bus (O23), and a register read back from the replay mock (O30).
-/
namespace Sys2Proof.Machine

/-! ### The state of a running operation -/

/-- The sequencer inside an operation: phase, advisory flag and registers are the operation's, all the
rest is as in `s` (R23, R29). -/
def State.running (s : State) (adv : Bool) (p : Phase) (x : Work) : State :=
  { s with pc := p, adv := adv, x := x }

/-- A transport call does not depend on what is the operation's (R60). -/
theorem State.call_running {s t : State} {c : Call} {ans : Answer} (h : s.call c = some (ans, t))
    (adv : Bool) (p : Phase) (x : Work) :
    (s.running adv p x).call c = some (ans, t.running adv p x) := by
  obtain ⟨env, draws, he, rfl⟩ := State.call_some h
  simp only [State.call, State.running, he]

/-- The registers of an operation that takes a register address, as they are on acceptance (R95). -/
def Work.operands (op : Op) (a : Byte) (v : Option Byte) : Work :=
  { Work.blank with op := some op, a := some a, v := v }

/-- Phases that lead from an operation's first phase to `P_READY` are all that it does; the bound of a
run leaves room for them (R11, R157). -/
theorem Phases.exec {n : Nat} {s t : State} {i : Instr} (h : Phases n (s.begun i) t)
    (hp : i.port = .request) (hr : s.pc = .ready) (ht : t.pc = .ready) (hn : n ≤ payloadMax) :
    exec i s = .next t := by
  rw [exec_eq_runOp hp, if_pos hr]
  exact h.runFor ht (by unfold phaseBound; omega)

/-! ### The phases of a register access -/

theorem writeFrame_bytes (c : Cfg) (a d : Byte) : (writeFrame a d).bytes c = [encAddr a, d] :=
  (addressByteKeepsSixBits.2.2 c a d).1

theorem readFrame_bytes (c : Cfg) (a : Byte) :
    (readFrame a).bytes c = [encAddr a ||| c.rdFlag, 0x00#8] :=
  (addressByteKeepsSixBits.2.2 c a 0x00#8).2

section
variable {s t : State} {adv : Bool} {p : Phase} {x : Work} {ans : Answer}

/-- A phase whose frame is answered. -/
theorem phases_frame {f : Frame} (ho : s.opened = true) (hh : x.holds s.cfg p = true)
    (hf : frameOf s.cfg x p = some f) (h : s.call (.xfer (f.bytes s.cfg)) = some (ans, t)) :
    Phases 1 (s.running adv p x) (f.answered ans (t.running adv p x)) := by
  have hdue : (s.running adv p x).frameDue = some f := hf
  refine .one (State.frameDue_ne_ready hdue) ?_
  rw [State.tick_frameDue hdue]
  exact State.issue_answered ho hh (State.call_running h adv p x)

/-- A read phase, whose continuation depends on the answer (R121, R124). -/
theorem phases_read {a : Byte} (ho : s.opened = true) (hh : x.holds s.cfg p = true)
    (hf : frameOf s.cfg x p = some (readFrame a))
    (h : s.call (.xfer [encAddr a ||| s.cfg.rdFlag, 0x00#8]) = some (ans, t)) :
    Phases 1 (s.running adv p x) (State.readAnswered ans (t.running adv p x)) := by
  rw [← readFrame_bytes] at h
  exact phases_frame ho hh hf h

/-- `P_DONE` hands over a response without the engine's triple (R96). -/
theorem phases_finish {r : Res} {flags val : Byte} (hop : s.x.op.isSome = true)
    (ht : returnsTriple s.x.op = false)
    (hv : if returnsVal s.x.op then s.x.val = some val else val = 0x00#8)
    (hflags : flagsByte s.adv false = flags) :
    Phases 1 (s.finish r) (s.ended (plainRsp r.code flags val)) := by
  subst hflags
  have hh : (s.finish r).x.holds s.cfg .done = true := by
    cases h : returnsVal s.x.op <;> simp_all [Work.holds]
  have hframe : (s.finish r).resultFrame = plainRsp r.code (flagsByte s.adv false) val := by
    cases h : returnsVal s.x.op <;> simp_all [State.resultFrame, rspFrame_filled]
  rw [← hframe]
  exact phases_done rfl hh

/-- `P_ABORT` hands over the error (R213). -/
theorem phases_raise {e : Res} {short : Bool} {flags : Byte}
    (hflags : flagsByte s.adv short = flags) :
    Phases 1 (s.raise e short) (s.ended (plainRsp e.code flags 0x00#8)) :=
  hflags ▸ phases_abort rfl rfl rfl

/-- The write phase in which WRREG, SETBITS and CLRBITS end: the answer decides the result, whatever the
echo (R72, R120). -/
theorem phases_lastWrite {a d flags : Byte} (hp : p = .wr ∨ p = .rmwWr) (ho : s.opened = true)
    (hh : x.holds s.cfg p = true) (hop : x.op.isSome = true) (ht : returnsTriple x.op = false)
    (hv : returnsVal x.op = false) (hf : frameOf s.cfg x p = some (writeFrame a d))
    (h : s.call (.xfer [encAddr a, d]) = some (ans, t)) (hflags : flagsByte adv false = flags) :
    Phases 2 (s.running adv p x)
      (t.ended (plainRsp (if ans = .fail then 0x01#8 else 0x00#8) flags 0x00#8)) := by
  rw [← writeFrame_bytes s.cfg] at h
  refine (phases_frame ho hh hf h).trans (n := 1) ?_
  cases ans with
  | ok bytes =>
    have hfinish : (t.running adv p x).afterWrite = (t.running adv p x).finish .success := by
      rcases hp with rfl | rfl <;> rfl
    have hend := phases_finish (s := t.running adv p x) (r := .success) (val := 0x00#8) hop ht
      (by simp [State.running, hv]) hflags
    rwa [← hfinish] at hend
  | fail => exact phases_raise hflags

end

/-! ### On a closed bus -/

/-- R125: an operation that is refused for want of an open bus leaves its response and no more. -/
theorem exec_notCaptured {s : State} {i : Instr} (hp : i.port = .request) (hr : s.pc = .ready)
    (hb : s.begun i = (s.beginOp (opOf i)).raise .notCaptured false) :
    exec i s = .next (s.ended (plainRsp 0x02#8 0x00#8 0x00#8)) := by
  have hrun := phases_raise (s := s.beginOp (opOf i)) (e := .notCaptured) (flagsByte_false false)
  rw [← hb] at hrun
  exact hrun.exec hp hr rfl (by decide)

/-- In a ready state of the invariant, an operation that has ended has left its response and no other
mark. -/
theorem Inv.ended_eq {s : State} (hi : Inv s) (hr : s.pc = .ready) (frame : List Byte) :
    s.ended frame = { s with rspOut := s.rspOut ++ [frame] } :=
  congrArg (fun u : State => { u with rspOut := s.rspOut ++ [frame] }) (hi.ready_clear hr)

/-- Settles O23: each of the six enters `P_ABORT` by `State.needBus`. -/
theorem notCapturedOnClosedBus : Obligations.NotCapturedOnClosedBus := by
  unfold Obligations.NotCapturedOnClosedBus
  intro s i hi hr ho hop
  rw [← hi.ended_eq hr]
  rcases hop with ⟨a, v, rfl⟩ | ⟨a, rfl⟩ | ⟨a, m, rfl⟩ | ⟨a, m, rfl⟩ | ⟨c, p, rfl⟩ | ⟨m, rfl⟩ <;>
    exact exec_notCaptured rfl hr (if_neg (by simp [ho]))

/-! ### One transfer -/

/-- Settles O25: the run is `P_WR` and the hand-over. -/
theorem wrregWritesRegister : Obligations.WrregWritesRegister := by
  unfold Obligations.WrregWritesRegister
  intro s addr value hr
  refine ⟨fun ho => exec_notCaptured rfl hr (if_neg (by simp [ho])), fun t ans ho h => ?_⟩
  have hb : s.begun (.wrreg addr value) =
      s.running false .wr (Work.operands .wrreg addr (some value)) := if_pos ho
  have hrun := phases_lastWrite (adv := false) (x := Work.operands .wrreg addr (some value))
    (.inl rfl) ho rfl rfl rfl rfl rfl h (flagsByte_false false)
  exact (hb ▸ hrun).exec rfl hr rfl (by decide)

/-- RDREG on an open bus is `P_RD` and what follows its answer. -/
theorem exec_rdreg {s t u : State} {addr : Byte} {ans : Answer} (hr : s.pc = .ready)
    (ho : s.opened = true)
    (h : s.call (.xfer [encAddr addr ||| s.cfg.rdFlag, 0x00#8]) = some (ans, t))
    (hu : Phases 1 (State.readAnswered ans (t.running false .rd (Work.operands .rdreg addr none))) u)
    (hready : u.pc = .ready) : exec (.rdreg addr) s = .next u := by
  have hb : s.begun (.rdreg addr) =
      s.running false .rd (Work.operands .rdreg addr none) := if_pos ho
  have hread := phases_read (adv := false) (p := .rd) (x := Work.operands .rdreg addr none)
    ho rfl rfl h
  exact (hb ▸ hread.trans hu).exec rfl hr hready (by decide)

/-- Settles O26: the three answers lead to `P_DONE` with the value, or to `P_ABORT`. -/
theorem rdregReadsRegister : Obligations.RdregReadsRegister := by
  unfold Obligations.RdregReadsRegister
  intro s addr hr
  refine ⟨fun ho => exec_notCaptured rfl hr (if_neg (by simp [ho])), fun t ans ho h => ?_⟩
  have hfails : ∀ flags, flagsByte false (shortEcho ans) = flags → readValue ans = none →
      exec (.rdreg addr) s = .next (t.ended (plainRsp 0x01#8 flags 0x00#8)) := by
    intro flags hflags hv
    refine exec_rdreg hr ho h ?_ rfl
    rw [State.readAnswered, hv]
    exact phases_raise hflags
  refine ⟨?value, ?short, ?fail⟩
  case value =>
    rintro e v rest rfl
    refine exec_rdreg hr ho h ?_ rfl
    exact phases_finish (s := (t.running false .rd (Work.operands .rdreg addr none)).setX
      { Work.operands .rdreg addr none with val := some v }) rfl rfl rfl (flagsByte_false false)
  case short =>
    rintro short rfl hlen
    exact hfails _ (by rw [shortEcho, decide_eq_true hlen]; decide)
      (readValue_eq_none.2 (.inr ⟨short, rfl, hlen⟩))
  case fail =>
    rintro rfl
    exact hfails _ (flagsByte_false false) rfl

/-! ### Read, modify, write -/

/-- SETBITS and CLRBITS from their write phase on: the byte read or drawn is combined with the mask and
written (R122, R123). -/
theorem exec_rmwWrite {s u w : State} {i : Instr} {op : Op} {addr mask e flags : Byte} {adv : Bool}
    {ans : Answer} (hop : op = .setbits ∨ op = .clrbits) (hp : i.port = .request)
    (hr : s.pc = .ready) (ho : u.opened = true)
    (hread : Phases 1 (s.begun i)
      (u.running adv .rmwWr { Work.operands op addr (some mask) with tmp := some e }))
    (h : u.call (.xfer [encAddr addr, rmwByte (some op) e mask]) = some (ans, w))
    (hflags : flagsByte adv false = flags) :
    exec i s = .next
      (w.ended (plainRsp (if ans = .fail then 0x01#8 else 0x00#8) flags 0x00#8)) := by
  obtain ⟨htriple, hval⟩ : returnsTriple (some op) = false ∧ returnsVal (some op) = false := by
    rcases hop with rfl | rfl <;> decide
  have hwrite := phases_lastWrite (adv := adv)
    (x := { Work.operands op addr (some mask) with tmp := some e }) (.inr rfl) ho rfl rfl
    htriple hval rfl h hflags
  exact (hread.trans hwrite).exec hp hr rfl (by decide)

/-- SETBITS and CLRBITS on an open bus: the read with its byte, and the read without one (R122, R123,
R124). -/
theorem exec_rmw {s t u : State} {i : Instr} {op : Op} {addr mask : Byte} {read ans : Answer}
    (hop : op = .setbits ∨ op = .clrbits) (hp : i.port = .request) (hr : s.pc = .ready)
    (ho : s.opened = true)
    (hb : s.begun i = s.running false .rmwRd (Work.operands op addr (some mask)))
    (h : s.call (.xfer [encAddr addr ||| s.cfg.rdFlag, 0x00#8]) = some (read, t)) :
    (∀ e old rest, read = .ok (e :: old :: rest) →
      t.call (.xfer [encAddr addr, rmwByte (some op) old mask]) = some (ans, u) →
      exec i s = .next
        (u.ended (plainRsp (if ans = .fail then 0x01#8 else 0x00#8) 0x00#8 0x00#8))) ∧
    ((read = .fail ∨ ∃ short, read = .ok short ∧ short.length < 2) →
      t.afterDraw.call (.xfer [encAddr addr, rmwByte (some op) (Config.freeByte t.draws) mask]) =
        some (ans, u) →
      exec i s = .next
        (u.ended (plainRsp (if ans = .fail then 0x01#8 else 0x00#8) 0x01#8 0x00#8))) := by
  have hot : t.opened = true := (State.call_keeps h).2.2.1.trans ho
  have hread := phases_read (adv := false) (p := .rmwRd)
    (x := Work.operands op addr (some mask)) ho rfl rfl h
  rw [← hb] at hread
  refine ⟨?read, fun hbad hw => ?drawn⟩
  case read =>
    rintro e old rest rfl hw
    exact exec_rmwWrite hop hp hr hot hread hw (flagsByte_false false)
  case drawn =>
    rw [State.readAnswered, readValue_eq_none.2 hbad] at hread
    exact exec_rmwWrite (u := t.afterDraw) hop hp hr hot hread hw (flagsByte_false true)

/-- Settles O27: the byte SETBITS writes is `rmwByte`'s or. -/
theorem setbitsWritesOr : Obligations.SetbitsWritesOr := by
  unfold Obligations.SetbitsWritesOr
  intro s addr mask hr
  exact ⟨fun ho => exec_notCaptured rfl hr (if_neg (by simp [ho])),
    fun t u read ans ho h => exec_rmw (.inl rfl) rfl hr ho (if_pos ho) h⟩

/-- Settles O28: the byte CLRBITS writes is `rmwByte`'s and with the complement. -/
theorem clrbitsWritesAndNot : Obligations.ClrbitsWritesAndNot := by
  unfold Obligations.ClrbitsWritesAndNot
  intro s addr mask hr
  exact ⟨fun ho => exec_notCaptured rfl hr (if_neg (by simp [ho])),
    fun t u read ans ho h => exec_rmw (.inr rfl) rfl hr ho (if_pos ho) h⟩

/-! ### The replay mock -/

/-- The bus is open to the replay mock with the cells `m`, and the read flag is the one the mock knows
(R78). -/
structure OnReplayMock (s : State) (m : Memory) : Prop where
  opened : s.opened = true
  env    : s.env = .replay m
  cells  : m.wf = true
  rdFlag : s.cfg.rdFlag = 0x80#8

theorem OnReplayMock.ended {s : State} {m : Memory} (h : OnReplayMock s m) (frame : List Byte) :
    OnReplayMock (s.ended frame) m :=
  ⟨h.opened, h.env, h.cells, h.rdFlag⟩

/-- A call that the mock answers leaves its cells in the state. -/
theorem OnReplayMock.call {s : State} {m m' : Memory} {d : Nat} {c : Call} {ans : Answer}
    (h : OnReplayMock s m) (hw : m'.wf = true)
    (ha : (Env.replay m).answer s.draws c = some (ans, .replay m', d)) :
    ∃ t, s.call c = some (ans, t) ∧ OnReplayMock t m' := by
  refine ⟨{ s with env := .replay m', draws := d, calls := s.calls ++ [(c, ans)] }, ?_,
    h.opened, rfl, hw, h.rdFlag⟩
  simp only [State.call, h.env, ha]

theorem encAddr_cell (a : Byte) : ((encAddr a).extractLsb' 1 6).toNat = a.toNat % 64 := by
  change (wireAddr (encAddr a)).toNat = _
  simp

/-- A write transfer stores at the address's cell. -/
theorem OnReplayMock.call_write {s : State} {m : Memory} (h : OnReplayMock s m) (a v : Byte) :
    ∃ bytes t m', s.call (.xfer [encAddr a, v]) = some (.ok bytes, t) ∧ OnReplayMock t m' ∧
      m'.read (a.toNat % 64) = v := by
  obtain ⟨e, e', m', d', ha, hw, hread⟩ :=
    (replayMockAnswers m s.draws (encAddr a) v h.cells).1 (by simp)
  obtain ⟨t, hcall, ht⟩ := h.call hw ha
  exact ⟨_, t, m', hcall, ht, by rw [hread, encAddr_cell, if_pos rfl]⟩

/-- A read transfer echoes the address's cell. -/
theorem OnReplayMock.call_read {s : State} {m : Memory} (h : OnReplayMock s m) (a : Byte) :
    ∃ e t, s.call (.xfer [encAddr a ||| s.cfg.rdFlag, 0x00#8]) =
      some (.ok [e, m.read (a.toNat % 64)], t) ∧ OnReplayMock t m := by
  obtain ⟨e, d', ha⟩ :=
    (replayMockAnswers m s.draws (encAddr a ||| 0x80#8) 0x00#8 h.cells).2 (by simp)
  have hcell : (encAddr a ||| 0x80#8).extractLsb' 1 6 = (encAddr a).extractLsb' 1 6 := by
    rw [BitVec.extractLsb'_or]
    simp
  rw [hcell, encAddr_cell] at ha
  obtain ⟨t, hcall, ht⟩ := h.call h.cells ha
  exact ⟨e, t, by rwa [h.rdFlag], ht⟩

/-- After an operation that has ended on the mock, RDREG answers with the address's cell. -/
theorem OnReplayMock.readBack {s t : State} {m : Memory} {i : Instr} {a v : Byte}
    {frame : List Byte} (h : OnReplayMock t m) (hcell : m.read (a.toNat % 64) = v)
    (hexec : exec i s = .next (t.ended frame)) :
    ∃ t u, exec i s = .next t ∧ exec (.rdreg a) t = .next u ∧
      u.rspOut = t.rspOut ++ [plainRsp 0x00#8 0x00#8 v] := by
  obtain ⟨e, u, hcall, -⟩ := (h.ended frame).call_read a
  rw [hcell] at hcall
  obtain ⟨-, -, -, -, -, -, -, -, hout, -⟩ := State.call_keeps hcall
  have hread := ((rdregReadsRegister (t.ended frame) a rfl).2 u _ h.opened hcall).1 e v [] rfl
  exact ⟨_, _, hexec, hread, by rw [← hout]; rfl⟩

/-- Settles O30: the last transfer of each operation stores the byte that RDREG then reads. -/
theorem replayMockReadsBack : Obligations.ReplayMockReadsBack := by
  unfold Obligations.ReplayMockReadsBack
  intro s m a v hr ho he hw hrd
  have hs : OnReplayMock s m := ⟨ho, he, hw, hrd⟩
  obtain ⟨e, t, hread, ht⟩ := hs.call_read a
  refine ⟨?wrreg, ?setbits, ?clrbits⟩
  case wrreg =>
    obtain ⟨bytes, u, m', hwrite, hu, hcell⟩ := hs.call_write a v
    exact hu.readBack hcell ((wrregWritesRegister s a v hr).2 u _ ho hwrite)
  case setbits =>
    obtain ⟨bytes, u, m', hwrite, hu, hcell⟩ := ht.call_write a (m.read (a.toNat % 64) ||| v)
    exact hu.readBack hcell
      (((setbitsWritesOr s a v hr).2 t u _ _ ho hread).1 e _ [] rfl hwrite)
  case clrbits =>
    obtain ⟨bytes, u, m', hwrite, hu, hcell⟩ := ht.call_write a (m.read (a.toNat % 64) &&& ~~~v)
    exact hu.readBack hcell
      (((clrbitsWritesAndNot s a v hr).2 t u _ _ ho hread).1 e _ [] rfl hwrite)

end Sys2Proof.Machine
end

section
/-!
PROOFS. The family of spec/41_command_engine.md: EXEC is the pseudocode of R140 (O33).
-/
namespace Sys2Proof.Machine
open Pseudocode

theorem lightly_engine (c : Cfg) (cmd : Byte) (payload : List Byte) :
    Lightly (engine c cmd payload) := by
  refine (lightly_memWrite _ _).bind fun _ => (lightly_rmwClr _ _ _).bind fun _ =>
    (lightly_rmwSet _ _ _).bind fun _ => (lightly_memWrite _ _).bind fun _ =>
    (lightly_load _ _).bind fun _ => (lightly_memWrite _ _).bind fun _ =>
    Lightly.bind ?start fun _ => (lightly_poll _ _ _).bind fun seen =>
    (lightly_rmwClr _ _ _).bind fun _ => ?resolve
  case start =>
    split
    · exact lightly_rmwSet _ _ _
    · exact Lightly.pure _
  case resolve =>
    cases seen
    · exact Lightly.pure _
    · exact lightly_resolve _ _ _

/-- An operation whose program leads the FSM to the triple, and its phases from there to the hand-over:
the operation is the program and its response (R11, R140). -/
theorem Leads.exec {n m : Nat} {op : Op} {p : Program Triple} {rsp : End Triple → Bool → List Byte}
    {s : State} {i : Instr} {q : Phase} {y : Work}
    (hl : Leads n p (s.running false q y) (HasTriple op)) (hu : Uniform p)
    (hb : s.begun i = s.running false q y)
    (hend : ∀ {u r}, Ends r u (HasTriple op) →
      ∃ k ≤ m, Phases k u (r.2.handOver (rsp r.1 r.2.adv)))
    (hp : i.port = .request) (hr : s.pc = .ready) (hn : n + m ≤ phaseBound s.cfg) :
    let r := p { s with adv := false }
    exec i s = .next (r.2.ended (rsp r.1 r.2.adv)) := by
  intro r
  have hregs : p (s.running false q y) = (r.1, r.2.regs q y) := hu { s with adv := false } q y
  obtain ⟨k, u, hk, hphases, hends⟩ := hl
  obtain ⟨k', hk', hphases'⟩ := hend hends
  rw [hregs] at hphases'
  rw [exec_eq_runOp hp, if_pos hr, hb]
  exact (hphases.trans hphases').runFor rfl ((Nat.add_le_add hk hk').trans hn)

/-- The registers of EXEC on acceptance: its operands, and the two masks of its command (R95, R98). -/
def Work.execOperands (c : Cfg) (cmd : Byte) (payload : List Byte) : Work :=
  { Work.blank with
    op := some .exec, cmd := some cmd, payload := some payload
    plen := some (BitVec.ofNat 8 payload.length)
    irqEn := some (irqEnOf c cmd), waitIrq := some (waitIrqOf c cmd) }

theorem Work.execOperands_running (c : Cfg) (cmd : Byte) (payload : List Byte) :
    Running c .exec cmd payload (Work.execOperands c cmd payload) :=
  ⟨rfl, rfl, rfl, rfl, rfl, rfl, rfl, rfl⟩

/-- EXEC on an open bus is the program of R140 and its response. -/
theorem exec_eq_engine {s : State} {cmd : Byte} {payload : List Byte} (hr : s.pc = .ready)
    (ho : s.opened = true) (hc : s.cfg.wf = true) (hfair : s.env.fair = true)
    (hlen : payload.length ≤ payloadMax) :
    let r := engine s.cfg cmd payload { s with adv := false }
    exec (.exec cmd payload) s = .next (r.2.ended (execRsp r.1 r.2.adv)) := by
  have hb : s.begun (.exec cmd payload) =
      s.running false .armIen (Work.execOperands s.cfg cmd payload) := if_pos ho
  have hlead := leads_engine (c := s.cfg)
    (s := s.running false .armIen (Work.execOperands s.cfg cmd payload))
    rfl hc ho hfair hlen rfl (Work.execOperands_running s.cfg cmd payload)
  exact hlead.exec (m := 1) (uniform_engine _ _ _) hb (fun h => ⟨1, le_refl 1, exec_end h⟩) rfl hr
    (by unfold phaseBound; omega)

/-- Settles O33: `leads_engine` takes the FSM through the program, `exec_end` hands its end over. -/
theorem execIsThePseudocode : Obligations.ExecIsThePseudocode := by
  unfold Obligations.ExecIsThePseudocode
  intro s cmd payload hr
  exact ⟨fun ho => exec_notCaptured rfl hr (if_neg (by simp [ho])),
    fun ho hc hfair hlen => exec_eq_engine hr ho hc hfair hlen⟩

end Sys2Proof.Machine
end

section
/-!
PROOFS. The family of spec/41_command_engine.md: what the engine's program can return (R149, R164), and
so the responses of EXEC (O35) and, under the literal rule, of EXEC and REQMODE (O36).
-/
namespace Sys2Proof.Machine

open Pseudocode

/-! ### What a program can return -/

namespace Pseudocode

/-- Every value the program returns satisfies `P`, from every state. -/
def Yields {α : Type} (p : Program α) (P : α → Prop) : Prop := ∀ s v, (p s).1 = .value v → P v

theorem Yields.pure {α : Type} {v : α} {P : α → Prop} (h : P v) : Yields (Program.pure v) P := by
  rintro s _ ⟨⟩
  exact h

theorem Yields.bind {α β : Type} {p : Program α} {f : α → Program β} {Q : α → Prop} {P : β → Prop}
    (hp : Yields p Q) (hf : ∀ v, Q v → Yields (f v) P) : Yields (p.bind f) P := by
  intro s w h
  have hq := hp s
  simp only [Program.bind] at h
  rcases hps : p s with ⟨v | b, t⟩ <;> rw [hps] at h hq
  · exact hf v (hq v rfl) t w h
  · cases h

/-- A program of whose value nothing is asked. -/
theorem Yields.bind_any {α β : Type} {p : Program α} {f : α → Program β} {P : β → Prop}
    (hf : ∀ v, Yields (f v) P) : Yields (p.bind f) P :=
  Yields.bind (Q := fun _ => True) (fun _ _ _ => trivial) fun v _ => hf v

/-- The drain returns as many bytes as it was asked for (R152). -/
theorem yields_drain (c : Cfg) (n : Nat) : Yields (drain c n) fun l => l.length = n := by
  induction n with
  | zero => exact Yields.pure rfl
  | succ n ih =>
    exact Yields.bind_any fun _ => ih.bind fun _ hl => Yields.pure (congrArg Nat.succ hl)

/-- The poll loop returns a byte that shows a termination bit (R145). -/
theorem yields_poll (c : Cfg) (w : Byte) (n : Nat) :
    Yields (poll c w n) fun seen => ∀ v, seen = some v → termBit v w = true := by
  induction n with
  | zero => exact Yields.pure nofun
  | succ n ih =>
    refine Yields.bind_any fun v => ?_
    split
    · rename_i ht
      exact Yields.pure fun u hu => Option.some.inj hu ▸ ht
    · exact ih

/-- The triple has the bit length and the data that its status and the command call for (R164), and
under the literal rule its status is not `Ok` (R149). -/
structure WellShaped (c : Cfg) (cmd : Byte) (t : Triple) : Prop where
  failed  : t.status = .genericError → t.data = [] ∧ t.bitLen = bitLengthFailed
  empty   : t.status ≠ .genericError → cmd ≠ c.cmdTransceive → t.data = [] ∧ t.bitLen = 0#32
  drained : t.status ≠ .genericError → cmd = c.cmdTransceive →
    1 ≤ t.data.length ∧ t.data.length ≤ c.maxLen.toNat
  literal : c.noTagRule = .literal → t.status ≠ .ok

theorem wellShaped_failed (c : Cfg) (cmd : Byte) : WellShaped c cmd Pseudocode.failed :=
  ⟨fun _ => ⟨rfl, rfl⟩, fun h => absurd rfl h, fun h => absurd rfl h, nofun⟩

/-- After a poll that saw a termination bit, the program resolves to a well-shaped triple. -/
theorem yields_resolve {c : Cfg} {v : Byte} (hc : c.wf = true) (cmd : Byte)
    (hv : termBit v (waitIrqOf c cmd) = true) : Yields (resolve c cmd v) (WellShaped c cmd) := by
  have hne := resolvedStatus_ne c v (irqEnOf c cmd)
  have hlit : c.noTagRule = .literal → resolvedStatus c v (irqEnOf c cmd) ≠ .ok :=
    fun hl => resolvedStatus_literal hl hv
  refine Yields.bind_any fun e => ?_
  split
  · exact Yields.pure (wellShaped_failed c cmd)
  · split
    · rename_i htrx
      refine Yields.bind_any fun n => Yields.bind_any fun ctl =>
        (yields_drain c _).bind fun data hlen => Yields.pure
          ⟨fun h => absurd h hne, fun _ h => absurd htrx h, fun _ _ => ?_, hlit⟩
      rw [hlen, ← drainCount_toNat c n hc]
      exact ⟨drainCount_pos hc n, drainCount_le c n⟩
    · rename_i htrx
      exact Yields.pure
        ⟨fun h => absurd h hne, fun _ _ => ⟨rfl, rfl⟩, fun _ h => absurd h htrx, hlit⟩

/-- The engine's program returns well-shaped triples only. -/
theorem yields_engine {c : Cfg} (hc : c.wf = true) (cmd : Byte) (payload : List Byte) :
    Yields (engine c cmd payload) (WellShaped c cmd) := by
  refine Yields.bind_any fun _ => Yields.bind_any fun _ => Yields.bind_any fun _ =>
    Yields.bind_any fun _ => Yields.bind_any fun _ => Yields.bind_any fun _ =>
    Yields.bind_any fun _ => (yields_poll _ _ _).bind fun seen hseen => Yields.bind_any fun _ => ?_
  cases seen with
  | none => exact Yields.pure (wellShaped_failed c cmd)
  | some v => exact yields_resolve hc cmd (hseen v rfl)

theorem yields_requestMode {c : Cfg} (hc : c.wf = true) (mode : Byte) :
    Yields (requestMode c mode) (WellShaped c c.cmdTransceive) :=
  Yields.bind_any fun _ => yields_engine hc _ _

end Pseudocode

/-! ### REQMODE as its program -/

/-- The registers of REQMODE in `P_RQ_FRAME`: the mode byte, and the engine's operands (R24, R95). -/
def Work.requestOperands (c : Cfg) (mode : Byte) : Work :=
  { Work.blank with
    op := some .reqmode, v := some mode
    cmd := some c.cmdTransceive, payload := some [mode], plen := some 1#8 }

/-- `P_RQ_FRAME` and the engine after it are the program of R180 up to its check. -/
theorem leads_requestMode {s : State} {mode : Byte} (hc : s.cfg.wf = true) (ho : s.opened = true)
    (hfair : s.env.fair = true) :
    Leads (1 + (14 + 1 + s.cfg.pollBudget.toNat + s.cfg.maxLen.toNat)) (requestMode s.cfg mode)
      (s.running false .rqFrame (Work.requestOperands s.cfg mode)) (HasTriple .reqmode) := by
  let first := s.running false .rqFrame (Work.requestOperands s.cfg mode)
  have hwrite : Leads 1 (memWrite s.cfg.regBitFraming 0x07#8) first fun _ q y =>
      q = first.afterWrite.pc ∧ y = first.afterWrite.x := leads_memWrite rfl rfl ho hfair
  refine hwrite.bind (lightly_memWrite _ _) (fun _ => uniform_engine _ _ _) ?_
  rintro ⟨⟩ t q y hl ⟨rfl, rfl⟩
  obtain ⟨hcfg, hopened⟩ := light_keeps hl
  exact leads_engine (payload := [mode]) hcfg hc (hopened.trans ho) (hl.fair hfair) (by simp) rfl
    ⟨rfl, rfl, rfl, rfl, rfl, rfl, rfl, rfl⟩

/-- REQMODE on an open bus is the program of R180 and its response. -/
theorem exec_eq_requestMode {s : State} {mode : Byte} (hr : s.pc = .ready) (ho : s.opened = true)
    (hc : s.cfg.wf = true) (hfair : s.env.fair = true) :
    let r := requestMode s.cfg mode { s with adv := false }
    exec (.reqmode mode) s = .next (r.2.ended (requestRsp r.1 r.2.adv)) := by
  have hb : s.begun (.reqmode mode) =
      s.running false .rqFrame (Work.requestOperands s.cfg mode) := if_pos ho
  exact (leads_requestMode hc ho hfair).exec (m := 2) (uniform_requestMode _ _) hb request_end rfl
    hr (by unfold phaseBound payloadMax; omega)

theorem lightly_requestMode (c : Cfg) (mode : Byte) : Lightly (requestMode c mode) :=
  (lightly_memWrite _ _).bind fun _ => lightly_engine _ _ _

/-! ### The response -/

/-- A program hands nothing over by itself. -/
theorem Pseudocode.Light.rspOut {s t : State} (h : Light s t) : t.rspOut = s.rspOut := by
  obtain ⟨⟨_, _, _, _, rfl⟩, -⟩ := h
  rfl

/-- EXEC answers with the frame of an error or of a well-shaped triple. -/
theorem exec_response {s : State} {cmd : Byte} {payload : List Byte} (hi : Inv s)
    (hr : s.pc = .ready) (ho : s.opened = true) (hfair : s.env.fair = true)
    (hlen : payload.length ≤ payloadMax) :
    ∃ e t, exec (.exec cmd payload) s = .next (State.ended t (execRsp e t.adv)) ∧
      t.rspOut = s.rspOut ∧ ∀ tr, e = .value tr → WellShaped s.cfg cmd tr :=
  ⟨_, _, exec_eq_engine hr ho hi.cfg hfair hlen, (lightly_engine _ _ _ _).rspOut,
    yields_engine hi.cfg cmd payload _⟩

/-- REQMODE answers with the frame of an error or of a well-shaped triple that its check has seen. -/
theorem reqmode_response {s : State} {mode : Byte} (hi : Inv s) (hr : s.pc = .ready)
    (ho : s.opened = true) (hfair : s.env.fair = true) :
    ∃ e t, exec (.reqmode mode) s = .next (State.ended t (requestRsp e t.adv)) ∧
      t.rspOut = s.rspOut ∧ ∀ tr, e = .value tr → WellShaped s.cfg s.cfg.cmdTransceive tr :=
  ⟨_, _, exec_eq_requestMode hr ho hi.cfg hfair, (lightly_requestMode _ _ _).rspOut,
    yields_requestMode hi.cfg mode _⟩

theorem statusCode_eq_error_iff (st : Status) :
    statusCode (some st) = 0x02#8 ↔ st = .genericError := by
  cases st <;> simp [statusCode]

theorem statusCode_eq_ok_iff (st : Status) : statusCode (some st) = 0x00#8 ↔ st = .ok := by
  cases st <;> simp [statusCode]

/-- Settles O35: the frame is the error's or that of a well-shaped triple. -/
theorem execTripleShape : Obligations.ExecTripleShape := by
  unfold Obligations.ExecTripleShape
  intro s cmd payload hi hr ho hfair hlen
  obtain ⟨e, t, hexec, hout, hshape⟩ := exec_response (cmd := cmd) hi hr ho hfair hlen
  refine ⟨_, _, hexec, congrArg (· ++ _) hout, ?_⟩
  cases e with
  | transportError short => exact .inl ⟨_, rfl⟩
  | value tr =>
    obtain ⟨hfailed, hempty, hdrained, -⟩ := hshape tr rfl
    refine .inr ⟨_, statusCode (some tr.status), tr.bitLen, tr.data, rfl, ?_, ?_⟩
    · cases tr.status <;> simp [statusCode]
    · rw [ne_eq, statusCode_eq_error_iff]
      refine ⟨fun hs => ?_, fun hs hcmd => ?_, hdrained⟩
      · obtain ⟨hdata, hbits⟩ := hfailed hs
        exact ⟨hdata, hbits ▸ rfl⟩
      · obtain ⟨hdata, hbits⟩ := hempty hs hcmd
        exact ⟨hdata, hbits ▸ rfl⟩

/-- The frame that an operation has appended to the response port is the one it ended with. -/
theorem ended_frame {s t u : State} {i : Instr} {f frame : List Byte}
    (hexec : exec i s = .next (u.ended f)) (hout : u.rspOut = s.rspOut) (ht : exec i s = .next t)
    (hframe : t.rspOut = s.rspOut ++ [frame]) : frame = f := by
  rw [hexec] at ht
  cases ht
  have hend : u.rspOut ++ [f] = s.rspOut ++ [frame] := hframe
  rw [hout] at hend
  exact (List.singleton_injective (List.append_cancel_left hend)).symm

/-- Settles O36: a status that is not `Ok` is not the code 0x00, and does not pass REQMODE's check. -/
theorem literalRuleNeverOk : Obligations.LiteralRuleNeverOk := by
  unfold Obligations.LiteralRuleNeverOk
  intro s t frame hi hr ho hfair hlit hframe
  refine ⟨fun cmd payload hlen ht => ?exec, fun mode ht => ?reqmode⟩
  case exec =>
    obtain ⟨e, u, hexec, hout, hshape⟩ := exec_response (cmd := cmd) hi hr ho hfair hlen
    rw [ended_frame hexec hout ht hframe]
    cases e with
    | transportError short => exact (by decide : (0xFF#8 : Byte) ≠ 0x00#8)
    | value tr => exact mt (statusCode_eq_ok_iff tr.status).1 ((hshape tr rfl).literal hlit)
  case reqmode =>
    obtain ⟨e, u, hexec, hout, hshape⟩ := reqmode_response (mode := mode) hi hr ho hfair
    rw [ended_frame hexec hout ht hframe]
    cases e with
    | transportError short => exact ⟨.inl rfl, rfl⟩
    | value tr =>
      have hstatus : tr.status ≠ .ok := (hshape tr rfl).literal hlit
      rw [requestRsp, if_neg fun h => hstatus h.1]
      exact ⟨.inr rfl, rfl⟩

end Sys2Proof.Machine
end

section
/-!
PROOFS. The family of spec/41_command_engine.md: the engine's rows of the transition table (O41, O42, O43,
O44), the framer's arithmetic (O38) and the status (O37).
-/
namespace Sys2Proof.Machine

/-! ### A phase by the registers it leaves -/

/-- A write phase answered `Ok`, by the phase and registers its continuation leaves (R156). -/
theorem step_written_regs {s t : State} {a d : Byte} {bytes : List Byte} {q : Phase} {y : Work}
    (hc : s.cfg.wf = true) (ho : s.opened = true) (hf : s.frameDue = some (writeFrame a d))
    (hh : s.x.holds s.cfg s.pc = true) (h : s.call (.xfer [encAddr a, d]) = some (.ok bytes, t))
    (hgo : s.afterWrite = s.regs q y) : step s = .next { t with pc := q, x := y } := by
  rw [step_written hc ho hf hh h, afterWrite_light (Pseudocode.Light.call h), hgo]
  rfl

/-- A write phase answered `Ok` whose continuation only moves on to the phase `q` (R156). -/
theorem step_written_pc {s t : State} {a d : Byte} {bytes : List Byte} {q : Phase}
    (hc : s.cfg.wf = true) (ho : s.opened = true) (hf : s.frameDue = some (writeFrame a d))
    (hh : s.x.holds s.cfg s.pc = true) (h : s.call (.xfer [encAddr a, d]) = some (.ok bytes, t))
    (hgo : s.afterWrite = s.goto q) : step s = .next { t with pc := q } := by
  obtain ⟨-, -, -, -, -, -, hx, -⟩ := State.call_keeps h
  have hstep := step_written_regs (y := s.x) hc ho hf hh h hgo
  rwa [← hx] at hstep

/-- A read phase that has its byte, by the phase and registers its continuation leaves (R156). -/
theorem step_read_regs {s t : State} {a e0 e : Byte} {bytes : List Byte} {q : Phase} {y : Work}
    (hc : s.cfg.wf = true) (ho : s.opened = true) (hf : s.frameDue = some (readFrame a))
    (hh : s.x.holds s.cfg s.pc = true)
    (h : s.call (.xfer [encAddr a ||| s.cfg.rdFlag, 0x00#8]) = some (.ok (e0 :: e :: bytes), t))
    (hgo : s.afterRead e = s.regs q y) : step s = .next { t with pc := q, x := y } := by
  rw [step_read hc ho hf hh h, afterRead_light (Pseudocode.Light.call h), hgo]
  rfl

/-- Settles O41: each phase sends its frame, and `State.afterWrite` or `State.afterRead` has the rest. -/
theorem idleLoadExecutePhases : Obligations.IdleLoadExecutePhases := by
  unfold Obligations.IdleLoadExecutePhases
  intro s t i l b k v e0 e p bytes hc ho hop
  have hop' : s.x.op.isSome = true := Option.isSome_iff_ne_none.2 hop
  refine ⟨fun hp hl h => ?idle, fun hp hpay hl hi hb h => ?load, fun hp hk h => ?execute,
    fun hp h => ?startRd, fun hp hv h => ?startWr⟩
  case idle =>
    exact step_written_regs hc ho (by simp [State.frameDue, frameOf, hp])
      (by simp [Work.holds, hp, hop', hl]) h
      (by simp only [State.afterWrite, hp, hl, reg_some]; rfl)
  case load =>
    obtain ⟨hlt, -⟩ := List.getElem?_eq_some_iff.1 hb
    exact step_written_regs hc ho
      (by simp [State.frameDue, frameOf, hp, Work.payloadByte, hpay, hi, hb])
      (by simp [Work.holds, hp, hop', hpay, hl, hi, hlt]) h
      (by simp only [State.afterWrite, hp, hl, hi, reg_some, BitVec.ult, decide_eq_true_eq]; rfl)
  case execute =>
    have hf : s.frameDue = some (writeFrame s.cfg.regCommand k) := by
      simp [State.frameDue, frameOf, hp, hk]
    have hh : s.x.holds s.cfg s.pc = true := by simp [Work.holds, hp, hop', hk]
    have hw : s.afterWrite = if k = s.cfg.cmdTransceive then s.goto .startRd else s.enterPoll := by
      simp only [State.afterWrite, hp, hk, reg_some, isTrx_iff]
    split_ifs at hw ⊢
    · exact step_written_pc hc ho hf hh h hw
    · exact step_written_regs hc ho hf hh h hw
  case startRd =>
    exact step_read_tmp hc ho (by simp [State.frameDue, frameOf, hp])
      (by simp [Work.holds, hp, hop']) h (fun u hu => by simp only [State.afterRead, hu, hp])
  case startWr =>
    exact step_written_regs hc ho (by simp [State.frameDue, frameOf, hp, hv])
      (by simp [Work.holds, hp, hop', hv]) h (by simp only [State.afterWrite, hp]; rfl)

/-! ### The engine's end -/

/-- The engine's end by phase and registers: EXEC has its result, REQMODE has its check to come. -/
theorem State.engineEnd_eq {s : State} {op : Op} (hop : s.x.op = some op) :
    s.engineEnd = s.regs (endPhase op)
      { s.x with res := if op = .reqmode then s.x.res else some .success } := by
  have hiff : s.x.op = some .reqmode ↔ op = .reqmode := by simp [hop]
  simp only [State.engineEnd, endPhase, hiff]
  split <;> rfl

/-- `Fail()` by phase and registers (R154). -/
theorem State.engineFail_eq {s : State} {op : Op} (hop : s.x.op = some op) :
    s.engineFail = s.regs (endPhase op)
      { s.x with
        status := some .genericError, rlen := some 0x00#8, bitLen := some 0xFFFFFFFF#32
        res := if op = .reqmode then s.x.res else some .success } :=
  State.engineEnd_eq (s := s.setX _) hop

theorem chipError_iff (e : Byte) : chipError e = true ↔ e &&& 0x1B#8 ≠ 0x00#8 := by
  simp [chipError]

/-- Settles O42: both ways into `GenericError` are `Fail()`. -/
theorem stopAndFailPhases : Obligations.StopAndFailPhases := by
  unfold Obligations.StopAndFailPhases
  intro s t op v k q m e0 e r bytes hc ho hop failed
  refine ⟨fun hp h => ?stopRd, fun hp hv hr h => ?stopWr, fun hp hk hq hm h he => ?errRd⟩
  case stopRd =>
    exact step_read_tmp hc ho (by simp [State.frameDue, frameOf, hp])
      (by simp [Work.holds, hp, hop]) h (fun u hu => by simp only [State.afterRead, hu, hp])
  case stopWr =>
    have hf : s.frameDue = some (writeFrame s.cfg.regBitFraming (v &&& 0x7F#8)) := by
      simp [State.frameDue, frameOf, hp, hv]
    have hh : s.x.holds s.cfg s.pc = true := by simp [Work.holds, hp, hop, hv, hr]
    have hw : s.afterWrite = if r = 0#16 then s.engineFail else s.goto .errRd := by
      simp only [State.afterWrite, hp, hr, reg_some]
    split_ifs at hw ⊢
    · exact step_written_regs hc ho hf hh h (hw.trans (State.engineFail_eq hop))
    · exact step_written_pc hc ho hf hh h hw
  case errRd =>
    refine step_read_regs hc ho (by simp [State.frameDue, frameOf, hp])
      (by simp [Work.holds, hp, hop, hk, hq, hm]) h ?_
    have herr := (chipError_iff e).2 he
    simp only [State.afterRead, hp, State.errorRead, herr, if_true]
    exact State.engineFail_eq (s := s.setX _) hop

/-- Settles O43: of the commands, Transceive alone does not end the engine here. -/
theorem resolvePhase : Obligations.ResolvePhase := by
  unfold Obligations.ResolvePhase
  intro s t op k q m e0 e bytes hc ho hop hp hk hq hm h he
  have hne : chipError e = false := by simpa [chipError] using he
  have hf : s.frameDue = some (readFrame s.cfg.regError) := by simp [State.frameDue, frameOf, hp]
  have hh : s.x.holds s.cfg s.pc = true := by simp [Work.holds, hp, hop, hk, hq, hm]
  refine ⟨fun htrx => step_read_regs hc ho hf hh h ?_, fun htrx => step_read_regs hc ho hf hh h ?_⟩
  all_goals
    simp only [State.afterRead, hp, State.errorRead, hne, State.setX_x, State.setX_cfg, hk, hq, hm,
      reg_some, isTrx_iff, htrx, if_true, if_false, Bool.false_eq_true]
  · rfl
  · exact State.engineEnd_eq (s := s.setX _) hop

/-- `P_DRAIN` with the byte read, where the buffer ends at the index: the byte is appended (R152). -/
theorem State.drained_eq {s : State} {op : Op} {i nc e : Byte} (hop : s.x.op = some op)
    (hi : s.x.didx = some i) (hnc : s.x.nc = some nc) (hlen : s.x.resp.length = i.toNat)
    (hlt : i.toNat < nc.toNat) :
    s.drained e = s.regs (if i.toNat + 1 < nc.toNat then .drain else endPhase op)
      { s.x with
        resp := s.x.resp ++ [e], didx := some (i + 1#8), rlen := some (i + 1#8)
        res := if i.toNat + 1 < nc.toNat ∨ op = .reqmode then s.x.res else some .success } := by
  simp only [State.drained, hi, hnc, reg_some, storeAt_end hlen, BitVec.ult, decide_eq_true_eq,
    toNat_index_succ hlt, State.setX_x]
  by_cases hmore : i.toNat + 1 < nc.toNat
  · simp only [hmore, true_or, if_true]
    rfl
  · simp only [hmore, false_or, if_false]
    exact State.engineEnd_eq (s := s.setX _) hop

/-- Settles O44: `State.controlRead` computes, `State.drained` appends. -/
theorem framerPhases : Obligations.FramerPhases := by
  unfold Obligations.FramerPhases
  intro s t op n nc i e0 e bytes hc ho hop
  refine ⟨fun hp h => ?lvlRd, fun hp hn h => ?ctrlRd, fun hp hnc hi hlen hlt hle h => ?drain⟩
  case lvlRd =>
    exact step_read_regs hc ho (by simp [State.frameDue, frameOf, hp])
      (by simp [Work.holds, hp, hop]) h (by simp only [State.afterRead, hp]; rfl)
  case ctrlRd =>
    exact step_read_regs hc ho (by simp [State.frameDue, frameOf, hp])
      (by simp [Work.holds, hp, hop, hn]) h
      (by simp only [State.afterRead, hp, State.controlRead, hn, reg_some]; rfl)
  case drain =>
    refine step_read_regs hc ho (by simp [State.frameDue, frameOf, hp])
      (by simp [Work.holds, hp, hop, hnc, hi, hlen, BitVec.ult]; omega) h ?_
    simp only [State.afterRead, hp]
    exact State.drained_eq hop hi hnc hlen hlt

/-! ### The framer's arithmetic -/

/-- The drain count on numbers, for every CFG (R151). -/
theorem drainCount_eq_min (c : Cfg) (n : Byte) :
    (drainCount c n).toNat = min (max n.toNat 1) c.maxLen.toNat := by
  have hlow : (if n = 0#8 then 1#8 else n).toNat = max n.toNat 1 := by
    split
    · subst n; rfl
    · have := ne_zero_iff_one_le.1 ‹n ≠ 0#8›
      omega
  simp only [drainCount, BitVec.ule, decide_eq_true_eq, hlow]
  split <;> omega

/-- The bit length on integers: the word does not wrap but below 0 (R150, R163). -/
theorem bitLength_toInt (n : Byte) (lastBits : BitVec 3) :
    (bitLength n lastBits).toInt = if lastBits = 0#3 then 8 * (n.toNat : Int)
      else 8 * ((n.toNat : Int) - 1) + lastBits.toNat := by
  have hn := n.isLt
  have hl := lastBits.isLt
  unfold bitLength
  split <;> simp [BitVec.toInt_eq_toNat_cond] <;> omega

/-- Settles O38: the bounds are those of a byte and of three bits. -/
theorem framerArithmetic : Obligations.FramerArithmetic := by
  unfold Obligations.FramerArithmetic
  intro c n lastBits
  have hn := n.isLt
  have hl := lastBits.isLt
  rw [bitLength_toInt, drainCount_eq_min]
  refine ⟨rfl, ?lower, ?upper, rfl, fun h1 hmax => ?bound⟩
  case lower =>
    split
    · omega
    · have := ne_zero_iff_one_le.1 ‹lastBits ≠ 0#3›
      omega
  case upper | bound => split <;> omega

/-- Settles O37: the two rules of `noTag`, as propositions. -/
theorem noTagDowngrade : Obligations.NoTagDowngrade := by
  unfold Obligations.NoTagDowngrade
  intro c irqVal irqEn
  refine ⟨fun h => ?_, fun h => ?_⟩ <;> simp [resolvedStatus, noTag, h]

end Sys2Proof.Machine
end

section
/-!
PROOFS. The family of spec/41_command_engine.md: the poll loop (O39).
-/
namespace Sys2Proof.Machine

/-! ### One poll -/

/-- A phase of a busy sequencer, and the run after it. -/
theorem runFor_tick {n : Nat} {s t : State} (hr : s.pc ≠ .ready) (h : s.tick = .next t) :
    runFor (n + 1) s = runFor n t := by
  simp only [runFor, if_neg hr, h]

theorem termBit_iff {v w : Byte} :
    termBit v w = true ↔ v &&& 0x01#8 ≠ 0x00#8 ∨ v &&& w ≠ 0x00#8 := by
  simp [termBit]

theorem termBit_eq_false_iff {v w : Byte} :
    termBit v w = false ↔ v &&& 0x01#8 = 0x00#8 ∧ v &&& w = 0x00#8 := by
  simp [termBit]

/-- `P_POLL` with the byte read, by phase and registers (R145). -/
theorem State.polled_eq {s : State} {w : Byte} {r : Half} (hw : s.x.waitIrq = some w)
    (hr : s.x.rem = some r) (e : Byte) :
    s.polled e = if termBit e w
      then s.regs .stopRd { s.x with irqVal := some e, rem := some r }
      else s.regs (if r - 1#16 = 0#16 then .stopRd else .poll)
        { s.x with irqVal := some e, rem := some (r - 1#16) } := by
  simp only [State.polled, hw, hr, reg_some]
  rfl

/-- The trace of reads of the interrupt register, each with its echo (R91, R145). -/
def pollReads (c : Cfg) (l : List (Byte × Byte)) : List (Call × Answer) :=
  l.map fun p => (.xfer [encAddr c.regComIrq ||| c.rdFlag, 0x00#8], echo p)

/-- From `s`, in `P_POLL`, the bytes of `l` have been read, the last of them `e`, and the sequencer is in
`p` with `r` iterations left; nothing else has changed. -/
def State.pollsTo (s : State) (l : List (Byte × Byte)) (rest : List Answer) (p : Phase) (e : Byte)
    (r : Half) : State :=
  { s with
    pc := p, env := .free rest, calls := s.calls ++ pollReads s.cfg l
    x := { s.x with irqVal := some e, rem := some r } }

/-- A poll and the polls after it are the polls together. -/
theorem State.pollsTo_pollsTo (s : State) (p : Byte × Byte) (l : List (Byte × Byte))
    (rest rest' : List Answer) (q q' : Phase) (e e' : Byte) (r r' : Half) :
    (s.pollsTo [p] rest q e r).pollsTo l rest' q' e' r' = s.pollsTo (p :: l) rest' q' e' r' := by
  simp [State.pollsTo, pollReads]

/-- The hypotheses of a poll: the sequencer polls for `w` on an open bus, with `r` iterations left and
the answers `l` to come. -/
structure Polls (s : State) (w : Byte) (r : Half) (l : List Answer) : Prop where
  pc      : s.pc = .poll
  opened  : s.opened = true
  op      : s.x.op ≠ none
  waitIrq : s.x.waitIrq = some w
  rem     : s.x.rem = some r
  env     : s.env = .free l

section
variable {s : State} {w : Byte} {r : Half} {rest : List Answer}

theorem Polls.pollsTo {l : List Answer} (h : Polls s w r l) (reads : List (Byte × Byte)) (e : Byte)
    (r' : Half) : Polls (s.pollsTo reads rest .poll e r') w r' rest :=
  ⟨rfl, h.opened, h.op, h.waitIrq, rfl, rfl⟩

/-- One read of the interrupt register. -/
theorem Polls.tick {e : Byte × Byte} (h : Polls s w r (echo e :: rest)) :
    s.tick = .next (if termBit e.2 w then s.pollsTo [e] rest .stopRd e.2 r
      else s.pollsTo [e] rest (if r - 1#16 = 0#16 then .stopRd else .poll) e.2 (r - 1#16)) := by
  have hf : s.frameDue = some (readFrame s.cfg.regComIrq) := by
    simp [State.frameDue, frameOf, h.pc]
  have hh : s.x.holds s.cfg s.pc = true := by
    simp [Work.holds, h.pc, h.waitIrq, h.rem, Option.isSome_iff_ne_none.2 h.op]
  let u : State := { s with env := .free rest, calls := s.calls ++ pollReads s.cfg [e] }
  have hcall : s.call (.xfer ((readFrame s.cfg.regComIrq).bytes s.cfg)) = some (echo e, u) := by
    rw [readFrame_bytes]
    simp [State.call, h.env, Env.answer, pollReads, u]
  have hread : State.readAnswered (echo e) u = u.polled e.2 := by
    simp [State.readAnswered, readValue, echo, State.afterRead, h.pc, u]
  rw [State.tick_frameDue hf, State.issue_answered h.opened hh hcall]
  exact congrArg _ (hread.trans (State.polled_eq (s := u) h.waitIrq h.rem e.2))

/-- Reads that show no termination bit take one iteration each (R145). -/
theorem Polls.runFor {pre : List (Byte × Byte)} {e : Byte × Byte}
    (h : Polls s w r ((pre ++ [e]).map echo ++ rest)) (hpre : ∀ p ∈ pre, termBit p.2 w = false)
    (hlen : pre.length < r.toNat) {left : Half}
    (hlast : left = r - BitVec.ofNat 16 pre.length ∧ termBit e.2 w = true ∨
      pre.length + 1 = r.toNat ∧ left = 0#16 ∧ termBit e.2 w = false) :
    runFor (pre.length + 1) s = .next (s.pollsTo (pre ++ [e]) rest .stopRd e.2 left) := by
  have hbusy : s.pc ≠ .ready := by simp [h.pc]
  induction pre generalizing s r with
  | nil =>
    have htick := Polls.tick h
    rw [List.length_nil, runFor_tick hbusy htick, Machine.runFor]
    rcases hlast with ⟨rfl, ht⟩ | ⟨h1, rfl, ht⟩
    · simp [ht]
    · have hr : r = 1#16 := BitVec.eq_of_toNat_eq (by simpa using h1.symm)
      subst hr
      simp [ht]
  | cons p pre ih =>
    rw [List.length_cons] at hlen hlast ⊢
    have hsub : (r - 1#16).toNat = r.toNat - 1 := by
      have := r.isLt
      rw [BitVec.toNat_sub]
      simp
      omega
    have hne : r - 1#16 ≠ 0#16 := by
      rw [ne_zero_iff_one_le, hsub]
      omega
    have htick := Polls.tick (rest := (pre ++ [e]).map echo ++ rest) h
    rw [if_neg (by simp [hpre p]), if_neg hne] at htick
    have hlast' : left = r - 1#16 - BitVec.ofNat 16 pre.length ∧ termBit e.2 w = true ∨
        pre.length + 1 = (r - 1#16).toNat ∧ left = 0#16 ∧ termBit e.2 w = false := by
      refine hlast.imp (fun ⟨hl, ht⟩ => ⟨?_, ht⟩) fun ⟨hl, h0⟩ => ⟨by omega, h0⟩
      rw [hl, Nat.add_comm, BitVec.ofNat_add, sub_sub]
    have hrest := ih (h.pollsTo [p] p.2 (r - 1#16))
      (fun q hq => hpre q (List.mem_cons_of_mem _ hq)) (by omega) hlast' nofun
    rw [State.pollsTo_pollsTo] at hrest
    rw [runFor_tick hbusy htick]
    exact hrest

end

/-- Settles O39: `Polls.runFor`, with the last read showing a bit or using up the budget. -/
theorem pollLoopReads : Obligations.PollLoopReads := by
  unfold Obligations.PollLoopReads
  intro s w r pre e rest hp ho hop hw hr henv hpre reads
  have h : Polls s w r ((pre ++ [e]).map echo ++ rest) := ⟨hp, ho, hop, hw, hr, henv⟩
  have hpre' : ∀ p ∈ pre, termBit p.2 w = false := fun p hm => termBit_eq_false_iff.2 (hpre p hm)
  exact ⟨fun hlen ht => h.runFor hpre' hlen (.inl ⟨rfl, termBit_iff.2 ht⟩),
    fun hlen ht => h.runFor hpre' (by omega) (.inr ⟨hlen, rfl, termBit_eq_false_iff.2 ht⟩)⟩

end Sys2Proof.Machine
end

section
/-!
PROOFS. The family of spec/42_protocol_ops.md: REQMODE is the pseudocode of R180 (O34), and the three
placeholders (O24).
-/
namespace Sys2Proof.Machine

/-! ### REQMODE -/

/-- Settles O34: `exec_eq_requestMode` takes the FSM through the program and its check. -/
theorem reqmodeIsThePseudocode : Obligations.ReqmodeIsThePseudocode := by
  unfold Obligations.ReqmodeIsThePseudocode
  intro s mode hr
  exact ⟨fun ho => exec_notCaptured rfl hr (if_neg (by simp [ho])),
    fun ho hc hfair => exec_eq_requestMode hr ho hc hfair⟩

/-! ### The placeholders -/

/-- An operation that enters `P_ABORT` on acceptance, whatever the error, leaves its response and no more
(R213). -/
theorem exec_refused {s : State} {i : Instr} {e : Res} (hp : i.port = .request) (hr : s.pc = .ready)
    (hb : s.begun i = (s.beginOp (opOf i)).raise e false) :
    exec i s = .next (s.ended (plainRsp e.code 0x00#8 0x00#8)) := by
  have hrun := phases_raise (s := s.beginOp (opOf i)) (e := e) (flagsByte_false false)
  rw [← hb] at hrun
  exact hrun.exec hp hr rfl (by decide)

/-- Settles O24: each of the three enters `P_ABORT` on acceptance, on an open bus or not. -/
theorem placeholdersNotImplemented : Obligations.PlaceholdersNotImplemented := by
  unfold Obligations.PlaceholdersNotImplemented
  intro s i hi hr hop
  rw [← hi.ended_eq hr]
  rcases hop with rfl | ⟨data, rfl⟩ | rfl <;>
    exact exec_refused (e := .notImplemented) rfl hr rfl

end Sys2Proof.Machine
end

section
/-!
PROOFS. The family of spec/43_session_ops.md: CAPTURE opens the bus (O47) and RELEASE closes it (O48).
-/
namespace Sys2Proof.Machine

/-! ### The open and the close call -/

/-- `P_OPEN` or `P_CLOSE`, whose one call is answered. -/
theorem phases_call {s t : State} {adv : Bool} {p : Phase} {x : Work} {c : Call} {ans : Answer}
    {k : Answer → State → State} (hr : p ≠ .ready)
    (htick : (s.running adv p x).tick = .next ((s.running adv p x).calling c k))
    (h : s.call c = some (ans, t)) :
    Phases 1 (s.running adv p x) (k ans (t.running adv p x)) := by
  refine .one hr (htick.trans ?_)
  rw [State.calling, State.call_running h]

/-! ### CAPTURE -/

/-- The registers of CAPTURE on acceptance (log 3). -/
def Work.captureOperands (speed : Word) (address : List Byte) : Work :=
  { Work.blank with op := some .capture, capSpeed := some speed, capAddr := some address }

/-- CAPTURE on a closed bus starts in `P_OPEN` with its operands. -/
theorem State.begun_capture {s : State} (speed : Word) (address : List Byte)
    (ho : s.opened = false) :
    s.begun (.capture speed address) =
      s.running false .openBus (Work.captureOperands speed address) :=
  if_neg (by simp [ho])

/-- `P_OPEN` and the hand-over: the handle takes the operands, or the error leaves it as it was
(R190). -/
theorem phases_open {s t : State} {speed : Word} {address : List Byte} {ans : Answer}
    (h : s.call (.openBus address speed) = some (ans, t)) :
    Phases 2 (s.running false .openBus (Work.captureOperands speed address))
      (if ans = .fail then t.ended (plainRsp 0x01#8 0x00#8 0x00#8)
        else State.ended { t with opened := true, speed := speed, busaddr := address }
          (plainRsp 0x00#8 0x00#8 0x00#8)) := by
  have hopen : Phases 1 (s.running false .openBus (Work.captureOperands speed address))
      (State.openAnswered ans (t.running false .openBus (Work.captureOperands speed address))) :=
    phases_call (by decide) rfl h
  refine hopen.trans (n := 1) ?_
  cases ans with
  | fail => exact phases_raise (flagsByte_false false)
  | ok bytes =>
    exact phases_finish (s := State.running
      { t with opened := true, speed := speed, busaddr := address } false .openBus
      (Work.captureOperands speed address)) rfl rfl rfl (flagsByte_false false)

theorem encode_capture (speed : Word) (address : List Byte) :
    encode (.capture speed address) =
      [0x01#8, 0x00#8, 0x00#8, BitVec.ofNat 8 (4 + address.length), speed.extractLsb' 24 8] ++
        [speed.extractLsb' 16 8, speed.extractLsb' 8 8, speed.extractLsb' 0 8] ++ address := by
  rw [encode, requestFrame, List.length_append]
  rfl

/-- Settles O47: an open bus refuses on acceptance; on a closed one the run is `phases_open`. -/
theorem captureOpensBus : Obligations.CaptureOpensBus := by
  unfold Obligations.CaptureOpensBus
  intro s t speed address ans hi hr
  refine ⟨encode_capture speed address, fun ho => ?refused, fun ho h => ?opens⟩
  case refused =>
    rw [← hi.ended_eq hr]
    exact exec_refused (e := .alreadyCaptured) rfl hr (if_pos ho)
  case opens =>
    have hrun := phases_open (speed := speed) h
    rw [← State.begun_capture speed address ho] at hrun
    exact hrun.exec rfl hr (by split_ifs <;> rfl) (by decide)

/-! ### RELEASE -/

/-- The registers of RELEASE on acceptance. -/
def Work.release : Work := { Work.blank with op := some .release }

/-- The registers of RELEASE after its byte: the result it has earned waits for the close (R191). -/
def Work.releaseSent (ans : Answer) : Work :=
  { Work.release with res := some (if ans = .fail then .transportError else .success) }

/-- RELEASE fails with its byte or with its close (R191). -/
theorem closeResult_code (r1 r2 : Answer) :
    (if r2 = .fail then Res.transportError
      else (Work.releaseSent r1).res.getD .success).code =
      if r1 = .fail ∨ r2 = .fail then 0x01#8 else 0x00#8 := by
  cases r1 <;> cases r2 <;> rfl

/-- The release byte, the close whatever its answer, and the hand-over of either failure (R191). -/
theorem phases_release {s t u : State} {r1 r2 : Answer} (ho : s.opened = true)
    (hx : s.call (.xfer [0x00#8]) = some (r1, t)) (hc : t.call .closeBus = some (r2, u)) :
    Phases 3 (s.running false .relWr Work.release)
      (State.ended { u with opened := false }
        (plainRsp (if r1 = .fail ∨ r2 = .fail then 0x01#8 else 0x00#8) 0x00#8 0x00#8)) := by
  have hbyte : Phases 1 (s.running false .relWr Work.release)
      (t.running false .closeBus (Work.releaseSent r1)) :=
    phases_frame (f := .release) ho rfl rfl hx
  have hclose : Phases 1 (t.running false .closeBus (Work.releaseSent r1))
      (State.closeAnswered r2 (u.running false .closeBus (Work.releaseSent r1))) :=
    phases_call (by decide) rfl hc
  rw [← closeResult_code]
  exact (hbyte.trans hclose).trans (phases_finish
    (s := State.running { u with opened := false } false .closeBus (Work.releaseSent r1))
    rfl rfl rfl (flagsByte_false false))

/-- Settles O48: a closed bus refuses as R125 has it; on an open one the run is `phases_release`. -/
theorem releaseClosesBus : Obligations.ReleaseClosesBus := by
  unfold Obligations.ReleaseClosesBus
  intro s t u r1 r2 hi hr
  refine ⟨fun ho => ?refused, fun ho hx hc => ?closes⟩
  case refused =>
    rw [← hi.ended_eq hr]
    exact exec_notCaptured rfl hr (if_neg (by simp [ho]))
  case closes =>
    have hb : s.begun .release = s.running false .relWr Work.release := if_pos ho
    have hrun := phases_release ho hx hc
    rw [← hb] at hrun
    exact hrun.exec rfl hr rfl (by decide)

end Sys2Proof.Machine
end

section
/-!
PROOFS. The family of spec/60_exceptions.md: every operation ends in one response frame after a bounded
number of transport calls, or waits for a call that is never answered (O19).
-/
namespace Sys2Proof.Machine

/-! ### The length of a response frame -/

/-- R96: nine bytes, of which the last is `RLEN`, and `RLEN` data bytes. -/
def WholeResponse (frame : List Byte) : Prop := frame.length = 9 + (frame.getD 8 0x00#8).toNat

theorem rspFrame_whole {res : Res} {flags status val rlen : Byte} {bitLen : Word} {data : List Byte}
    (h : data.length = rlen.toNat) :
    WholeResponse (rspFrame res flags status bitLen val rlen data) := by
  simp [WholeResponse, rspFrame, bytesOfWord, h]
  omega

theorem State.errorFrame_whole (s : State) : WholeResponse s.errorFrame := rspFrame_whole rfl

/-- In `P_DONE` the buffer holds the `RLEN` bytes that a triple hands over (R164). -/
theorem State.resultFrame_whole {s : State} (h : s.PhaseOk) (hp : s.pc = .done) :
    WholeResponse s.resultFrame := by
  simp only [State.PhaseOk, hp, PhaseInv] at h
  obtain ⟨-, -, -, htriple⟩ := h
  unfold State.resultFrame
  dsimp only
  split
  · rename_i hop
    exact rspFrame_whole (List.length_take_of_le (htriple hop).2.rlen_le)
  · exact rspFrame_whole rfl

/-! ### How many transport calls an operation still has -/

/-- A bound on the calls from this phase on: the phases left but for the hand-over, and but for
`P_RQ_CHECK`, which `phasesLeft` counts for EXEC too. -/
def State.callsLeft (s : State) : Nat := s.left - if returnsTriple s.x.op then 2 else 1

theorem State.callsLeft_le (s : State) : s.callsLeft ≤ s.left := Nat.sub_le _ _

/-- After a transfer of the engine come two more phases at least. -/
theorem State.two_lt_left {s : State} {f : Frame} (h : s.PhaseOk) (hf : s.frameDue = some f)
    (hop : returnsTriple s.x.op = true) : 2 < s.left := by
  unfold State.frameDue at hf
  unfold State.left
  cases hp : s.pc <;> simp only [hp, frameOf, reduceCtorEq] at hf <;>
    simp only [State.PhaseOk, hp, PhaseInv] at h
  case wr | rd | relWr => simp [h.2.1, returnsTriple] at hop
  case rmwRd | rmwWr => rcases h.2.1 with h | h <;> simp [h, returnsTriple] at hop
  case load | drain =>
    simp only [phasesLeft]
    omega
  all_goals simp [phasesLeft]

theorem State.callsLeft_pos {s : State} {f : Frame} (h : s.PhaseOk) (hf : s.frameDue = some f) :
    0 < s.callsLeft := by
  unfold State.callsLeft
  split
  · exact Nat.sub_pos_of_lt (State.two_lt_left h hf ‹_›)
  · exact Nat.sub_pos_of_lt (State.one_lt_left hf)

/-! ### What a phase adds to the trace and to the response port -/

theorem Frame.answered_rspOut {s : State} (hr : s.pc ≠ .ready) (f : Frame) (ans : Answer) :
    (f.answered ans s).rspOut = s.rspOut := by
  cases f with
  | write a d => exact (GoesOn.writeAnswered hr ans).ports.2
  | read a => exact (GoesOn.readAnswered hr ans).ports.2
  | release => rfl

/-- A phase hands one whole frame over, or makes at most one call, where one is left. -/
def EndsOrCalls (s t : State) : Prop :=
  (∃ frame, WholeResponse frame ∧ t = s.handOver frame) ∨
    t.rspOut = s.rspOut ∧ ∃ l, t.calls = s.calls ++ l ∧ l.length ≤ min 1 s.callsLeft

theorem EndsOrCalls.of_silent {s t : State} (ho : t.rspOut = s.rspOut) (hc : t.calls = s.calls) :
    EndsOrCalls s t := .inr ⟨ho, [], by simp [hc]⟩

/-- A phase that calls the transport adds at most that call to the trace. -/
theorem EndsOrCalls.of_calling {s : State} {c : Call} {k : Answer → State → State}
    (hleft : 0 < s.callsLeft)
    (hk : ∀ ans u, u.pc = s.pc → (k ans u).calls = u.calls ∧ (k ans u).rspOut = u.rspOut) :
    EndsOrCalls s (s.calling c k) := by
  rcases s.calling_cases c k with h | ⟨ans, u, hu, h⟩ <;> rw [h]
  · exact .of_silent rfl rfl
  · obtain ⟨-, hpc, -, -, -, -, -, -, hout, hcalls⟩ := State.call_keeps hu
    obtain ⟨hkc, hko⟩ := hk ans u hpc
    exact .inr ⟨hko.trans hout, [(c, ans)], hkc.trans hcalls, le_min (le_refl _) hleft⟩

theorem State.innerPhase_endsOrCalls {s t : State} (hi : Inv s) (h : s.innerPhase = .next t) :
    EndsOrCalls s t := by
  have hphase := hi.phase
  unfold State.innerPhase at h
  cases hp : s.pc <;> simp only [hp] at h hphase
  case openBus | closeBus =>
    obtain ⟨-, hop, -⟩ := hphase
    rw [State.phase_next hi h]
    refine .of_calling (by simp [State.callsLeft, State.left, hp, phasesLeft, hop, returnsTriple]) ?_
    rintro (bytes | -) u - <;> exact ⟨rfl, rfl⟩
  case rqCheck =>
    obtain ⟨p, x, hx, -⟩ := s.requestChecked_regsOnly
    rw [State.phase_next hi h, hx]
    exact .of_silent rfl rfl
  case done => exact .inl ⟨_, State.resultFrame_whole hi.phase hp, State.phase_next hi h⟩
  case abort => exact .inl ⟨_, s.errorFrame_whole, State.phase_next hi h⟩
  all_goals
    cases h
    exact .of_silent rfl rfl

theorem State.tick_endsOrCalls {s t : State} (hi : Inv s) (h : s.tick = .next t) :
    EndsOrCalls s t := by
  cases hf : s.frameDue with
  | none => exact State.innerPhase_endsOrCalls hi (State.tick_inner hf ▸ h)
  | some f =>
    rw [State.tick_frameDue hf, State.issue_eq hi hf] at h
    cases h
    refine .of_calling (State.callsLeft_pos hi.phase hf) fun ans u hpc => ?_
    have hr : u.pc ≠ .ready := hpc ▸ State.frameDue_ne_ready hf
    exact ⟨(Frame.answered_keeps hr f ans).2.2, Frame.answered_rspOut hr f ans⟩

/-! ### What a run adds -/

/-- From `s` to `t` the calls made are paid for by the calls left, every frame handed over is whole, and
a fair environment has stayed fair. -/
structure Spends (s t : State) : Prop where
  fair   : s.env.fair = true → t.env.fair = true
  calls  : ∃ l, t.calls = s.calls ++ l ∧ l.length + t.callsLeft ≤ s.callsLeft
  frames : ∃ fs, t.rspOut = s.rspOut ++ fs ∧ ∀ f ∈ fs, WholeResponse f

theorem Spends.refl (s : State) : Spends s s := ⟨id, ⟨[], by simp⟩, [], by simp⟩

theorem Spends.trans {s t u : State} (h : Spends s t) (h' : Spends t u) : Spends s u := by
  obtain ⟨hf, ⟨l, hl, hle⟩, fs, hfs, hw⟩ := h
  obtain ⟨hf', ⟨l', hl', hle'⟩, fs', hfs', hw'⟩ := h'
  refine ⟨hf' ∘ hf, ⟨l ++ l', by rw [hl', hl, List.append_assoc], ?_⟩,
    fs ++ fs', by rw [hfs', hfs, List.append_assoc], ?_⟩
  · rw [List.length_append]
    omega
  · exact fun f hmem => (List.mem_append.1 hmem).elim (hw f) (hw' f)

/-- A phase pays for its call by the phase it has left behind. -/
theorem State.tick_spends {s t : State} (hi : Inv s) (hfair : s.env.fair = true)
    (hr : s.pc ≠ .ready) (h : s.tick = .next t) : Spends s t := by
  rcases State.tick_endsOrCalls hi h with ⟨frame, hw, rfl⟩ | ⟨hout, l, hl, hlen⟩
  · exact ⟨id, ⟨[], by simp [State.callsLeft, State.left, phasesLeft]⟩, [frame], rfl, by simpa using hw⟩
  · rcases State.tick_goesOn hi h with hgo | ⟨frame, rfl⟩
    · have hless := State.tick_left hi hfair hr h
      refine ⟨hgo.fair, ⟨l, hl, ?_⟩, [], by simp [hout], nofun⟩
      unfold State.callsLeft at hlen ⊢
      rw [hgo.op]
      omega
    · simp at hout

theorem runFor_spends {n : Nat} {s t : State} (hi : Inv s) (hfair : s.env.fair = true)
    (h : runFor n s = .next t) : Spends s t := by
  induction n generalizing s with
  | zero =>
    cases h
    exact .refl _
  | succ n ih =>
    simp only [runFor] at h
    split at h
    · cases h
      exact .refl _
    · rename_i hr
      obtain ⟨v, hv, hiv⟩ := State.tick_inv hi
      simp only [hv] at h
      have hspends := State.tick_spends hi hfair hr hv
      exact hspends.trans (ih hiv (hspends.fair hfair) h)

/-! ### An operation -/

theorem State.raise_callsLeft (s : State) (e : Res) (short : Bool) :
    (s.raise e short).callsLeft = 0 := by
  unfold State.callsLeft
  rw [State.raise_left]
  split <;> rfl

theorem State.needBus_callsLeft {s : State} {go : State → State} {n : Nat}
    (h : (go s).callsLeft ≤ n) : (s.needBus go).callsLeft ≤ n := by
  unfold State.needBus
  split
  · exact h
  · exact State.raise_callsLeft s _ _ ▸ Nat.zero_le n

/-- R157's largest count covers the calls of every operation. -/
theorem State.begun_callsLeft {s : State} {i : Instr} (hp : i.port = .request) :
    (s.begun i).callsLeft ≤ 14 + payloadMax + s.cfg.pollBudget.toNat + s.cfg.maxLen.toNat := by
  unfold State.begun enterOp
  cases i with
  | spi2w | spi2r | spi1 => cases hp
  | scan | flash | rdanticoll => exact State.raise_callsLeft _ _ _ ▸ Nat.zero_le _
  | capture speed address =>
    dsimp only
    split
    · exact State.raise_callsLeft _ _ _ ▸ Nat.zero_le _
    · simp [State.callsLeft, State.left, phasesLeft, opOf, returnsTriple]
      omega
  | exec cmd payload =>
    have hlen := (BitVec.ofNat 8 payload.length).isLt
    refine State.needBus_callsLeft ?_
    simp only [State.callsLeft, State.left, phasesLeft, State.enterArm_pc, State.enterArm_x,
      State.enterArm_cfg, State.setX_x, State.setX_cfg, State.beginOp_x, State.beginOp_cfg, reg_some,
      opOf, returnsTriple, beq_self_eq_true, Bool.true_or, if_true, payloadMax]
    omega
  | _ =>
    refine State.needBus_callsLeft ((State.callsLeft_le _).trans ?_)
    simp [State.left, phasesLeft, State.enterRqFrame, payloadMax]
    omega

/-- A fair operation comes to `P_READY` again, and its calls are those left at its first phase. -/
theorem exec_spends {s t : State} {i : Instr} (hi : Inv s) (hr : s.pc = .ready)
    (hfair : s.env.fair = true) (hp : i.port = .request) (hwf : i.wf = true)
    (h : exec i s = .next t) : t.pc = .ready ∧ Spends (s.begun i) t := by
  rw [exec_eq_runOp hp, if_pos hr] at h
  have hgo := (GoesOn.begun (s := s) hp).1
  have hb := hi.begun hp hwf
  exact ⟨runFor_ends hb (hgo.fair hfair) (hgo.cfg ▸ State.begun_left hp) h,
    runFor_spends hb (hgo.fair hfair) h⟩

/-! ### A call that is never answered -/

/-- Where no call is answered, a phase whose next event is a call stays as it is (R75). -/
theorem State.calling_stuck {s : State} (he : s.env = .stuck []) (c : Call)
    (k : Answer → State → State) : s.calling c k = s := by
  simp [State.calling, State.call, he, Env.answer]

theorem State.innerPhase_stuck {s : State} (hi : Inv s) (he : s.env = .stuck [])
    (hp : s.pc = .openBus ∨ s.pc = .closeBus) : s.innerPhase = .next s := by
  have hh := State.holds_of_phase hi.phase
  rcases hp with hp | hp <;> rw [hp] at hh <;>
    simp [State.innerPhase, hp, State.phase, hh, State.calling_stuck he]

/-- Settles O19: the run of a fair operation ends by `phasesLeft`, its calls are counted by
`State.callsLeft`, and `exec_goesOn` has it hand one frame over, which clears `x[adv]` too (log 9). -/
theorem everyOperationEnds : Obligations.EveryOperationEnds := by
  unfold Obligations.EveryOperationEnds
  refine ⟨fun s i hi hr hfair hwf hp => ?ends, fun s hi he hwait => ?waits⟩
  case ends =>
    obtain ⟨t, ht, -⟩ := exec_inv hi hr hp hwf
    obtain ⟨hready, hfair', ⟨l, hl, hle⟩, fs, hfs, hwhole⟩ := exec_spends hi hr hfair hp hwf ht
    obtain ⟨p, x, hb, -⟩ := State.begun_regsOnly (s := s) hp
    have hbound := State.begun_callsLeft (s := s) hp
    obtain ⟨u, hgo, hbusy, rfl | ⟨frame, rfl⟩⟩ := exec_goesOn hi hr hp hwf ht
    · exact absurd hready hbusy
    · have hout : (u.handOver frame).rspOut = s.rspOut ++ [frame] := congrArg (· ++ _) hgo.ports.2
      rw [hb] at hfair' hl hfs
      have hframe : [frame] = fs := List.append_cancel_left (hout.symm.trans hfs)
      exact ⟨_, frame, l, ht, rfl, rfl, rfl, hfair' hfair, hout, hwhole frame (by simp [← hframe]), hl,
        by omega⟩
  case waits =>
    cases hf : s.frameDue with
    | some f =>
      rw [step_busy hi.cfg (State.frameDue_ne_ready hf)]
      exact State.tick_stuck he (State.opened_of_frame hi.phase hf) hf (State.holds_of_phase hi.phase)
    | none =>
      have hp : s.pc = .openBus ∨ s.pc = .closeBus := by simpa [hf] using hwait
      rw [step_busy hi.cfg (by rcases hp with hp | hp <;> simp [hp]), State.tick_inner hf]
      exact State.innerPhase_stuck hi he hp

end Sys2Proof.Machine
end

section
/-!
PROOFS. Placing a table word (O8): the step of `withFetchWord` is the instruction the word decodes to.
-/
namespace Sys2Proof.Machine

/-! ### What a decoder accepts -/

/-- A table word is decoded at its row's port. -/
theorem decodeTableWord_eq_some {nbits w : Nat} {i : Instr} (h : decodeTableWord nbits w = some i) :
    decode (tablePort nbits) (tableBytes nbits w) = .ok i := by
  unfold decodeTableWord at h
  split at h
  · rename_i j hd
    exact hd.trans (congrArg _ (Option.some.inj h))
  · cases h

/-- A request that decodes is one whole frame, with no byte after it: its length is `4 + LEN` (R94). -/
theorem takeFrame_decoded {frame : List Byte} {i : Instr} (h : decode .request frame = .ok i) :
    takeFrame frame = some (frame, []) := by
  rw [decode] at h
  unfold decodeRequest at h
  split at h
  · rename_i op a b len payload
    split at h
    · rename_i hlen
      simp [takeFrame, ← hlen]
    · cases h
  · cases h

/-- What the wire decodes is a frame's instruction (R90 to R92). -/
theorem decode_wire_frame {bytes : List Byte} {i : Instr} (h : decode .wire bytes = .ok i) :
    ∃ f : Frame, i = f.instr := by
  refine Instr.eq_frame ?_
  rw [decode] at h
  unfold decodeWire at h
  repeat' split at h
  all_goals cases h
  all_goals rfl

/-! ### Where a word is placed -/

/-- A 32-bit word is placed at the request port of a ready sequencer. -/
theorem State.withFetchWord_request {s : State} {nbits w : Nat} (hp : tablePort nbits = .request) :
    s.withFetchWord nbits w = { s with pc := .ready, reqIn := tableBytes nbits w } := by
  simp only [State.withFetchWord, hp]

/-- A 16- or 8-bit word that decodes is placed as the frame of a phase. -/
theorem State.withFetchWord_wire {s : State} {nbits w : Nat} {i : Instr}
    (hp : tablePort nbits = .wire) (h : decode .wire (tableBytes nbits w) = .ok i) :
    s.withFetchWord nbits w = s.placeFrame i := by
  rw [decode] at h
  simp only [State.withFetchWord, hp, h]

@[simp] theorem State.placeFrame_cfg (s : State) (i : Instr) : (s.placeFrame i).cfg = s.cfg := by
  cases i <;> rfl

/-- The placed frame is the one that is due (R25). -/
theorem State.placeFrame_frameDue (s : State) (f : Frame) :
    (s.placeFrame f.instr).frameDue = some f := by
  cases f <;> simp [State.placeFrame, Frame.instr, State.frameDue, frameOf, writeFrame, readFrame, reg]

/-! ### The step of a placed word -/

/-- Settles O8: a 32-bit word is a whole request, of which nothing stays at the port, and a shorter word
is the frame that is due where it is placed. -/
theorem fetchWordRuns : Obligations.FetchWordRuns := by
  unfold Obligations.FetchWordRuns
  refine ⟨fun s w i hc h => ?request, fun s nbits w i hc hn h => ?wire⟩
  case request =>
    have hd : decode .request (tableBytes 32 w) = .ok i := decodeTableWord_eq_some h
    rw [State.withFetchWord_request rfl]
    exact step_decoded hc rfl (takeFrame_decoded hd) hd
  case wire =>
    have hp : tablePort nbits = .wire := by rcases hn with rfl | rfl <;> rfl
    have hd : decode .wire (tableBytes nbits w) = .ok i := hp ▸ decodeTableWord_eq_some h
    obtain ⟨f, rfl⟩ := decode_wire_frame hd
    have hdue := s.placeFrame_frameDue f
    rw [State.withFetchWord_wire hp hd, step_busy (by simpa using hc) (State.frameDue_ne_ready hdue),
      exec_frameDue hdue]

end Sys2Proof.Machine
end
